-- ==== Sys2Proof/Word.lean ====
section
/-! DEFINITION. The element types: register words, bytes, code points, amplitudes, and the content of `PCM`. -/

namespace Sys2Proof

/-- A register or descriptor word: 32 bits, read as an unsigned integer (10_state.md R21, 30_encoding.md R87). -/
abbrev Word := BitVec 32

/-- One byte of a frame (30_encoding.md R80). -/
abbrev Byte := BitVec 8

/-- One element of `TXT`: a code point of 21 bits (10_state.md R29). -/
abbrev CodePoint := BitVec 21

/-- How many cells of the real line there are to the unit. It is a multiple of 65536, of 32767 and of 100, so that every
number at which a rounding or a comparison of one amplitude changes its result (00_scope.md R13, R14; 44_demod.md R196)
lies between two cells. -/
def cellUnit : Nat := 2 ^ 64 * 25 * 32767

/-- One real number as plain data: an amplitude, an element of `WAV`, an `F` element of `PCM` (00_scope.md R12,
10_state.md R29). `rat q` is the rational `q`. `irr n k` is an irrational number, given by the cell it lies in, strictly
between `n / cellUnit` and `(n + 1) / cellUnit`, and a name `k` that tells it from the others there (assumption 2). -/
inductive Amp where
  | rat (q : Rat)
  | irr (n : Int) (k : Nat)
  deriving DecidableEq, Repr, Inhabited

/-- The content of `PCM` (10_state.md R29): a sequence of elements of one type, signed 16-bit integers, signed 32-bit
integers or real numbers. An element outside its type's range cannot be built (R33). -/
inductive PcmBuffer where
  | i16 (cs : List (BitVec 16))
  | i32 (cs : List (BitVec 32))
  | f (xs : List Amp)
  deriving DecidableEq, Repr

/-- `PCM_LEN`, the number of elements (10_state.md R29). -/
def PcmBuffer.length : PcmBuffer → Nat
  | .i16 cs => cs.length
  | .i32 cs => cs.length
  | .f xs => xs.length

end Sys2Proof
end

