-- ==== Sys2Proof/Syntax.lean ====
section
/-! DEFINITION. The fifteen commands (30_encoding.md R89) and the five-word descriptor (R87). -/

namespace Sys2Proof

/-- The commands, one constructor per row of the opcode map, in the map's order; the operands are the descriptor's
operand words, taken as they stand (30_encoding.md R88). -/
inductive Instr where
  | setSr (v : Word)
  | setBaud (v : Word)
  | setFmark (v : Word)
  | setFspace (v : Word)
  | cfgReset
  | cfgGet (sel : Word)
  | serialize
  | deserialize
  | synthesize
  | score (off len freq rate : Word)
  | demodulate
  | encode
  | decode
  | pcmNorm
  | pcmQuant
  deriving DecidableEq, Repr

/-- A command descriptor as the host presents it to the `CMD` port: `W0` and the operand words `A0 .. A3`, which
are `W1 .. W4` (30_encoding.md R87). -/
structure Descriptor where
  w0 : Word
  a0 : Word
  a1 : Word
  a2 : Word
  a3 : Word
  deriving DecidableEq, Repr

end Sys2Proof
end

