-- ==== Sys2Proof/WellFormed.lean ====
section
/-! DEFINITION. Which commands have an encoding: only `CFG.GET` constrains its operand (30_encoding.md R90). -/

namespace Sys2Proof

/-- The largest selector of `CFG.GET`, `CFG.SPB` (40_config.md R115). -/
def maxSelector : Nat := 4

/-- A command a legal descriptor stands for. The other operand words are unconstrained: their values are checked by
the command, not by the decoder (30_encoding.md R91). -/
def Instr.wf : Instr → Bool
  | .setSr _ => true
  | .setBaud _ => true
  | .setFmark _ => true
  | .setFspace _ => true
  | .cfgReset => true
  | .cfgGet sel => decide (sel.toNat ≤ maxSelector)
  | .serialize => true
  | .deserialize => true
  | .synthesize => true
  | .score _ _ _ _ => true
  | .demodulate => true
  | .encode => true
  | .decode => true
  | .pcmNorm => true
  | .pcmQuant => true

end Sys2Proof
end

