-- ==== Sys2Proof/Decode.lean ====
section
/-! DEFINITION. The descriptor decoder, total on all 2^160 descriptors, and the encoder (30_encoding.md R87 to R90). -/

namespace Sys2Proof

/-- Why a descriptor is illegal (30_encoding.md R90). -/
inductive DecodeError where
  | reservedBits
  | unknownOpcode
  | unusedOperand
  | selectorAboveFour
  deriving DecidableEq, Repr

/-- Format `N`: no operand word is used, so all four must be 0 (30_encoding.md R88, R90). -/
def formatN (d : Descriptor) (i : Instr) : Except DecodeError Instr :=
  if d.a0 = 0 ∧ d.a1 = 0 ∧ d.a2 = 0 ∧ d.a3 = 0 then .ok i else .error .unusedOperand

/-- Format `V`: `A0` is the value, the other operand words must be 0 (30_encoding.md R88, R90). -/
def formatV (d : Descriptor) (i : Word → Instr) : Except DecodeError Instr :=
  if d.a1 = 0 ∧ d.a2 = 0 ∧ d.a3 = 0 then .ok (i d.a0) else .error .unusedOperand

/-- Format `S`: all four operand words are used (30_encoding.md R88). -/
def formatS (d : Descriptor) (i : Word → Word → Word → Word → Instr) : Except DecodeError Instr :=
  .ok (i d.a0 d.a1 d.a2 d.a3)

/-- `CFG.GET`: format `V` with a selector of at most 4 (30_encoding.md R90). -/
def formatSelector (d : Descriptor) : Except DecodeError Instr :=
  if d.a0.toNat ≤ maxSelector then formatV d .cfgGet else .error .selectorAboveFour

/-- The opcode map (30_encoding.md R89): the row that the operation code selects. -/
def decodeOpcode (opc : Nat) (d : Descriptor) : Except DecodeError Instr :=
  match opc with
  | 0x01 => formatV d .setSr
  | 0x02 => formatV d .setBaud
  | 0x03 => formatV d .setFmark
  | 0x04 => formatV d .setFspace
  | 0x05 => formatN d .cfgReset
  | 0x06 => formatSelector d
  | 0x10 => formatN d .serialize
  | 0x11 => formatN d .deserialize
  | 0x20 => formatN d .synthesize
  | 0x30 => formatS d .score
  | 0x40 => formatN d .demodulate
  | 0x50 => formatN d .encode
  | 0x51 => formatN d .decode
  | 0x60 => formatN d .pcmNorm
  | 0x61 => formatN d .pcmQuant
  | _ => .error .unknownOpcode

/-- Decode a descriptor: `W0[31:8]` must be 0 and `W0[7:0]` is the operation code (30_encoding.md R87, R90). -/
def decode (d : Descriptor) : Except DecodeError Instr :=
  if d.w0.extractLsb' 8 24 ≠ 0 then .error .reservedBits
  else decodeOpcode (d.w0.extractLsb' 0 8).toNat d

/-- The descriptor of a command (30_encoding.md R87 to R89). -/
def encode : Instr → Descriptor
  | .setSr v => ⟨0x01, v, 0, 0, 0⟩
  | .setBaud v => ⟨0x02, v, 0, 0, 0⟩
  | .setFmark v => ⟨0x03, v, 0, 0, 0⟩
  | .setFspace v => ⟨0x04, v, 0, 0, 0⟩
  | .cfgReset => ⟨0x05, 0, 0, 0, 0⟩
  | .cfgGet sel => ⟨0x06, sel, 0, 0, 0⟩
  | .serialize => ⟨0x10, 0, 0, 0, 0⟩
  | .deserialize => ⟨0x11, 0, 0, 0, 0⟩
  | .synthesize => ⟨0x20, 0, 0, 0, 0⟩
  | .score off len freq rate => ⟨0x30, off, len, freq, rate⟩
  | .demodulate => ⟨0x40, 0, 0, 0, 0⟩
  | .encode => ⟨0x50, 0, 0, 0, 0⟩
  | .decode => ⟨0x51, 0, 0, 0, 0⟩
  | .pcmNorm => ⟨0x60, 0, 0, 0, 0⟩
  | .pcmQuant => ⟨0x61, 0, 0, 0, 0⟩

/-- The descriptor whose 160 bits, `W0` lowest, are the low `nbits` bits of `w` with zeros above (the numbering of
spec/opcode_table.json; a descriptor's words are numbers and have no byte order, 20_memory.md R54). -/
def descriptorOfBits (nbits w : Nat) : Descriptor :=
  let v := w % 2 ^ nbits
  { w0 := BitVec.ofNat 32 v
    a0 := BitVec.ofNat 32 (v / 2 ^ 32)
    a1 := BitVec.ofNat 32 (v / 2 ^ 64)
    a2 := BitVec.ofNat 32 (v / 2 ^ 96)
    a3 := BitVec.ofNat 32 (v / 2 ^ 128) }

/-- The instruction the decoder reads from a table word of `nbits` bits. -/
def decodeTableWord (nbits w : Nat) : Option Instr :=
  match decode (descriptorOfBits nbits w) with
  | .ok i => some i
  | .error _ => none

end Sys2Proof
end

