-- ==== Sys2Proof/Config.lean ====
section
/-! DEFINITION. The implementation parameters (00_scope.md R7), the numerics record with its laws (R12, R15), and the
values the spec leaves open. -/

namespace Sys2Proof

/-- `ROUND_TIE`, the tie rule of `round` in samples-per-bit (00_scope.md R7, R11; decision D5: ties to even by
default, half up for a model that wants it). -/
inductive RoundTie where
  | toEven
  | halfUp
  deriving DecidableEq, Repr

/-- `UTF8_ERR`, what the UTF-8 decoder does with a byte at which no well-formed sequence starts (00_scope.md R7,
41_frame.md R137). `perByte` is the spec's default; the other two are the conventions that D12 and N13 name as the
ones a model may want instead (assumption 7). -/
inductive Utf8Err where
  | perByte
  | maximalPrefix
  | drop
  deriving DecidableEq, Repr

/-- `A_TONE`, the tone amplitude (00_scope.md R7). -/
def toneAmplitude : Rat := 4 / 5

/-- The numerics record `NUM` (00_scope.md R12). `amp` is `NUM.Amp`, the amplitudes the instance has; `add`, `mul` and
`lt` are the exact operations on them; `sin p q`, `cos p q` and `tone p q` are the amplitudes at the phase `p / q` of a
turn. -/
structure Num where
  amp : Amp → Bool
  add : Amp → Amp → Amp
  mul : Amp → Amp → Amp
  lt : Amp → Amp → Bool
  sin : Nat → Nat → Amp
  cos : Nat → Nat → Amp
  tone : Nat → Nat → Amp
  norm16 : Int → Amp
  norm32 : Int → Amp
  normF : Amp → Amp
  quant16 : Amp → Int
  deriving Inhabited

/-- The operations are exact operations on real numbers, and the amplitudes are closed under them (00_scope.md R12).
`val a` is the real number that `a` stands for. -/
structure ExactNum (num : Num) (val : Amp → ℝ) : Prop where
  val_rat : ∀ q : Rat, val (.rat q) = q
  val_irr : ∀ (n : Int) (k : Nat), (n : ℝ) < cellUnit * val (.irr n k) ∧ cellUnit * val (.irr n k) < n + 1
  val_add : ∀ a b, val (num.add a b) = val a + val b
  val_mul : ∀ a b, val (num.mul a b) = val a * val b
  lt_iff : ∀ a b, num.lt a b = true ↔ val a < val b
  amp_zero : num.amp (.rat 0) = true
  amp_add : ∀ a b, num.amp a = true → num.amp b = true → num.amp (num.add a b) = true
  amp_mul : ∀ a b, num.amp a = true → num.amp b = true → num.amp (num.mul a b) = true
  amp_neg : ∀ a, num.amp a = true → num.amp (num.mul (.rat (-1)) a) = true
  amp_sin : ∀ p q, p < q → num.amp (num.sin p q) = true
  amp_cos : ∀ p q, p < q → num.amp (num.cos p q) = true
  amp_tone : ∀ p q, p < q → num.amp (num.tone p q) = true
  amp_norm16 : ∀ c, num.amp (num.norm16 c) = true
  amp_norm32 : ∀ c, num.amp (num.norm32 c) = true
  amp_normF : ∀ x, num.amp (num.normF x) = true

/-- The law N3 with the bound `eps`: sine, cosine and tone are within `eps` of the real functions (00_scope.md R15). -/
structure NearReal (num : Num) (val : Amp → ℝ) (eps : ℝ) : Prop where
  sin_near : ∀ p q : Nat, p < q → |val (num.sin p q) - Real.sin (2 * Real.pi * p / q)| ≤ eps
  cos_near : ∀ p q : Nat, p < q → |val (num.cos p q) - Real.cos (2 * Real.pi * p / q)| ≤ eps
  tone_near : ∀ p q : Nat, p < q → |val (num.tone p q) - 4 / 5 * Real.sin (2 * Real.pi * p / q)| ≤ eps

/-- Exactness and the laws N1 to N5 of a numerics instance (00_scope.md R12, R15), for the reading `val` of its
amplitudes as real numbers. -/
structure NumLaws (num : Num) (val : Amp → ℝ) : Prop extends ExactNum num val where
  sin_zero : ∀ q, 1 ≤ q → val (num.sin 0 q) = 0
  tone_zero : ∀ q, 1 ≤ q → val (num.tone 0 q) = 0
  cos_zero_pos : ∀ q, 1 ≤ q → 0 < val (num.cos 0 q)
  sin_le : ∀ p q, p < q → |val (num.sin p q)| ≤ 1
  cos_le : ∀ p q, p < q → |val (num.cos p q)| ≤ 1
  tone_le : ∀ p q, p < q → |val (num.tone p q)| ≤ toneAmplitude
  near : ∃ eps, NearReal num val eps
  norm16_range : ∀ c, -32768 ≤ c → c ≤ 32767 → |val (num.norm16 c)| ≤ 1
  norm32_range : ∀ c, -2147483648 ≤ c → c ≤ 2147483647 → |val (num.norm32 c)| ≤ 1
  normF_range : ∀ x, |val x| ≤ 1 → |val (num.normF x)| ≤ 1
  norm_zero : val (num.norm16 0) = 0 ∧ val (num.norm32 0) = 0 ∧ val (num.normF (.rat 0)) = 0
  norm16_mono : ∀ c d, -32768 ≤ c → c ≤ d → d ≤ 32767 → val (num.norm16 c) ≤ val (num.norm16 d)
  norm32_mono : ∀ c d, -2147483648 ≤ c → c ≤ d → d ≤ 2147483647 → val (num.norm32 c) ≤ val (num.norm32 d)
  normF_mono : ∀ x y, val x ≤ val y → val (num.normF x) ≤ val (num.normF y)
  quant16_range : ∀ a, |val a| ≤ 1 → -32768 ≤ num.quant16 a ∧ num.quant16 a ≤ 32767
  quant16_zero : num.quant16 (.rat 0) = 0
  quant16_mono : ∀ a b, val a ≤ val b → num.quant16 a ≤ num.quant16 b

/-- An instance that satisfies the laws every instance must satisfy (00_scope.md R15). -/
def LawfulNum (num : Num) : Prop := ∃ val, NumLaws num val

/-- Which instance of `NUM` the machine has: the hardware instance `Q15` (00_scope.md R14), the computable
approximation of `REF` that R13 allows (assumption 3), or one of the instances of which only the laws are known. -/
inductive Numerics where
  | q15
  | ref
  | other (k : Nat)
  deriving DecidableEq, Repr

/-- The parameters of one machine (00_scope.md R7). A capacity `none` is the unbounded buffer. -/
structure Params where
  txtCap : Option Nat
  bitCap : Option Nat
  wavCap : Option Nat
  pcmCap : Option Nat
  roundTie : RoundTie
  utf8Err : Utf8Err
  numerics : Numerics
  deriving DecidableEq, Repr

/-- The spec's choices for the hardware (00_scope.md R7): unbounded buffers, ties to even, one replacement
character per offending byte, and the hardware numerics `Q15` (assumption 3). -/
def Params.default : Params where
  txtCap := none
  bitCap := none
  wavCap := none
  pcmCap := none
  roundTie := .toEven
  utf8Err := .perByte
  numerics := .q15

/-- The real number that an amplitude can stand for (00_scope.md R12, 10_state.md R29): a rational for itself, `irr n k`
for any irrational in its cell. -/
def Amp.Stands : Amp → ℝ → Prop
  | .rat q, x => x = q
  | .irr n _, x => Irrational x ∧ (n : ℝ) < cellUnit * x ∧ cellUnit * x < n + 1

/-- The rational that an amplitude is to the instances that calculate with rationals: itself, or the middle of the cell
of an irrational. No conversion and no comparison with a constant tells the two apart (assumption 2). -/
def Amp.toRat : Amp → Rat
  | .rat q => q
  | .irr n _ => (2 * n + 1) / (2 * cellUnit)

@[simp] theorem toRat_rat (q : Rat) : (Amp.rat q).toRat = q := rfl

theorem toRat_irr (n : Int) (k : Nat) :
    (n : ℝ) < cellUnit * ((Amp.irr n k).toRat : ℝ) ∧ cellUnit * ((Amp.irr n k).toRat : ℝ) < n + 1 := by
  have e : (cellUnit : ℝ) * ((Amp.irr n k).toRat : ℝ) = n + 1 / 2 := by
    have : (cellUnit : ℝ) ≠ 0 := by norm_num [cellUnit]
    simp only [Amp.toRat]; push_cast; field_simp
  rw [e]; constructor <;> linarith

/-- The rational amplitudes. -/
def Amp.isRat : Amp → Bool
  | .rat _ => true
  | .irr _ _ => false

/-- The exact operations of the instances that calculate with rationals (00_scope.md R12). -/
def ratAdd (a b : Amp) : Amp := .rat (a.toRat + b.toRat)
def ratMul (a b : Amp) : Amp := .rat (a.toRat * b.toRat)
def ratLt (a b : Amp) : Bool := decide (a.toRat < b.toRat)

@[simp] theorem toRat_ratAdd (a b : Amp) : (ratAdd a b).toRat = a.toRat + b.toRat := rfl
@[simp] theorem toRat_ratMul (a b : Amp) : (ratMul a b).toRat = a.toRat * b.toRat := rfl
@[simp] theorem ratLt_iff (a b : Amp) : ratLt a b = true ↔ a.toRat < b.toRat := decide_eq_true_iff

/-- The least of the lawful instances, which shows that there is one: no tone, every sample 0. -/
def numSilent : Num where
  amp := Amp.isRat
  add := ratAdd
  mul := ratMul
  lt := ratLt
  sin _ _ := .rat 0
  cos _ _ := .rat 1
  tone _ _ := .rat 0
  norm16 _ := .rat 0
  norm32 _ := .rat 0
  normF _ := .rat 0
  quant16 _ := 0

theorem numSilent_lawful : LawfulNum numSilent := by
  have one : |(1 : ℝ)| ≤ 1 := by simp
  refine ⟨fun a => (a.toRat : ℝ), ?_⟩
  constructor
  case toExactNum =>
    constructor
    case val_irr => exact toRat_irr
    all_goals intros; simp [numSilent, Amp.isRat, ratAdd, ratMul]
  case near =>
    refine ⟨2, ⟨fun p q _ => ?_, fun p q _ => ?_, fun p q _ => ?_⟩⟩
    · have := Real.abs_sin_le_one (2 * Real.pi * p / q)
      simp only [numSilent, toRat_rat, Rat.cast_zero, zero_sub, abs_neg]; linarith
    · refine (abs_sub _ _).trans ?_
      have := Real.abs_cos_le_one (2 * Real.pi * p / q)
      simp only [numSilent, toRat_rat, Rat.cast_one]; linarith
    · have := Real.abs_sin_le_one (2 * Real.pi * p / q)
      simp only [numSilent, toRat_rat, Rat.cast_zero, zero_sub, abs_neg, abs_mul]
      norm_num; linarith
  all_goals intros; simp [numSilent, toRat_rat, toneAmplitude] <;> norm_num

/-- An instance together with the proof that it satisfies the laws. -/
abbrev LawfulInstance := { num : Num // LawfulNum num }

/-- Free values: the instances of `NUM` other than the two that are computed. Nothing is known of them but that they
satisfy the laws (00_scope.md R12, R15; assumption 4). -/
opaque Config.otherNum [Inhabited LawfulInstance] : Nat → LawfulInstance

/-- Free values: the elements of `PCM` read at a width that is not their own (assumption 5), given the content of the
buffer and the index. -/
opaque Config.otherWidth16 : PcmBuffer → Nat → BitVec 16
opaque Config.otherWidth32 : PcmBuffer → Nat → BitVec 32
opaque Config.otherWidthF : PcmBuffer → Nat → Amp

end Sys2Proof
end

