-- ==== Sys2Proof/Machine/State.lean ====
section
/-! DEFINITION. The architectural state (10_state.md R20 to R33), its reset value (R32), and the reasons a step can stop. -/

namespace Sys2Proof.Machine

/-- The five configuration registers (10_state.md R21). -/
structure ConfigRegs where
  sr : Word
  baud : Word
  fmark : Word
  fspace : Word
  spb : Word
  deriving DecidableEq, Repr

/-- The fields of `STATUS` (10_state.md R25). The reserved bits 3 and 31:8 have no storage: they read 0 and are
never written; `Status.word` is the register as the host reads it. -/
structure Status where
  busy : Bool
  insuf : Bool
  trunc : Bool
  err : BitVec 4
  deriving DecidableEq, Repr

/-- What reaches the block from outside: the moves of the host (10_state.md R20, R33; 20_memory.md R60) and the
hardware reset (70_reset_and_hazards.md R270). -/
inductive Input where
  /-- The host presents one descriptor to the `CMD` port. -/
  | command (d : Descriptor)
  /-- The host replaces the whole content of a buffer. -/
  | loadTxt (t : List CodePoint)
  | loadBit (b : List Bool)
  | loadWav (w : List Amp)
  | loadPcm (p : PcmBuffer)
  /-- The host writes the register with this number. -/
  | writeReg (n : Nat) (v : Word)
  /-- The host reads the register with this number. -/
  | readReg (n : Nat)
  /-- The host reads the buffers. -/
  | readBuffers
  /-- Hardware reset. -/
  | hardwareReset
  deriving DecidableEq, Repr

/-- The whole state. `par` is the machine's fixed parameters, which no step changes (assumption 1); `inputs` is what
the outside world will do next, first move first (assumption 6); every other field is the spec's. A buffer is the
sequence of its elements; its length register is the sequence's length (10_state.md R29). The elements of `pcm` keep the
type they were loaded with, and `State.readPcm` is what they are at the type that `PCM_FMT` names (assumption 5). -/
structure State where
  par : Params
  cfg : ConfigRegs
  status : Status
  res0 : Word
  power : Amp
  wavRate : Word
  pcmRate : Word
  pcmFmt : BitVec 2
  txt : List CodePoint
  bit : List Bool
  wav : List Amp
  pcm : PcmBuffer
  inputs : List Input
  deriving DecidableEq, Repr

/-- The default configuration (10_state.md R32, 40_config.md R114). -/
def ConfigRegs.default : ConfigRegs where
  sr := 8000
  baud := 300
  fmark := 1270
  fspace := 1070
  spb := 27

/-- The machine right after hardware reset (10_state.md R32, 70_reset_and_hazards.md R270). -/
def State.reset : State where
  par := Params.default
  cfg := ConfigRegs.default
  status := { busy := false, insuf := false, trunc := false, err := 0 }
  res0 := 0
  power := .rat 0
  wavRate := 8000
  pcmRate := 8000
  pcmFmt := 0
  txt := []
  bit := []
  wav := []
  pcm := .i16 []
  inputs := []

/-- Why the machine stops with a fault. No command ever does: a command's fault is reported in `STATUS` and the block
goes on (60_exceptions.md R253). -/
inductive Fault where
  /-- Raised by `hostMove` when the host reads or writes a register number of 16 or above, which names no register
  (20_memory.md R60). Safe: the hardware gives the host no such move. -/
  | noSuchRegister (n : Nat)
  deriving DecidableEq, Repr

/-- Why the model has no next state for a move. -/
inductive Refusal where
  /-- Raised by a refused arm of `exec`: the instruction has no meaning yet. No arm is refused. Safe. -/
  | notModelled (mnemonic : String)
  /-- Raised by `step` when the host has a move while `STATUS.BUSY = 1`; it has none then (10_state.md R20,
  93_implementation_defined.md I18). Safe. -/
  | hostMoveWhileBusy
  /-- Raised by `hostMove` when the host reads `CMD` or writes a register it may not write (10_state.md R33,
  93_implementation_defined.md I19). Safe: the hardware gives the host no such move. -/
  | registerAccessDenied (n : Nat)
  /-- Raised by `hostMove` when the host writes a value that the register's width does not hold (`PCM_FMT` has two
  bits, 10_state.md R28, R33). Safe. -/
  | valueTooWide (n : Nat)
  /-- Raised by `hostMove` when the host loads more elements than the buffer's capacity (10_state.md R33). Safe. -/
  | loadOverCapacity
  /-- Raised by `hostMove` when the host loads `WAV` with an element that is no amplitude of the machine's numerics;
  the element type has no such value (10_state.md R29, R33). Safe. -/
  | noSuchAmplitude
  deriving DecidableEq, Repr

/-- The three outcomes of a step of this machine. -/
abbrev Result := Host.Outcome State Fault Refusal

end Sys2Proof.Machine
end

