-- ==== Sys2Proof/Machine/Flags.lean ====
section
/-! DEFINITION. The `STATUS` register: its bits, the fault codes, and what a completion and a fault write into it. -/

namespace Sys2Proof.Machine

/-- The faults a command can end in (60_exceptions.md R240). -/
inductive CmdFault where
  | encodingError
  | lengthFault
  | configFault
  | rangeFault
  | capacityFault
  | illegalCommand
  deriving DecidableEq, Repr

/-- The code of a fault in `STATUS.ERR` (60_exceptions.md R240). -/
def CmdFault.code : CmdFault → BitVec 4
  | .encodingError => 1
  | .lengthFault => 2
  | .configFault => 3
  | .rangeFault => 4
  | .capacityFault => 5
  | .illegalCommand => 6

/-- `STATUS` as the host reads it: `BUSY` bit 0, `INSUF` bit 1, `TRUNC` bit 2, `ERR` bits 7:4, all others 0
(10_state.md R25). -/
def Status.word (st : Status) : Word :=
  BitVec.ofNat 32 (st.busy.toNat + 2 * st.insuf.toNat + 4 * st.trunc.toNat + 16 * st.err.toNat)

/-- `STATUS` after a normal completion: every command writes both flags and clears `ERR` (10_state.md R25). -/
def Status.completed (insuf trunc : Bool) : Status :=
  { busy := false, insuf := insuf, trunc := trunc, err := 0 }

/-- `STATUS` after a fault: the fault's code, both flags cleared (60_exceptions.md R251). -/
def Status.faulted (f : CmdFault) : Status :=
  { busy := false, insuf := false, trunc := false, err := f.code }

end Sys2Proof.Machine
end

