-- ==== Sys2Proof/Machine/Operands.lean ====
section
/-! DEFINITION. The operand forms: the selector of `CFG.GET`, the segment of `SCORE`, and the host's register map. -/

namespace Sys2Proof.Machine

/-- The configuration register with this selector (10_state.md R21, 40_config.md R115), none above 4. -/
def ConfigRegs.select (c : ConfigRegs) (sel : Nat) : Option Word :=
  match sel with
  | 0 => some c.sr
  | 1 => some c.baud
  | 2 => some c.fmark
  | 3 => some c.fspace
  | 4 => some c.spb
  | _ => none

/-- The slice `l[off .. off + len)` (00_scope.md R8). -/
def slice {α : Type} (l : List α) (off len : Nat) : List α :=
  (l.drop off).take len

/-- `PCM` at the width of signed 16-bit integers: its own elements where they are of that type. No access of mixed width
exists (20_memory.md R54), so the spec states no value for elements of another type: each is a free value
(assumption 5). -/
def codes16 : PcmBuffer → List (BitVec 16)
  | .i16 cs => cs
  | p => (List.range p.length).map (Config.otherWidth16 p)

/-- `PCM` at the width of signed 32-bit integers, as `codes16` is at 16 bits. -/
def codes32 : PcmBuffer → List (BitVec 32)
  | .i32 cs => cs
  | p => (List.range p.length).map (Config.otherWidth32 p)

/-- `PCM` as real numbers, as `codes16` is as 16-bit integers. -/
def reals : PcmBuffer → List Amp
  | .f xs => xs
  | p => (List.range p.length).map (Config.otherWidthF p)

/-- The content of `PCM` as elements of the type `PCM_FMT` names (10_state.md R28, R29); the reserved format names
none, and the elements stay what they are. -/
def State.readPcm (s : State) : PcmBuffer :=
  match s.pcmFmt.toNat with
  | 0 => .i16 (codes16 s.pcm)
  | 1 => .i32 (codes32 s.pcm)
  | 2 => .f (reals s.pcm)
  | _ => s.pcm

/-- What a register holds: a 32-bit word, an amplitude (`POWER`), or a buffer length. -/
inductive RegValue where
  | word (w : Word)
  | amp (a : Amp)
  | len (n : Nat)
  deriving DecidableEq, Repr

/-- The host's read of the register with this number (20_memory.md R60): 0 to 14 are readable, 15 is the write-only
`CMD` port, 16 and above name nothing. -/
def State.readRegister (s : State) (n : Nat) : Option RegValue :=
  match n with
  | 0 => some (.word s.cfg.sr)
  | 1 => some (.word s.cfg.baud)
  | 2 => some (.word s.cfg.fmark)
  | 3 => some (.word s.cfg.fspace)
  | 4 => some (.word s.cfg.spb)
  | 5 => some (.word s.status.word)
  | 6 => some (.word s.res0)
  | 7 => some (.amp s.power)
  | 8 => some (.word s.wavRate)
  | 9 => some (.word s.pcmRate)
  | 10 => some (.word (s.pcmFmt.setWidth 32))
  | 11 => some (.len s.txt.length)
  | 12 => some (.len s.bit.length)
  | 13 => some (.len s.wav.length)
  | 14 => some (.len s.pcm.length)
  | _ => none

end Sys2Proof.Machine
end

