-- ==== Sys2Proof/Machine/Ops.lean ====
section
/-! DEFINITION. The operations every command shares: completing, raising a fault, the capacity check, the writes of
the output buffers, and the integer functions `GUARD` and `SPB`. -/

namespace Sys2Proof.Machine

/-- A command completes: it writes both flags, `STATUS.ERR <- 0` and `RES0` (10_state.md R25, R26). -/
def complete (insuf trunc : Bool) (res : Word) (s : State) : State :=
  { s with status := Status.completed insuf trunc, res0 := res }

/-- `raise F(info)`: `STATUS.ERR <- code(F)`, both flags cleared, `RES0 <- info mod 2^32`, and nothing else changes
(60_exceptions.md R251). There is nothing to return from (R253). -/
def raise (f : CmdFault) (info : Nat) (s : State) : State :=
  { s with status := Status.faulted f, res0 := BitVec.ofNat 32 info }

/-- A sequence of `n` elements fits a buffer of this capacity; `none` is unbounded (10_state.md R29). -/
def fits (cap : Option Nat) (n : Nat) : Bool :=
  match cap with
  | none => true
  | some c => decide (n ≤ c)

/-- `TXT <- t` (20_memory.md R51). -/
def State.writeTxt (s : State) (t : List CodePoint) : State := { s with txt := t }

/-- `BIT <- b` (20_memory.md R51). -/
def State.writeBit (s : State) (b : List Bool) : State := { s with bit := b }

/-- `WAV <- w` with its rate tag (20_memory.md R51, 10_state.md R28). -/
def State.writeWav (s : State) (w : List Amp) (rate : Word) : State := { s with wav := w, wavRate := rate }

/-- `PCM <- p` with its tags (20_memory.md R51, 10_state.md R28). -/
def State.writePcm (s : State) (p : PcmBuffer) (fmt : BitVec 2) (rate : Word) : State :=
  { s with pcm := p, pcmFmt := fmt, pcmRate := rate }

/-- `GUARD(sr) = floor(sr / 10)`, the samples of one guard band (00_scope.md R10). -/
def guardLen (sr : Nat) : Nat := sr / 10

/-- `SPB(sr, baud) = round(sr / baud)` on the exact quotient, in integers (00_scope.md R11). -/
def samplesPerBit (tie : RoundTie) (sr baud : Nat) : Nat :=
  let q := sr / baud
  let r := sr % baud
  if baud < 2 * r then q + 1
  else if 2 * r < baud then q
  else
    match tie with
    | .toEven => if q % 2 = 0 then q else q + 1
    | .halfUp => q + 1

end Sys2Proof.Machine
end

