-- ==== Sys2Proof/Machine/ConfigCmds.lean ====
section
/-! DEFINITION. The configuration commands (40_config.md). -/

namespace Sys2Proof.Machine

/-- `SETCHECK(sr, baud)` passes (40_config.md R116): both rates are positive and samples-per-bit is at least 1. -/
def setCheck (tie : RoundTie) (sr baud : Nat) : Bool :=
  decide (sr ≠ 0 ∧ baud ≠ 0 ∧ samplesPerBit tie sr baud ≠ 0)

/-- `CFG.SPB <- SPB(CFG.SR, CFG.BAUD)`: the derived register is recomputed (10_state.md R22). -/
def ConfigRegs.recompute (c : ConfigRegs) (tie : RoundTie) : ConfigRegs :=
  { c with spb := BitVec.ofNat 32 (samplesPerBit tie c.sr.toNat c.baud.toNat) }

/-- `SET.SR v` (40_config.md R110). -/
def execSetSr (v : Word) (s : State) : Result :=
  if setCheck s.par.roundTie v.toNat s.cfg.baud.toNat then
    .next (complete false false 0 { s with cfg := { s.cfg with sr := v }.recompute s.par.roundTie })
  else .next (raise .configFault v.toNat s)

/-- `SET.BAUD v` (40_config.md R111). -/
def execSetBaud (v : Word) (s : State) : Result :=
  if setCheck s.par.roundTie s.cfg.sr.toNat v.toNat then
    .next (complete false false 0 { s with cfg := { s.cfg with baud := v }.recompute s.par.roundTie })
  else .next (raise .configFault v.toNat s)

/-- `SET.FMARK v` (40_config.md R112): every value is accepted (R117), and samples-per-bit is recomputed. -/
def execSetFmark (v : Word) (s : State) : Result :=
  .next (complete false false 0 { s with cfg := { s.cfg with fmark := v }.recompute s.par.roundTie })

/-- `SET.FSPACE v` (40_config.md R113): every value is accepted (R117), `CFG.SPB` keeps its value. -/
def execSetFspace (v : Word) (s : State) : Result :=
  .next (complete false false 0 { s with cfg := { s.cfg with fspace := v } })

/-- `CFG.RESET` (40_config.md R114): the default configuration, and nothing but the configuration. -/
def execCfgReset (s : State) : Result :=
  .next (complete false false 0 { s with cfg := ConfigRegs.default })

/-- `CFG.GET sel` (40_config.md R115). A selector above 4 is an illegal descriptor, whose `W0` is 0x06
(30_encoding.md R90). -/
def execCfgGet (sel : Word) (s : State) : Result :=
  match s.cfg.select sel.toNat with
  | some v => .next (complete false false v s)
  | none => .next (raise .illegalCommand 0x06 s)

end Sys2Proof.Machine
end

