-- ==== Sys2Proof/Machine/Numerics.lean ====
section
/-! DEFINITION. The numerics: the sine of a phase, computed in integers, and the instances of `NUM`
(00_scope.md R12 to R15). -/

namespace Sys2Proof.Machine

/-- Phases and trigonometric values are computed in units of `2^-128` (assumption 3). -/
def trigUnit : Nat := 2 ^ 128

/-- π in units of `2^-128`, to the nearest. -/
def piScaled : Nat := 1069028584064966747859680373161870783301

/-- The angle `(π/2) · (r/q)` in units of `2^-128`. -/
def quarterAngle (r q : Nat) : Nat := piScaled * r / (2 * q)

/-- `1 - (x/c(j)) · (1 - (x/c(j+1)) · ( … ))` to depth `k` for `x = x2 / trigUnit²`, as a numerator and a
denominator: the alternating series of sine and of cosine, innermost term first. -/
def altSeries (x2 : Nat) (c : Nat → Nat) : Nat → Nat → Nat × Nat
  | 0, _ => (1, 1)
  | k + 1, j =>
    let inner := altSeries x2 c k (j + 1)
    let den := inner.2 * (trigUnit * trigUnit * c j)
    (den - x2 * inner.1, den)

/-- How many terms after the first the series keeps; the rest is below `2^-128` for angles up to `π/4`. -/
def trigDepth : Nat := 16

/-- The sine of the angle `t · 2^-128`, at most `π/4`, as a fraction. -/
def sinSeries (t : Nat) : Nat × Nat :=
  let v := altSeries (t * t) (fun j => 2 * j * (2 * j + 1)) trigDepth 1
  (t * v.1, trigUnit * v.2)

/-- The cosine of the angle `t · 2^-128`, at most `π/4`, as a fraction. -/
def cosSeries (t : Nat) : Nat × Nat := altSeries (t * t) (fun j => (2 * j - 1) * (2 * j)) trigDepth 1

/-- `sin((π/2) · (r/q))` for `0 ≤ r ≤ q` as a fraction. The sine of a twelfth of a turn is exactly one half, the one
value strictly between 0 and 1 where a rounding can meet a tie. -/
def sinQuarter (r q : Nat) : Nat × Nat :=
  if 3 * r = q then (1, 2)
  else if 2 * r ≤ q then sinSeries (quarterAngle r q)
  else cosSeries (quarterAngle (q - r) q)

/-- The sine of the phase `p / q` of a turn, `0 ≤ p < q`: whether it is negative, and its magnitude as a fraction. -/
def sinTurn (p q : Nat) : Bool × (Nat × Nat) :=
  let r := 4 * p % q
  match 4 * p / q with
  | 0 => (false, sinQuarter r q)
  | 1 => (false, sinQuarter (q - r) q)
  | 2 => (true, sinQuarter r q)
  | _ => (true, sinQuarter (q - r) q)

/-- `rha(scale · sin(2π · p/q))`: to the nearest integer, ties away from zero (00_scope.md R14). -/
def sinCode (scale p q : Nat) : Int :=
  let v := sinTurn p q
  let m : Int := ((2 * scale * v.2.1 + v.2.2) / (2 * v.2.2) : Nat)
  if v.1 then -m else m

/-- `rha(scale · cos(2π · p/q))`: the sine a quarter turn on. -/
def cosCode (scale p q : Nat) : Int := sinCode scale ((4 * p + q) % (4 * q)) (4 * q)

/-- The amplitude of a 16-bit code (00_scope.md R14). -/
def ofCode (c : Int) : Rat := (c : Rat) / 32768

/-- `clamp(x, lo, hi)`. -/
def clampInt (lo hi x : Int) : Int := if x < lo then lo else if hi < x then hi else x

/-- `rha(x) = sign(x) · floor(|x| + 1/2)` (00_scope.md R14). -/
def roundHalfAway (x : Rat) : Int := if x < 0 then -(-x + 1 / 2).floor else (x + 1 / 2).floor

/-- `trunc(x)`: the fraction dropped toward zero (00_scope.md R13). -/
def truncToZero (x : Rat) : Int := if x < 0 then -(-x).floor else x.floor

/-- The hardware instance `Q15` (00_scope.md R14). -/
def numQ15 : Num where
  amp := Amp.isRat
  add := ratAdd
  mul := ratMul
  lt := ratLt
  sin p q := .rat (ofCode (sinCode 32767 p q))
  cos p q := .rat (ofCode (cosCode 32767 p q))
  tone p q := .rat (ofCode (sinCode 26214 p q))
  norm16 c := .rat (ofCode c)
  norm32 c := .rat (ofCode (c / 65536))
  normF x := .rat (ofCode (clampInt (-32768) 32767 (roundHalfAway (32768 * x.toRat))))
  quant16 a := clampInt (-32768) 32767 (32768 * a.toRat).floor

/-- The unit of the codes from which the values of `numRef` are computed. -/
def refUnit : Nat := 2 ^ 64

/-- The point of the unit circle on the line from `(-1, 0)`, or from `(1, 0)` where `c` is negative, through `(c, s)`:
its first and its second coordinate. Both are rationals, and their squares add to 1. -/
def onCircle (c s : Rat) : Rat × Rat :=
  if c < 0 then
    let d := (1 - c) ^ 2 + s ^ 2
    ((s ^ 2 - (1 - c) ^ 2) / d, 2 * s * (1 - c) / d)
  else
    let d := (1 + c) ^ 2 + s ^ 2
    (((1 + c) ^ 2 - s ^ 2) / d, 2 * s * (1 + c) / d)

/-- Cosine and sine of the phase `p / q` for `numRef`: a point of the unit circle. -/
def refPoint (p q : Nat) : Rat × Rat :=
  onCircle ((cosCode refUnit p q : Rat) / refUnit) ((sinCode refUnit p q : Rat) / refUnit)

/-- `REF` with its sine and cosine replaced by a rational point of the unit circle within `2^-60`: the computable
approximation that 00_scope.md R13 allows, every other function as R13 gives it (assumption 3). The squares of sine and
cosine add to 1 as those of the real functions do, so that a block with one nonzero sample is an exact tie
(70_reset_and_hazards.md R278). -/
def numRef : Num where
  amp := fun _ => true
  add := ratAdd
  mul := ratMul
  lt := ratLt
  sin p q := .rat (refPoint p q).2
  cos p q := .rat (refPoint p q).1
  tone p q := .rat (toneAmplitude * (refPoint p q).2)
  norm16 c := .rat ((c : Rat) / 32768)
  norm32 c := .rat ((c : Rat) / 2147483648)
  normF x := x
  quant16 a := clampInt (-32767) 32767 (truncToZero (32767 * a.toRat))

/-- The instance of `NUM` a machine has (00_scope.md R7). -/
def numOf : Numerics → Num
  | .q15 => numQ15
  | .ref => numRef
  | .other k => (@Config.otherNum ⟨⟨numSilent, numSilent_lawful⟩⟩ k).1

/-- One step of the NCO with frequency word `f` at sample rate `rate` (42_synth.md R161). -/
def ncoStep (f rate p : Nat) : Nat := (p + f) % rate

end Sys2Proof.Machine
end

