-- ==== Sys2Proof/Machine/Detect.lean ====
section
/-! DEFINITION. The Tone Detector (43_detect.md): the correlator and `SCORE`. -/

namespace Sys2Proof.Machine

/-- The two correlation sums over a segment, from phase `p` and the sums so far (43_detect.md R181). -/
def correlate (num : Num) (f rate : Nat) : List Amp → Nat → Amp → Amp → Amp × Amp
  | [], _, accI, accQ => (accI, accQ)
  | x :: seg, p, accI, accQ =>
    correlate num f rate seg (ncoStep f rate p) (num.add accI (num.mul x (num.sin p rate)))
      (num.add accQ (num.mul x (num.cos p rate)))

/-- `POWER(seg, f, sr)`: the sum of the squares of the two sums, from phase 0 (43_detect.md R181). -/
def power (num : Num) (seg : List Amp) (f rate : Nat) : Amp :=
  let acc := correlate num f rate seg 0 (.rat 0) (.rat 0)
  num.add (num.mul acc.1 acc.1) (num.mul acc.2 acc.2)

/-- `SCORE OFF, LEN, FREQ, RATE` (43_detect.md R182). -/
def execScore (off len freq rate : Word) (s : State) : Result :=
  if rate = 0 then .next (raise .configFault 0 s)
  else if s.wav.length < off.toNat + len.toNat then .next (raise .rangeFault off.toNat s)
  else
    let seg := slice s.wav off.toNat len.toNat
    .next (complete false false 0 { s with power := power (numOf s.par.numerics) seg freq.toNat rate.toNat })

end Sys2Proof.Machine
end

