-- ==== Sys2Proof/Machine/Demod.lean ====
section
/-! DEFINITION. The Signal Demodulator (44_demod.md): alignment, block walk, bit decision and `DEMODULATE`. -/

namespace Sys2Proof.Machine

/-- `TH_START`, the start threshold (00_scope.md R7). -/
def startThreshold : Rat := 1 / 100

/-- `|x| > 1/100`: a sample above the threshold (44_demod.md R196). -/
def isLoud (num : Num) (x : Amp) : Bool := num.lt (.rat startThreshold) x || num.lt x (.rat (-startThreshold))

/-- The index of the first sample above the threshold, counting from `n` (44_demod.md R196). -/
def firstLoudFrom (num : Num) (n : Nat) : List Amp → Option Nat
  | [] => none
  | x :: w => if isLoud num x then some n else firstLoudFrom num (n + 1) w

/-- `i0`: the index of the first sample above the threshold (44_demod.md R196). -/
def firstLoud (num : Num) (w : List Amp) : Option Nat := firstLoudFrom num 0 w

/-- The effective start: a quarter bit period before the first loud sample, not before 0, and 0 where there is none
(44_demod.md R196). The difference is cut off at 0. -/
def startIndex (num : Num) (spb : Nat) (w : List Amp) : Nat :=
  match firstLoud num w with
  | none => 0
  | some i0 => i0 - spb / 4

/-- `DECIDE(block)`: 1 exactly when the mark power is strictly greater (44_demod.md R198). -/
def decideBit (num : Num) (fspace fmark rate : Nat) (block : List Amp) : Bool :=
  let ps := power num block fspace rate
  let pm := power num block fmark rate
  num.lt ps pm

/-- The block walk over the samples from the start on: `n` blocks of `spb` samples (44_demod.md R197). -/
def blockWalk (decideBlock : List Amp → Bool) (spb : Nat) : Nat → List Amp → List Bool
  | 0, _ => []
  | n + 1, w => decideBlock (w.take spb) :: blockWalk decideBlock spb n (w.drop spb)

/-- The number of whole blocks from the start to the end of the waveform (44_demod.md R197). -/
def blockCount (num : Num) (spb : Nat) (w : List Amp) : Nat := (w.length - startIndex num spb w) / spb

/-- The bits of a waveform with rate tag `rate`, or the fault and its information word, in the order of `DEMODULATE`
(44_demod.md R195 to R199). Samples-per-bit is recomputed from the tag (R195). -/
def demodBits (par : Params) (c : ConfigRegs) (rate : Word) (w : List Amp) :
    Except (CmdFault × Nat) (List Bool) :=
  let num := numOf par.numerics
  let spb := samplesPerBit par.roundTie rate.toNat c.baud.toNat
  if rate = 0 ∨ spb = 0 then .error (.configFault, rate.toNat)
  else if fits par.bitCap (blockCount num spb w) then
    .ok (blockWalk (decideBit num c.fspace.toNat c.fmark.toNat rate.toNat) spb (blockCount num spb w)
      (w.drop (startIndex num spb w)))
  else .error (.capacityFault, blockCount num spb w)

/-- `DEMODULATE` (44_demod.md R199). -/
def execDemodulate (s : State) : Result :=
  match demodBits s.par s.cfg s.wavRate s.wav with
  | .error (f, info) => .next (raise f info s)
  | .ok bits => .next (complete false false 0 (s.writeBit bits))

end Sys2Proof.Machine
end

