-- ==== Sys2Proof/Machine/Frame.lean ====
section
/-! DEFINITION. The Frame Codec (41_frame.md): UTF-8, the frame and its bits, the marker search, `SERIALIZE` and
`DESERIALIZE`. -/

namespace Sys2Proof.Machine

/-- The byte with this value. -/
def byteOf (n : Nat) : Byte := BitVec.ofNat 8 n

/-- The UTF-8 bytes of one code point, or none for a surrogate and above 0x10FFFF (41_frame.md R130). The fields
`c[10:6]` and so on are written as quotients and remainders. -/
def utf8EncPoint (c : CodePoint) : Option (List Byte) :=
  let n := c.toNat
  if n ≤ 0x7F then some [byteOf n]
  else if n ≤ 0x7FF then some [byteOf (0xC0 + n / 64), byteOf (0x80 + n % 64)]
  else if 0xD800 ≤ n ∧ n ≤ 0xDFFF then none
  else if n ≤ 0xFFFF then
    some [byteOf (0xE0 + n / 4096), byteOf (0x80 + n / 64 % 64), byteOf (0x80 + n % 64)]
  else if n ≤ 0x10FFFF then
    some [byteOf (0xF0 + n / 262144), byteOf (0x80 + n / 4096 % 64), byteOf (0x80 + n / 64 % 64),
      byteOf (0x80 + n % 64)]
  else none

/-- `UTF8ENC` of the elements from index `i` on; it fails with the index of the first element it cannot encode
(41_frame.md R130). -/
def utf8EncFrom (i : Nat) : List CodePoint → Except Nat (List Byte)
  | [] => .ok []
  | c :: t =>
    match utf8EncPoint c with
    | none => .error i
    | some b =>
      match utf8EncFrom (i + 1) t with
      | .error j => .error j
      | .ok bs => .ok (b ++ bs)

/-- `UTF8ENC(t)` (41_frame.md R130). -/
def utf8Enc (t : List CodePoint) : Except Nat (List Byte) := utf8EncFrom 0 t

/-- The start marker (30_encoding.md R81). -/
def marker : List Byte := [0xAA, 0x55, 0xAA, 0x55]

/-- `FRAME(b)`: marker, little-endian length, payload (41_frame.md R131, 20_memory.md R52). -/
def frame (b : List Byte) : List Byte :=
  marker ++ [byteOf (b.length % 256), byteOf (b.length / 256)] ++ b

/-- The bits of a byte, most significant first (20_memory.md R53). -/
def byteBits (b : Byte) : List Bool :=
  [b.getLsbD 7, b.getLsbD 6, b.getLsbD 5, b.getLsbD 4, b.getLsbD 3, b.getLsbD 2, b.getLsbD 1, b.getLsbD 0]

/-- `BITS_OF(f)` (41_frame.md R132). -/
def bitsOf (f : List Byte) : List Bool := f.flatMap byteBits

/-- The largest payload a frame can carry (00_scope.md R7 `LEN_MAX`). -/
def lenMax : Nat := 65535

/-- The frame bits of a text, or the fault and its information word, in the order of precedence of `SERIALIZE`
(41_frame.md R133). -/
def frameBits (bitCap : Option Nat) (t : List CodePoint) : Except (CmdFault × Nat) (List Bool) :=
  match utf8Enc t with
  | .error i => .error (.encodingError, i)
  | .ok b =>
    if lenMax < b.length then .error (.lengthFault, b.length)
    else if fits bitCap (48 + 8 * b.length) then .ok (bitsOf (frame b))
    else .error (.capacityFault, 48 + 8 * b.length)

/-- `SERIALIZE` (41_frame.md R133). -/
def execSerialize (s : State) : Result :=
  match frameBits s.par.bitCap s.txt with
  | .error (f, info) => .next (raise f info s)
  | .ok bits => .next (complete false false 0 (s.writeBit bits))

/-- `PACK(s)`: eight bits to a byte, the first the most significant, loose bits at the end dropped
(41_frame.md R134, 20_memory.md R55). -/
def pack : List Bool → List Byte
  | b7 :: b6 :: b5 :: b4 :: b3 :: b2 :: b1 :: b0 :: rest =>
    byteOf (128 * b7.toNat + 64 * b6.toNat + 32 * b5.toNat + 16 * b4.toNat + 8 * b3.toNat + 4 * b2.toNat
      + 2 * b1.toNat + b0.toNat) :: pack rest
  | _ => []

/-- The marker scan from byte index `k` on (41_frame.md R135). -/
def findMarkerFrom (k : Nat) : List Byte → Option Nat
  | [] => none
  | b :: rest => if marker.isPrefixOf (b :: rest) then some k else findMarkerFrom (k + 1) rest

/-- `FINDMARKER(y)`: the least index at which the marker stands (41_frame.md R135). -/
def findMarker (y : List Byte) : Option Nat := findMarkerFrom 0 y

/-- A byte in the range `80 .. BF` (41_frame.md R136). -/
def isCont (b : Byte) : Bool := decide (0x80 ≤ b.toNat ∧ b.toNat ≤ 0xBF)

/-- The length of a well-formed sequence with this first byte, 0 where none begins so (41_frame.md R136). -/
def leadLength (b0 : Byte) : Nat :=
  let n := b0.toNat
  if n ≤ 0x7F then 1
  else if 0xC2 ≤ n ∧ n ≤ 0xDF then 2
  else if 0xE0 ≤ n ∧ n ≤ 0xEF then 3
  else if 0xF0 ≤ n ∧ n ≤ 0xF4 then 4
  else 0

/-- The second byte is one the first byte allows (41_frame.md R136). -/
def secondOk (b0 b1 : Byte) : Bool :=
  let lo := if b0 = 0xE0 then 0xA0 else if b0 = 0xF0 then 0x90 else 0x80
  let hi := if b0 = 0xED then 0x9F else if b0 = 0xF4 then 0x8F else 0xBF
  decide (lo ≤ b1.toNat ∧ b1.toNat ≤ hi)

/-- The well-formed UTF-8 sequence that a byte sequence starts with: its length and its code point
(41_frame.md R136). The masks `& 0x3F` and so on are written as remainders. -/
def utf8At (y : List Byte) : Option (Nat × CodePoint) :=
  match y with
  | [] => none
  | b0 :: rest =>
    match leadLength b0, rest with
    | 1, _ => some (1, BitVec.ofNat 21 b0.toNat)
    | 2, b1 :: _ =>
      if isCont b1 then some (2, BitVec.ofNat 21 (b0.toNat % 32 * 64 + b1.toNat % 64)) else none
    | 3, b1 :: b2 :: _ =>
      if secondOk b0 b1 && isCont b2 then
        some (3, BitVec.ofNat 21 (b0.toNat % 16 * 4096 + b1.toNat % 64 * 64 + b2.toNat % 64))
      else none
    | 4, b1 :: b2 :: b3 :: _ =>
      if secondOk b0 b1 && isCont b2 && isCont b3 then
        some (4, BitVec.ofNat 21
          (b0.toNat % 8 * 262144 + b1.toNat % 64 * 4096 + b2.toNat % 64 * 64 + b3.toNat % 64))
      else none
    | _, _ => none

/-- The replacement character U+FFFD (41_frame.md R137). -/
def replacement : CodePoint := 0xFFFD

/-- How many bytes the longest beginning of a well-formed sequence has that an ill-formed byte sequence starts with,
at least 1: the unit of the convention `maximalPrefix` (assumption 7). -/
def illFormedPrefix (y : List Byte) : Nat :=
  match y with
  | b0 :: b1 :: b2 :: _ =>
    if leadLength b0 = 4 ∧ secondOk b0 b1 ∧ isCont b2 then 3
    else if 3 ≤ leadLength b0 ∧ secondOk b0 b1 then 2
    else 1
  | [b0, b1] => if 3 ≤ leadLength b0 ∧ secondOk b0 b1 then 2 else 1
  | _ => 1

/-- What the decoder emits and how many bytes it passes where no well-formed sequence starts, per `UTF8_ERR`
(41_frame.md R137; assumption 7 for the two conventions that are not the default). -/
def onIllFormed (policy : Utf8Err) (y : List Byte) : List CodePoint × Nat :=
  match policy with
  | .perByte => ([replacement], 1)
  | .maximalPrefix => ([replacement], illFormedPrefix y)
  | .drop => ([], 1)

/-- The loop of `UTF8DEC`, with a bound on the number of its turns (41_frame.md R137). -/
def utf8DecLoop (policy : Utf8Err) : Nat → List Byte → List CodePoint
  | 0, _ => []
  | fuel + 1, y =>
    if y.isEmpty then []
    else
      match utf8At y with
      | some (n, c) => c :: utf8DecLoop policy fuel (y.drop n)
      | none => (onIllFormed policy y).1 ++ utf8DecLoop policy fuel (y.drop (onIllFormed policy y).2)

/-- `UTF8DEC(y)` (41_frame.md R137); a turn of the loop passes at least one byte, so the length bounds the turns. -/
def utf8Dec (policy : Utf8Err) (y : List Byte) : List CodePoint := utf8DecLoop policy y.length y

/-- What `DESERIALIZE` parses: the text and the two soft outcomes (41_frame.md R138). -/
structure Parsed where
  text : List CodePoint
  insuf : Bool
  trunc : Bool
  deriving DecidableEq, Repr

/-- The three empty exits of the parse (60_exceptions.md R247). -/
def Parsed.insufficient : Parsed := { text := [], insuf := true, trunc := false }

/-- The length field of a frame whose marker is at byte `k` (30_encoding.md R82). -/
def lengthField (y : List Byte) (k : Nat) : Nat := (y.getD (k + 4) 0).toNat + 256 * (y.getD (k + 5) 0).toNat

/-- The fewest bits that hold a marker and a length (00_scope.md R7 `MIN_BITS`). -/
def minBits : Nat := 48

/-- The parse of `DESERIALIZE` (41_frame.md R138). -/
def parseFrame (policy : Utf8Err) (bits : List Bool) : Parsed :=
  if bits.length < minBits then Parsed.insufficient
  else
    let y := pack bits
    match findMarker y with
    | none => Parsed.insufficient
    | some k =>
      if y.length < k + 6 then Parsed.insufficient
      else
        let l := lengthField y k
        let avail := y.length - (k + 6)
        { text := utf8Dec policy (slice y (k + 6) (min l avail))
          insuf := false
          trunc := decide (avail < l) }

/-- `DESERIALIZE` (41_frame.md R138). -/
def execDeserialize (s : State) : Result :=
  let p := parseFrame s.par.utf8Err s.bit
  if fits s.par.txtCap p.text.length then .next (complete p.insuf p.trunc 0 (s.writeTxt p.text))
  else .next (raise .capacityFault p.text.length s)

end Sys2Proof.Machine
end

