-- ==== Sys2Proof/Machine/Synth.lean ====
section
/-! DEFINITION. The Waveform Synthesizer (42_synth.md): tone blocks, the waveform and `SYNTHESIZE`. -/

namespace Sys2Proof.Machine

/-- The output of the NCO from phase `p` on for `n` samples (42_synth.md R161). -/
def ncoTone (num : Num) (f rate : Nat) : Nat → Nat → List Amp
  | 0, _ => []
  | n + 1, p => num.tone p rate :: ncoTone num f rate n (ncoStep f rate p)

/-- The frequency of a bit: mark for 1, space for 0 (42_synth.md R162). -/
def ConfigRegs.toneFreq (c : ConfigRegs) (b : Bool) : Nat := if b then c.fmark.toNat else c.fspace.toNat

/-- `TONEBLOCK(b, cfg)`: `CFG.SPB` samples, the phase restarted at 0 (42_synth.md R162, R164). -/
def toneBlock (num : Num) (c : ConfigRegs) (b : Bool) : List Amp :=
  ncoTone num (c.toneFreq b) c.sr.toNat c.spb.toNat 0

/-- A guard band: exact zeros (42_synth.md R160). -/
def guardBand (c : ConfigRegs) : List Amp := List.replicate (guardLen c.sr.toNat) (.rat 0)

/-- The number of samples of the waveform of `n` bits (42_synth.md R163). -/
def waveLen (c : ConfigRegs) (n : Nat) : Nat := 2 * guardLen c.sr.toNat + n * c.spb.toNat

/-- The waveform of a bit sequence: guard band, one tone block per bit, guard band (42_synth.md R163). -/
def waveform (num : Num) (c : ConfigRegs) (bits : List Bool) : List Amp :=
  guardBand c ++ bits.flatMap (toneBlock num c) ++ guardBand c

/-- `SYNTHESIZE` (42_synth.md R163). -/
def execSynthesize (s : State) : Result :=
  if fits s.par.wavCap (waveLen s.cfg s.bit.length) then
    .next (complete false false 0 (s.writeWav (waveform (numOf s.par.numerics) s.cfg s.bit) s.cfg.sr))
  else .next (raise .capacityFault (waveLen s.cfg s.bit.length) s)

end Sys2Proof.Machine
end

