-- ==== Sys2Proof/Machine/Facade.lean ====
section
/-! DEFINITION. The Codec Facade (45_facade.md): `ENCODE` and `DECODE`. -/

namespace Sys2Proof.Machine

/-- `ENCODE` (45_facade.md R215): every check precedes every write. -/
def execEncode (s : State) : Result :=
  match frameBits s.par.bitCap s.txt with
  | .error (f, info) => .next (raise f info s)
  | .ok bits =>
    if fits s.par.wavCap (waveLen s.cfg bits.length) then
      .next (complete false false 0
        ((s.writeBit bits).writeWav (waveform (numOf s.par.numerics) s.cfg bits) s.cfg.sr))
    else .next (raise .capacityFault (waveLen s.cfg bits.length) s)

/-- `DECODE` (45_facade.md R216): every check precedes every write. -/
def execDecode (s : State) : Result :=
  match demodBits s.par s.cfg s.wavRate s.wav with
  | .error (f, info) => .next (raise f info s)
  | .ok bits =>
    let p := parseFrame s.par.utf8Err bits
    if fits s.par.txtCap p.text.length then
      .next (complete p.insuf p.trunc 0 ((s.writeBit bits).writeTxt p.text))
    else .next (raise .capacityFault p.text.length s)

end Sys2Proof.Machine
end

