-- ==== Sys2Proof/Machine/Pcm.lean ====
section
/-! DEFINITION. The audio boundary (46_pcm.md): `PCM.NORM` and `PCM.QUANT`. -/

namespace Sys2Proof.Machine

/-- The waveform of the elements of `PCM`, by their type (46_pcm.md R230). -/
def normalise (num : Num) : PcmBuffer → List Amp
  | .i16 cs => cs.map fun c => num.norm16 c.toInt
  | .i32 cs => cs.map fun c => num.norm32 c.toInt
  | .f xs => xs.map num.normF

/-- `PCM.NORM` (46_pcm.md R230). The information word of the reserved format is `W0`, which is 0x60. -/
def execPcmNorm (s : State) : Result :=
  if s.pcmFmt = 3 then .next (raise .illegalCommand 0x60 s)
  else if fits s.par.wavCap s.pcm.length then
    .next (complete false false 0 (s.writeWav (normalise (numOf s.par.numerics) s.readPcm) s.pcmRate))
  else .next (raise .capacityFault s.pcm.length s)

/-- `PCM.QUANT` (46_pcm.md R231): the output is always `I16`. -/
def execPcmQuant (s : State) : Result :=
  if fits s.par.pcmCap s.wav.length then
    .next (complete false false 0
      (s.writePcm (.i16 (s.wav.map fun a => BitVec.ofInt 16 ((numOf s.par.numerics).quant16 a))) 0 s.wavRate))
  else .next (raise .capacityFault s.wav.length s)

end Sys2Proof.Machine
end

