-- ==== Sys2Proof/Machine/Dispatch.lean ====
section
/-! DEFINITION. The meaning of each command, one arm per constructor. -/

namespace Sys2Proof.Machine

/-- One command, from start to completion, as one transition (10_state.md R20). -/
def exec (i : Instr) (s : State) : Host.Outcome State Fault Refusal :=
  match i with
  -- 40_config.md
  | .setSr v => Sys2Proof.Machine.execSetSr v s
  | .setBaud v => Sys2Proof.Machine.execSetBaud v s
  | .setFmark v => Sys2Proof.Machine.execSetFmark v s
  | .setFspace v => Sys2Proof.Machine.execSetFspace v s
  | .cfgReset => Sys2Proof.Machine.execCfgReset s
  | .cfgGet sel => Sys2Proof.Machine.execCfgGet sel s
  -- 41_frame.md
  | .serialize => Sys2Proof.Machine.execSerialize s
  | .deserialize => Sys2Proof.Machine.execDeserialize s
  -- 42_synth.md
  | .synthesize => Sys2Proof.Machine.execSynthesize s
  -- 43_detect.md
  | .score off len freq rate => Sys2Proof.Machine.execScore off len freq rate s
  -- 44_demod.md
  | .demodulate => Sys2Proof.Machine.execDemodulate s
  -- 45_facade.md
  | .encode => Sys2Proof.Machine.execEncode s
  | .decode => Sys2Proof.Machine.execDecode s
  -- 46_pcm.md
  | .pcmNorm => Sys2Proof.Machine.execPcmNorm s
  | .pcmQuant => Sys2Proof.Machine.execPcmQuant s

end Sys2Proof.Machine
end

