-- ==== Sys2Proof/Machine/HostPort.lean ====
section
/-! DEFINITION. What the outside world can do: the command port, the host's reads and writes, hardware reset. -/

namespace Sys2Proof.Machine

/-- A descriptor at the `CMD` port: its command is executed, and an illegal one raises `IllegalCommand(W0)`
(30_encoding.md R87, R90; 60_exceptions.md R246). -/
def runDescriptor (d : Descriptor) (s : State) : Result :=
  match decode d with
  | .ok i => exec i s
  | .error _ => .next (raise .illegalCommand d.w0.toNat s)

/-- The host's write of a register (20_memory.md R60, 10_state.md R33): only the three tags are writable. -/
def hostWriteReg (n : Nat) (v : Word) (s : State) : Result :=
  match n with
  | 8 => .next { s with wavRate := v }
  | 9 => .next { s with pcmRate := v }
  | 10 => if v.toNat < 4 then .next { s with pcmFmt := v.setWidth 2 } else .refused (.valueTooWide n)
  | _ => if n < 16 then .refused (.registerAccessDenied n) else .fault (.noSuchRegister n)

/-- The host's read of a register (20_memory.md R60): it has no side effect (R59), so the state keeps no trace of it. -/
def hostReadReg (n : Nat) (s : State) : Result :=
  match s.readRegister n with
  | some _ => .next s
  | none => if n < 16 then .refused (.registerAccessDenied n) else .fault (.noSuchRegister n)

/-- The host replaces a buffer's content, up to its capacity (10_state.md R33). -/
def hostLoad (cap : Option Nat) (n : Nat) (loaded : State) : Result :=
  if fits cap n then .next loaded else .refused .loadOverCapacity

/-- Hardware reset: every register and buffer at its reset value (70_reset_and_hazards.md R270). The parameters are
no state of the block, and what the outside world does next is not undone by it. -/
def hardwareReset (s : State) : State := { State.reset with par := s.par, inputs := s.inputs }

/-- One move of the host (10_state.md R33) or a hardware reset. An element of `WAV` is an amplitude of the machine's
numerics (R29). `PCM` may be loaded with elements of any of its three types, whatever `PCM_FMT` says at that moment,
since the host brings elements and tag in two moves and the spec does not order them (assumption 22). -/
def hostMove (m : Input) (s : State) : Result :=
  match m with
  | .command d => runDescriptor d s
  | .loadTxt t => hostLoad s.par.txtCap t.length (s.writeTxt t)
  | .loadBit b => hostLoad s.par.bitCap b.length (s.writeBit b)
  | .loadWav w =>
    if w.all (numOf s.par.numerics).amp then hostLoad s.par.wavCap w.length (s.writeWav w s.wavRate)
    else .refused .noSuchAmplitude
  | .loadPcm p => hostLoad s.par.pcmCap p.length (s.writePcm p s.pcmFmt s.pcmRate)
  | .writeReg n v => hostWriteReg n v s
  | .readReg n => hostReadReg n s
  | .readBuffers => .next s
  | .hardwareReset => .next (hardwareReset s)

end Sys2Proof.Machine
end

