-- ==== Sys2Proof/Machine/Step.lean ====
section
/-! DEFINITION. One step: the next move of the outside world is carried out. -/

namespace Sys2Proof.Machine

/-- One step. With no move outstanding the block is idle and does nothing (20_memory.md R63). A hardware reset may
arrive at any time (70_reset_and_hazards.md R270); the host has a move only while `STATUS.BUSY = 0`
(10_state.md R20). -/
def step (s : State) : Host.Outcome State Fault Refusal :=
  match s.inputs with
  | [] => .next s
  | .hardwareReset :: rest => hostMove .hardwareReset { s with inputs := rest }
  | m :: rest =>
    if s.status.busy then .refused .hostMoveWhileBusy else hostMove m { s with inputs := rest }

/-- `s` with the instruction of this table word presented to the `CMD` port as the host's next move. The block does
not fetch (10_state.md R24): a program is the sequence of commands the host issues (30_encoding.md R94;
assumption 6). The host has a move only while `STATUS.BUSY = 0`, so that bit is cleared. -/
def State.withFetchWord (s : State) (nbits w : Nat) : State :=
  { s with
    status := { s.status with busy := false }
    inputs := .command (descriptorOfBits nbits w) :: s.inputs }

end Sys2Proof.Machine
end

