-- ==== Sys2Proof/Safety.lean ====
section
/-! DEFINITION. What a good state is (the invariant every step keeps), the frame of a command, the legal descriptors. -/

namespace Sys2Proof.Machine

/-- The invariant of the configuration (10_state.md R22): both rates are positive, `CFG.SPB` is the samples-per-bit of
the two, and it is at least 1. -/
structure ConfigRegs.Inv (tie : RoundTie) (c : ConfigRegs) : Prop where
  sr_pos : 1 ≤ c.sr.toNat
  baud_pos : 1 ≤ c.baud.toNat
  spb_eq : c.spb.toNat = samplesPerBit tie c.sr.toNat c.baud.toNat
  spb_pos : 1 ≤ c.spb.toNat

/-- What `STATUS` can be between commands: not busy, a listed fault code, at most one soft outcome and none beside a
fault (10_state.md R25, 60_exceptions.md R240, R247, R250). -/
structure Status.Inv (st : Status) : Prop where
  not_busy : st.busy = false
  listed : st.err.toNat ≤ 6
  one_flag : st.insuf = true → st.trunc = false
  fault_clears : st.err ≠ 0 → st.insuf = false ∧ st.trunc = false

/-- The invariant of the machine: the configuration and `STATUS` as above, `POWER` an amplitude of the machine's numerics
and never negative (10_state.md R27), every element of `WAV` such an amplitude, and every buffer within its capacity
(R29). -/
structure State.Inv (s : State) : Prop where
  cfg : s.cfg.Inv s.par.roundTie
  status : s.status.Inv
  power_nonneg : (numOf s.par.numerics).lt s.power (.rat 0) = false
  power_amp : (numOf s.par.numerics).amp s.power = true
  wav_amp : ∀ x ∈ s.wav, (numOf s.par.numerics).amp x = true
  txt_fits : fits s.par.txtCap s.txt.length = true
  bit_fits : fits s.par.bitCap s.bit.length = true
  wav_fits : fits s.par.wavCap s.wav.length = true
  pcm_fits : fits s.par.pcmCap s.pcm.length = true

/-- The commands that write the configuration registers (10_state.md R21). -/
def writesCfg : Instr → Bool
  | .setSr _ | .setBaud _ | .setFmark _ | .setFspace _ | .cfgReset => true
  | .cfgGet _ | .serialize | .deserialize | .synthesize | .score _ _ _ _ | .demodulate | .encode | .decode
  | .pcmNorm | .pcmQuant => false

/-- The commands that write `POWER` (10_state.md R27). -/
def writesPower : Instr → Bool
  | .score _ _ _ _ => true
  | .setSr _ | .setBaud _ | .setFmark _ | .setFspace _ | .cfgReset | .cfgGet _ | .serialize | .deserialize
  | .synthesize | .demodulate | .encode | .decode | .pcmNorm | .pcmQuant => false

/-- The commands that write `TXT` (10_state.md R29); they are the ones that report the soft outcomes (R25). -/
def writesTxt : Instr → Bool
  | .deserialize | .decode => true
  | .setSr _ | .setBaud _ | .setFmark _ | .setFspace _ | .cfgReset | .cfgGet _ | .serialize | .synthesize
  | .score _ _ _ _ | .demodulate | .encode | .pcmNorm | .pcmQuant => false

/-- The commands that write `BIT` (10_state.md R29). -/
def writesBit : Instr → Bool
  | .serialize | .demodulate | .encode | .decode => true
  | .setSr _ | .setBaud _ | .setFmark _ | .setFspace _ | .cfgReset | .cfgGet _ | .deserialize | .synthesize
  | .score _ _ _ _ | .pcmNorm | .pcmQuant => false

/-- The commands that write `WAV` and its tag `WAV_RATE` (10_state.md R28, R29). -/
def writesWav : Instr → Bool
  | .synthesize | .encode | .pcmNorm => true
  | .setSr _ | .setBaud _ | .setFmark _ | .setFspace _ | .cfgReset | .cfgGet _ | .serialize | .deserialize
  | .score _ _ _ _ | .demodulate | .decode | .pcmQuant => false

/-- The commands that write `PCM` and its tags `PCM_RATE`, `PCM_FMT` (10_state.md R28, R29). -/
def writesPcm : Instr → Bool
  | .pcmQuant => true
  | .setSr _ | .setBaud _ | .setFmark _ | .setFspace _ | .cfgReset | .cfgGet _ | .serialize | .deserialize
  | .synthesize | .score _ _ _ _ | .demodulate | .encode | .decode | .pcmNorm => false

/-- The frame of a command: what it leaves as it was (10_state.md R21, R27 to R29). -/
structure FrameOf (i : Instr) (s t : State) : Prop where
  par : t.par = s.par
  inputs : t.inputs = s.inputs
  cfg : writesCfg i = false → t.cfg = s.cfg
  power : writesPower i = false → t.power = s.power
  txt : writesTxt i = false → t.txt = s.txt
  bit : writesBit i = false → t.bit = s.bit
  wav : writesWav i = false → t.wav = s.wav ∧ t.wavRate = s.wavRate
  pcm : writesPcm i = false → t.pcm = s.pcm ∧ t.pcmRate = s.pcmRate ∧ t.pcmFmt = s.pcmFmt

/-- The operation codes of format `N` (30_encoding.md R89). -/
def opcodesN : List Nat := [0x05, 0x10, 0x11, 0x20, 0x40, 0x50, 0x51, 0x60, 0x61]

/-- The operation codes of format `V` (30_encoding.md R89). -/
def opcodesV : List Nat := [0x01, 0x02, 0x03, 0x04, 0x06]

/-- The operation codes of format `S` (30_encoding.md R89). -/
def opcodesS : List Nat := [0x30]

/-- None of the conditions that make a descriptor illegal holds (30_encoding.md R90). -/
structure LegalDescriptor (d : Descriptor) : Prop where
  opcode : (d.w0.extractLsb' 0 8).toNat ∈ opcodesN ++ opcodesV ++ opcodesS
  reserved : d.w0.extractLsb' 8 24 = 0
  unusedN : (d.w0.extractLsb' 0 8).toNat ∈ opcodesN → d.a0 = 0 ∧ d.a1 = 0 ∧ d.a2 = 0 ∧ d.a3 = 0
  unusedV : (d.w0.extractLsb' 0 8).toNat ∈ opcodesV → d.a1 = 0 ∧ d.a2 = 0 ∧ d.a3 = 0
  selector : (d.w0.extractLsb' 0 8).toNat = 0x06 → d.a0.toNat ≤ 4

/-- A sample the hardware instance stores: a 16-bit code over 32768 (00_scope.md R14). -/
def IsCode (x : Amp) : Prop := ∃ c : Int, -32768 ≤ c ∧ c ≤ 32767 ∧ x = .rat ((c : Rat) / 32768)

end Sys2Proof.Machine
end

