-- ==== Sys2Proof/Certificates/Slice0/Obligations.lean ====
section
/-! DEFINITION. The statements for the provers. -/

open Sys2Proof Sys2Proof.Machine

/-! ## Encoding -/

/-- Decoding and encoding agree in both directions: a descriptor decodes to a command exactly when it is the encoding
of that command and the command is well-formed (30_encoding.md R87 to R90). No bit of a descriptor is dropped. -/
def Obligations.DecodeAndEncodeAgree : Prop :=
  ∀ (d : Descriptor) (i : Instr), decode d = .ok i ↔ i.wf = true ∧ encode i = d

/-- Every descriptor either selects a row or raises `IllegalCommand` with `RES0 <- W0`, exactly as 30_encoding.md R90
lists the illegal ones; an illegal one changes nothing but `STATUS` and `RES0` (`inputs` is the model's own queue). -/
def Obligations.IllegalDescriptorsRaiseIllegalCommand : Prop :=
  ∀ (s : State) (d : Descriptor) (rest : List Input), s.inputs = .command d :: rest → s.status.busy = false →
    (LegalDescriptor d → ∃ i, decode d = .ok i ∧ step s = exec i { s with inputs := rest }) ∧
      (¬ LegalDescriptor d →
        step s = .next { s with inputs := rest, status := ⟨false, false, false, 6⟩, res0 := d.w0 })

/-- The descriptors written out in 30_encoding.md R92 and in the programs of 95_test_vectors.md section 9 decode to
the commands they stand for. -/
def Obligations.SpecifiedWordsDecode : Prop :=
  decode ⟨0x00000002, 0x00000258, 0, 0, 0⟩ = .ok (.setBaud 600) ∧
    decode ⟨0x00000001, 0x0000AC44, 0, 0, 0⟩ = .ok (.setSr 44100) ∧
    decode ⟨0x00000006, 0x00000004, 0, 0, 0⟩ = .ok (.cfgGet 4) ∧
    decode ⟨0x00000010, 0, 0, 0, 0⟩ = .ok .serialize ∧
    decode ⟨0x00000020, 0, 0, 0, 0⟩ = .ok .synthesize ∧
    decode ⟨0x00000030, 0x00000320, 0x0000001B, 0x000004F6, 0x00001F40⟩ = .ok (.score 800 27 1270 8000) ∧
    decode ⟨0x00000040, 0, 0, 0, 0⟩ = .ok .demodulate ∧
    decode ⟨0x00000051, 0, 0, 0, 0⟩ = .ok .decode ∧
    decode ⟨0x00000060, 0, 0, 0, 0⟩ = .ok .pcmNorm ∧
    (∀ i, decode ⟨0x00000010, 1, 0, 0, 0⟩ ≠ .ok i) ∧
    (∀ i, decode ⟨0x00000150, 0, 0, 0, 0⟩ ≠ .ok i) ∧
    ∀ i, decode ⟨0x00000006, 5, 0, 0, 0⟩ ≠ .ok i

/-! ## Steps, the host and reset -/

/-- A step with a legal descriptor at the port runs exactly the decoded command on the state without that descriptor,
and `withFetchWord` puts such a descriptor there. That commands reach the block through the queue `inputs` is the
model's (assumption 6); that they run in the order the host issues them is 30_encoding.md R94. -/
def Obligations.StepRunsTheDecodedCommand : Prop :=
  (∀ (s : State) (d : Descriptor) (rest : List Input) (i : Instr), s.inputs = .command d :: rest →
    s.status.busy = false → decode d = .ok i → step s = exec i { s with inputs := rest }) ∧
  ∀ (s : State) (nbits w : Nat) (i : Instr), decodeTableWord nbits w = some i →
    step (s.withFetchWord nbits w) = exec i { s with status := { s.status with busy := false } }

/-- What the host can do besides commands (10_state.md R33, 20_memory.md R59, R60): it writes one of the three tags
(`PCM_FMT` a two-bit value), replaces one buffer up to its capacity, or reads, and nothing else changes; writing any
other register, reading `CMD`, loading more than the capacity, or loading `WAV` with an element that is no amplitude of
the machine's numerics is not a move, and a number of 16 or above names no register. With no move outstanding the block
does nothing (20_memory.md R63). The names of the stops, and that `PCM` takes elements of any of its types whatever
`PCM_FMT` says (assumption 22), are the model's. -/
def Obligations.HostMovesChangeOnlyWhatTheyWrite : Prop :=
  ∀ (s : State) (m : Input) (rest : List Input), s.status.busy = false →
    (s.inputs = [] → step s = .next s) ∧
    (s.inputs = m :: rest →
      (∀ v, m = .writeReg 8 v → step s = .next { s with inputs := rest, wavRate := v }) ∧
      (∀ v, m = .writeReg 9 v → step s = .next { s with inputs := rest, pcmRate := v }) ∧
      (∀ v : BitVec 2, m = .writeReg 10 (v.setWidth 32) → step s = .next { s with inputs := rest, pcmFmt := v }) ∧
      (∀ v : Word, 4 ≤ v.toNat → m = .writeReg 10 v → step s = .refused (.valueTooWide 10)) ∧
      (∀ n v, n < 16 → n ≠ 8 → n ≠ 9 → n ≠ 10 → m = .writeReg n v → step s = .refused (.registerAccessDenied n)) ∧
      (∀ n v, 16 ≤ n → m = .writeReg n v → step s = .fault (.noSuchRegister n)) ∧
      (∀ n, n ≤ 14 → m = .readReg n → step s = .next { s with inputs := rest }) ∧
      (m = .readReg 15 → step s = .refused (.registerAccessDenied 15)) ∧
      (∀ n, 16 ≤ n → m = .readReg n → step s = .fault (.noSuchRegister n)) ∧
      (m = .readBuffers → step s = .next { s with inputs := rest }) ∧
      (∀ t, m = .loadTxt t → fits s.par.txtCap t.length = true → step s = .next { s with inputs := rest, txt := t }) ∧
      (∀ b, m = .loadBit b → fits s.par.bitCap b.length = true → step s = .next { s with inputs := rest, bit := b }) ∧
      (∀ w, m = .loadWav w → (∀ x ∈ w, (numOf s.par.numerics).amp x = true) → fits s.par.wavCap w.length = true →
        step s = .next { s with inputs := rest, wav := w }) ∧
      (∀ p, m = .loadPcm p → fits s.par.pcmCap p.length = true → step s = .next { s with inputs := rest, pcm := p }) ∧
      (∀ w x, m = .loadWav w → x ∈ w → (numOf s.par.numerics).amp x = false →
        step s = .refused .noSuchAmplitude) ∧
      (∀ t, m = .loadTxt t → fits s.par.txtCap t.length = false → step s = .refused .loadOverCapacity) ∧
      (∀ b, m = .loadBit b → fits s.par.bitCap b.length = false → step s = .refused .loadOverCapacity) ∧
      (∀ w, m = .loadWav w → (∀ x ∈ w, (numOf s.par.numerics).amp x = true) → fits s.par.wavCap w.length = false →
        step s = .refused .loadOverCapacity) ∧
      (∀ p, m = .loadPcm p → fits s.par.pcmCap p.length = false → step s = .refused .loadOverCapacity))

/-- The registers that the numbers 0 to 14 name (20_memory.md R60), and none from 15 on. -/
def Obligations.RegisterMapNamesTheRegisters : Prop :=
  ∀ s : State,
    [0, 1, 2, 3, 4, 5, 6, 7, 8, 9, 10, 11, 12, 13, 14].map s.readRegister =
        [.word s.cfg.sr, .word s.cfg.baud, .word s.cfg.fmark, .word s.cfg.fspace, .word s.cfg.spb,
          .word s.status.word, .word s.res0, .amp s.power, .word s.wavRate, .word s.pcmRate,
          .word (s.pcmFmt.setWidth 32), .len s.txt.length, .len s.bit.length, .len s.wav.length,
          .len s.pcm.length].map some ∧
      ∀ n, 15 ≤ n → s.readRegister n = none

/-- The bits of `STATUS` as the host reads it: `BUSY` 0, `INSUF` 1, `TRUNC` 2, `ERR` 7:4, every other bit 0
(10_state.md R25). -/
def Obligations.StatusWordHasTheFieldsInPlace : Prop :=
  ∀ st : Status,
    st.word.getLsbD 0 = st.busy ∧ st.word.getLsbD 1 = st.insuf ∧ st.word.getLsbD 2 = st.trunc ∧
      st.word.getLsbD 3 = false ∧ st.word.extractLsb' 4 4 = st.err ∧ st.word.extractLsb' 8 24 = 0

/-- Hardware reset, at any time, puts every register and buffer at the value of 10_state.md R32, and the state right
after reset has those values (70_reset_and_hazards.md R270). The parameters and the queue of inputs are the model's
(assumptions 1, 6). -/
def Obligations.HardwareResetRestoresEveryResetValue : Prop :=
  State.reset.cfg = ⟨8000, 300, 1270, 1070, 27⟩ ∧ State.reset.status = ⟨false, false, false, 0⟩ ∧
    State.reset.res0 = 0 ∧ State.reset.power = .rat 0 ∧ State.reset.wavRate = 8000 ∧ State.reset.pcmRate = 8000 ∧
    State.reset.pcmFmt = 0 ∧ State.reset.txt = [] ∧ State.reset.bit = [] ∧ State.reset.wav = [] ∧
    State.reset.pcm = .i16 [] ∧
    ∀ (s : State) (rest : List Input), s.inputs = .hardwareReset :: rest →
      step s = .next
        { par := s.par, cfg := ⟨8000, 300, 1270, 1070, 27⟩, status := ⟨false, false, false, 0⟩, res0 := 0,
          power := .rat 0,
          wavRate := 8000, pcmRate := 8000, pcmFmt := 0, txt := [], bit := [], wav := [], pcm := .i16 [],
          inputs := rest }

/-! ## Whole-machine rules -/

/-- Every step from a state that meets the invariant and answers a next state meets it again: `CFG.SPB` is the
samples-per-bit of the two positive rates and at least 1 (10_state.md R22), `STATUS` holds a listed fault or at most
one soft outcome (R25), `POWER` is an amplitude of the machine's numerics and not negative (R27), every element of `WAV`
is such an amplitude, and every buffer is within its capacity (R29). -/
def Obligations.StepKeepsTheInvariant : Prop :=
  ∀ s t : State, s.Inv → step s = .next t → t.Inv

/-- The state after reset meets the invariant, whatever the parameters of the machine. -/
def Obligations.ResetMeetsTheInvariant : Prop :=
  ∀ par : Params, State.Inv { State.reset with par := par }

/-- Every command, on every state, either completes, leaving `STATUS.ERR` 0 and not busy, or raises one listed fault,
which writes `STATUS` and `RES0` and nothing else (60_exceptions.md R251, R252). -/
def Obligations.EveryCommandCompletesOrRaisesOneListedFault : Prop :=
  ∀ (i : Instr) (s : State), ∃ t, exec i s = .next t ∧
    ((t.status.err = 0 ∧ t.status.busy = false) ∨
      ∃ (f : CmdFault) (info : Nat),
        t = { s with status := ⟨false, false, false, f.code⟩, res0 := BitVec.ofNat 32 info })

/-- Each fault code comes only from the commands that the table of 60_exceptions.md R240 lists for it. -/
def Obligations.EachFaultComesOnlyFromItsCommands : Prop :=
  ∀ (i : Instr) (s t : State), exec i s = .next t →
    t.status.err.toNat ≤ 6 ∧
    (t.status.err = 1 → i = .serialize ∨ i = .encode) ∧
    (t.status.err = 2 → i = .serialize ∨ i = .encode) ∧
    (t.status.err = 3 → (∃ v, i = .setSr v) ∨ (∃ v, i = .setBaud v) ∨ i = .demodulate ∨ i = .decode ∨
      ∃ off len freq, i = .score off len freq 0) ∧
    (t.status.err = 4 → ∃ off len freq rate, i = .score off len freq rate) ∧
    (t.status.err = 5 → i = .serialize ∨ i = .deserialize ∨ i = .synthesize ∨ i = .demodulate ∨ i = .encode ∨
      i = .decode ∨ i = .pcmNorm ∨ i = .pcmQuant) ∧
    (t.status.err = 6 → i = .pcmNorm ∨ ∃ sel, i = .cfgGet sel ∧ 4 < sel.toNat)

/-- The frame of every command (10_state.md R21, R27 to R29): the configuration changes only by the setters and
`CFG.RESET`, `POWER` only by `SCORE`, `TXT` only by `DESERIALIZE` and `DECODE`, `BIT` only by `SERIALIZE`,
`DEMODULATE`, `ENCODE` and `DECODE`, `WAV` and `WAV_RATE` only by `SYNTHESIZE`, `ENCODE` and `PCM.NORM`, `PCM`,
`PCM_RATE` and `PCM_FMT` only by `PCM.QUANT`; parameters and inputs never. -/
def Obligations.OnlyTheListedCommandsWriteEachRegister : Prop :=
  ∀ (i : Instr) (s t : State), exec i s = .next t → FrameOf i s t

/-- Only `DESERIALIZE` and `DECODE` set a soft outcome, a command that sets none clears both, the two exclude each
other, a fault sets neither, and `INSUF` comes with the empty text (10_state.md R25, 60_exceptions.md R247, R250). -/
def Obligations.OnlyTheParsersReportSoftOutcomes : Prop :=
  ∀ (i : Instr) (s t : State), exec i s = .next t →
    (writesTxt i = false → t.status.insuf = false ∧ t.status.trunc = false) ∧
    (t.status.insuf = true → t.status.trunc = false ∧ t.txt = []) ∧
    (t.status.err ≠ 0 → t.status.insuf = false ∧ t.status.trunc = false)

/-- Every command is idempotent: repeated on the state it left, it leaves the same state; and reading a register or the
buffers changes nothing (20_memory.md R59). -/
def Obligations.RepeatingACommandChangesNothing : Prop :=
  (∀ (i : Instr) (s t : State), exec i s = .next t → exec i t = .next t) ∧
    ∀ (n : Nat) (s t : State), hostMove (.readReg n) s = .next t ∨ hostMove .readBuffers s = .next t → t = s

/-! ## Configuration -/

/-- `SET.SR v` (40_config.md R110, R116): if the value, the baud rate and the resulting samples-per-bit are not 0, the
register and `CFG.SPB` are written; otherwise `ConfigFault(v)` and the configuration stays. -/
def Obligations.SampleRateSetterChecksThenRecomputes : Prop :=
  ∀ (v : Word) (s : State),
    ((v ≠ 0 ∧ s.cfg.baud ≠ 0 ∧ samplesPerBit s.par.roundTie v.toNat s.cfg.baud.toNat ≠ 0) →
      exec (.setSr v) s = .next { s with
        cfg := { s.cfg with
          sr := v, spb := BitVec.ofNat 32 (samplesPerBit s.par.roundTie v.toNat s.cfg.baud.toNat) }
        status := ⟨false, false, false, 0⟩, res0 := 0 }) ∧
    (¬ (v ≠ 0 ∧ s.cfg.baud ≠ 0 ∧ samplesPerBit s.par.roundTie v.toNat s.cfg.baud.toNat ≠ 0) →
      exec (.setSr v) s = .next { s with status := ⟨false, false, false, 3⟩, res0 := v })

/-- `SET.BAUD v` (40_config.md R111): the same check and recomputation; with the spec's ties to even it refuses exactly
0 and every value of at least twice the sample rate, and the largest accepted value gives `CFG.SPB = 1`. -/
def Obligations.BaudRateSetterRefusesTwiceTheSampleRate : Prop :=
  ∀ (v : Word) (s : State),
    ((v ≠ 0 ∧ s.cfg.sr ≠ 0 ∧ samplesPerBit s.par.roundTie s.cfg.sr.toNat v.toNat ≠ 0) →
      exec (.setBaud v) s = .next { s with
        cfg := { s.cfg with
          baud := v, spb := BitVec.ofNat 32 (samplesPerBit s.par.roundTie s.cfg.sr.toNat v.toNat) }
        status := ⟨false, false, false, 0⟩, res0 := 0 }) ∧
    (¬ (v ≠ 0 ∧ s.cfg.sr ≠ 0 ∧ samplesPerBit s.par.roundTie s.cfg.sr.toNat v.toNat ≠ 0) →
      exec (.setBaud v) s = .next { s with status := ⟨false, false, false, 3⟩, res0 := v }) ∧
    (s.par.roundTie = .toEven →
      ((v ≠ 0 ∧ s.cfg.sr ≠ 0 ∧ samplesPerBit s.par.roundTie s.cfg.sr.toNat v.toNat ≠ 0) ↔
        v ≠ 0 ∧ v.toNat < 2 * s.cfg.sr.toNat) ∧
      (1 ≤ s.cfg.sr.toNat → v.toNat = 2 * s.cfg.sr.toNat - 1 →
        samplesPerBit s.par.roundTie s.cfg.sr.toNat v.toNat = 1))

/-- `SET.FMARK v` and `SET.FSPACE v` accept every value and write their register (40_config.md R112, R113); under the
configuration's invariant (10_state.md R22) no other configuration register changes. -/
def Obligations.FrequencySettersAcceptEveryValue : Prop :=
  ∀ (v : Word) (s : State),
    exec (.setFmark v) s = .next { s with
      cfg := { s.cfg with
        fmark := v, spb := BitVec.ofNat 32 (samplesPerBit s.par.roundTie s.cfg.sr.toNat s.cfg.baud.toNat) }
      status := ⟨false, false, false, 0⟩, res0 := 0 } ∧
    (s.cfg.Inv s.par.roundTie → exec (.setFmark v) s = .next { s with
      cfg := { s.cfg with fmark := v }, status := ⟨false, false, false, 0⟩, res0 := 0 }) ∧
    exec (.setFspace v) s = .next { s with
      cfg := { s.cfg with fspace := v }, status := ⟨false, false, false, 0⟩, res0 := 0 }

/-- `CFG.RESET` restores the default configuration and nothing else (40_config.md R114). -/
def Obligations.CfgResetRestoresTheDefaults : Prop :=
  ∀ s : State, exec .cfgReset s = .next { s with
    cfg := ⟨8000, 300, 1270, 1070, 27⟩, status := ⟨false, false, false, 0⟩, res0 := 0 }

/-- `CFG.GET sel` reads the selected register into `RES0`; a selector above 4 is an `IllegalCommand`
(40_config.md R115). -/
def Obligations.CfgGetReadsTheSelectedRegister : Prop :=
  ∀ s : State,
    exec (.cfgGet 0) s = .next { s with status := ⟨false, false, false, 0⟩, res0 := s.cfg.sr } ∧
    exec (.cfgGet 1) s = .next { s with status := ⟨false, false, false, 0⟩, res0 := s.cfg.baud } ∧
    exec (.cfgGet 2) s = .next { s with status := ⟨false, false, false, 0⟩, res0 := s.cfg.fmark } ∧
    exec (.cfgGet 3) s = .next { s with status := ⟨false, false, false, 0⟩, res0 := s.cfg.fspace } ∧
    exec (.cfgGet 4) s = .next { s with status := ⟨false, false, false, 0⟩, res0 := s.cfg.spb } ∧
    ∀ sel : Word, 4 < sel.toNat →
      exec (.cfgGet sel) s = .next { s with status := ⟨false, false, false, 6⟩, res0 := 0x06 }

/-- `SPB(sr, baud)` is the nearest integer to the exact quotient, an exact half going to the even one
(00_scope.md R11); that determines it. -/
def Obligations.SamplesPerBitIsTheNearestInteger : Prop :=
  ∀ sr baud : Nat, 1 ≤ baud →
    |(samplesPerBit .toEven sr baud : Rat) - (sr : Rat) / baud| ≤ 1 / 2 ∧
      (|(samplesPerBit .toEven sr baud : Rat) - (sr : Rat) / baud| = 1 / 2 → Even (samplesPerBit .toEven sr baud))

/-! ## The Frame Codec -/

/-- The UTF-8 bytes of a code point, as bit fields; a sequence is encoded element by element, and fails with the index
of its first element that has no encoding (41_frame.md R130). -/
def Obligations.CodePointsEncodeAsTheTableSays : Prop :=
  utf8Enc [] = .ok [] ∧ ∀ c : CodePoint,
    (∀ (t : List CodePoint) (b bs : List Byte), utf8EncPoint c = some b → utf8Enc t = .ok bs →
      utf8Enc (c :: t) = .ok (b ++ bs)) ∧
    (∀ (u t : List CodePoint) (bs : List Byte), utf8EncPoint c = none → utf8Enc u = .ok bs →
      utf8Enc (u ++ c :: t) = .error u.length) ∧
    (c.toNat ≤ 0x7F → utf8EncPoint c = some [0b0#1 ++ c.extractLsb' 0 7]) ∧
    (0x80 ≤ c.toNat ∧ c.toNat ≤ 0x7FF →
      utf8EncPoint c = some [0b110#3 ++ c.extractLsb' 6 5, 0b10#2 ++ c.extractLsb' 0 6]) ∧
    (0x800 ≤ c.toNat ∧ c.toNat ≤ 0xFFFF ∧ ¬ (0xD800 ≤ c.toNat ∧ c.toNat ≤ 0xDFFF) →
      utf8EncPoint c =
        some [0b1110#4 ++ c.extractLsb' 12 4, 0b10#2 ++ c.extractLsb' 6 6, 0b10#2 ++ c.extractLsb' 0 6]) ∧
    (0x10000 ≤ c.toNat ∧ c.toNat ≤ 0x10FFFF →
      utf8EncPoint c = some [0b11110#5 ++ c.extractLsb' 18 3, 0b10#2 ++ c.extractLsb' 12 6,
        0b10#2 ++ c.extractLsb' 6 6, 0b10#2 ++ c.extractLsb' 0 6]) ∧
    ((0xD800 ≤ c.toNat ∧ c.toNat ≤ 0xDFFF) ∨ 0x10FFFF < c.toNat → utf8EncPoint c = none)

/-- `SERIALIZE` writes the frame's bits (41_frame.md R131 to R133): byte by byte the marker, the little-endian length,
the payload, each byte most significant bit first, when the text is encodable, its payload is at most 65535 bytes and
the bits fit. -/
def Obligations.SerializeWritesTheFrameBits : Prop :=
  ∀ (s : State) (b : List Byte), utf8Enc s.txt = .ok b → b.length ≤ 65535 →
    fits s.par.bitCap (48 + 8 * b.length) = true →
    ∃ bits, exec .serialize s = .next { s with bit := bits, status := ⟨false, false, false, 0⟩, res0 := 0 } ∧
      bits.length = 48 + 8 * b.length ∧
      ∀ m j, m < 6 + b.length → j < 8 →
        bits[8 * m + j]? = some
          ((([0xAA, 0x55, 0xAA, 0x55, BitVec.ofNat 8 (b.length % 256), BitVec.ofNat 8 (b.length / 256)] : List Byte)
            ++ b).getD m 0 |>.getLsbD (7 - j))

/-- A text with a surrogate or an element above 0x10FFFF raises `EncodingError` with the index of the first such
element, in `SERIALIZE` and in `ENCODE`, before any other check (60_exceptions.md R241). -/
def Obligations.UnencodableTextRaisesEncodingError : Prop :=
  ∀ (s : State) (i : Nat) (c : CodePoint), s.txt[i]? = some c →
    ((0xD800 ≤ c.toNat ∧ c.toNat ≤ 0xDFFF) ∨ 0x10FFFF < c.toNat) →
    (∀ j, j < i → ∀ c' : CodePoint, s.txt[j]? = some c' →
      ¬ ((0xD800 ≤ c'.toNat ∧ c'.toNat ≤ 0xDFFF) ∨ 0x10FFFF < c'.toNat)) →
    exec .serialize s = .next { s with status := ⟨false, false, false, 1⟩, res0 := BitVec.ofNat 32 i } ∧
      exec .encode s = .next { s with status := ⟨false, false, false, 1⟩, res0 := BitVec.ofNat 32 i }

/-- A payload of more than 65535 bytes raises `LengthFault` with its length, in `SERIALIZE` and in `ENCODE`
(60_exceptions.md R242). -/
def Obligations.OverlongPayloadRaisesLengthFault : Prop :=
  ∀ (s : State) (b : List Byte), utf8Enc s.txt = .ok b → 65535 < b.length →
    exec .serialize s = .next { s with status := ⟨false, false, false, 2⟩, res0 := BitVec.ofNat 32 b.length } ∧
      exec .encode s = .next { s with status := ⟨false, false, false, 2⟩, res0 := BitVec.ofNat 32 b.length }

/-- `FINDMARKER(y)` is the least index at which the four marker bytes stand, none where they stand nowhere
(41_frame.md R135). -/
def Obligations.MarkerSearchFindsTheFirstWindow : Prop :=
  ∀ (y : List Byte) (k : Nat),
    (findMarker y = some k ↔
      slice y k 4 = [0xAA, 0x55, 0xAA, 0x55] ∧ ∀ m, m < k → slice y m 4 ≠ [0xAA, 0x55, 0xAA, 0x55]) ∧
    (findMarker y = none ↔ ∀ m, slice y m 4 ≠ [0xAA, 0x55, 0xAA, 0x55])

/-- `PACK(s)` has a byte for every eight bits, its value the bits weighted from the most significant, and undoes
`BITS_OF` (41_frame.md R134). -/
def Obligations.PackTakesEightBitsToAByte : Prop :=
  ∀ s : List Bool, (pack s).length = s.length / 8 ∧
    (∀ m, m < s.length / 8 →
      ((pack s).getD m 0).toNat = ∑ j ∈ Finset.range 8, (s.getD (8 * m + j) false).toNat * 2 ^ (7 - j)) ∧
    ∀ f : List Byte, pack (bitsOf f) = f

/-- The well-formed UTF-8 sequences are exactly the ones that `UTF8ENC` makes of single code points, and they stand
for those code points (41_frame.md R136). -/
def Obligations.WellFormedSequencesAreTheEncodedOnes : Prop :=
  ∀ (y : List Byte) (n : Nat) (c : CodePoint),
    utf8At y = some (n, c) ↔ ∃ b, utf8EncPoint c = some b ∧ b.length = n ∧ ∃ z, y = b ++ z

/-- `UTF8DEC` passes a well-formed sequence as its code point and any other byte as U+FFFD (the default `UTF8_ERR`),
and undoes `UTF8ENC` (41_frame.md R137). -/
def Obligations.Utf8DecodeReplacesByteByByte : Prop :=
  utf8Dec .perByte [] = [] ∧
    (∀ (y : List Byte) (n : Nat) (c : CodePoint), utf8At y = some (n, c) →
      utf8Dec .perByte y = c :: utf8Dec .perByte (y.drop n)) ∧
    (∀ (b : Byte) (y : List Byte), utf8At (b :: y) = none →
      utf8Dec .perByte (b :: y) = 0xFFFD :: utf8Dec .perByte y) ∧
    (∀ y : List Byte, (utf8Dec .perByte y).length ≤ y.length) ∧
    ∀ (t : List CodePoint) (b : List Byte), utf8Enc t = .ok b → utf8Dec .perByte b = t

/-- `DESERIALIZE` (41_frame.md R138): fewer than 48 bits, no marker, or a marker with fewer than two bytes after it
give the empty text with `INSUF`; otherwise the text is the decoding of the payload bytes that the little-endian
length field claims, cut to the bytes that are there, with `TRUNC` exactly when the field claims more; a text that does
not fit `TXT` raises `CapacityFault`. -/
def Obligations.DeserializeParsesTheFirstFrame : Prop :=
  ∀ s : State,
    ((s.bit.length < 48 ∨ findMarker (pack s.bit) = none ∨
        ∃ k, findMarker (pack s.bit) = some k ∧ (pack s.bit).length < k + 6) →
      exec .deserialize s = .next { s with txt := [], status := ⟨false, true, false, 0⟩, res0 := 0 }) ∧
    ∀ (k l avail : Nat) (text : List CodePoint), 48 ≤ s.bit.length → findMarker (pack s.bit) = some k →
      k + 6 + avail = (pack s.bit).length →
      l = ((pack s.bit).getD (k + 4) 0).toNat + 256 * ((pack s.bit).getD (k + 5) 0).toNat →
      text = utf8Dec s.par.utf8Err (slice (pack s.bit) (k + 6) (min l avail)) →
      (fits s.par.txtCap text.length = true →
        exec .deserialize s =
          .next { s with txt := text, status := ⟨false, false, decide (avail < l), 0⟩, res0 := 0 }) ∧
      (fits s.par.txtCap text.length = false →
        exec .deserialize s =
          .next { s with status := ⟨false, false, false, 5⟩, res0 := BitVec.ofNat 32 text.length })

/-- The round trip of the Frame Codec (41_frame.md R139): `SERIALIZE`, then any bits appended to `BIT` and any whole
bytes put in front of it, then `DESERIALIZE`, gives the text back with both flags 0, under every replacement policy,
as long as the first marker in the bytes is the frame's own. -/
def Obligations.SerializeThenDeserializeReturnsTheText : Prop :=
  ∀ (s : State) (b pre : List Byte) (tail : List Bool), utf8Enc s.txt = .ok b → b.length ≤ 65535 →
    fits s.par.bitCap (48 + 8 * b.length) = true → fits s.par.txtCap s.txt.length = true →
    findMarker (pre ++ frame b) = some pre.length →
    ∃ u, exec .serialize s = .next u ∧ u.status.err = 0 ∧
      ∀ other : List CodePoint,
        exec .deserialize { u with bit := bitsOf pre ++ u.bit ++ tail, txt := other } =
          .next { u with
            bit := bitsOf pre ++ u.bit ++ tail, txt := s.txt, status := ⟨false, false, false, 0⟩, res0 := 0 }

/-- Truncation at the level of bits (41_frame.md R139): of the first `n` bits of a frame, `DESERIALIZE` decodes the
whole payload bytes among them with `TRUNC`, and below 48 bits it gives the empty text with `INSUF`. -/
def Obligations.TruncatedFrameDecodesItsWholeBytes : Prop :=
  ∀ (s : State) (b : List Byte) (n : Nat), b.length ≤ 65535 → n < 48 + 8 * b.length →
    s.bit = (bitsOf (frame b)).take n → s.par.txtCap = none →
    (n < 48 → exec .deserialize s = .next { s with txt := [], status := ⟨false, true, false, 0⟩, res0 := 0 }) ∧
    (48 ≤ n → exec .deserialize s = .next { s with
      txt := utf8Dec s.par.utf8Err (b.take ((n - 48) / 8)), status := ⟨false, false, true, 0⟩, res0 := 0 })

/-! ## The Waveform Synthesizer -/

/-- `SYNTHESIZE` (42_synth.md R160, R162, R163): a guard band of zeros, for bit `i` the tone block whose sample `n` is
the tone at phase `(F·n mod sr) / sr` with `F` the mark or the space frequency, a guard band of zeros; a waveform that
does not fit `WAV` raises `CapacityFault`. -/
def Obligations.SynthesizeLaysOutTheWaveform : Prop :=
  ∀ s : State,
    (fits s.par.wavCap (2 * (s.cfg.sr.toNat / 10) + s.bit.length * s.cfg.spb.toNat) = false →
      exec .synthesize s = .next { s with
        status := ⟨false, false, false, 5⟩
        res0 := BitVec.ofNat 32 (2 * (s.cfg.sr.toNat / 10) + s.bit.length * s.cfg.spb.toNat) }) ∧
    (fits s.par.wavCap (2 * (s.cfg.sr.toNat / 10) + s.bit.length * s.cfg.spb.toNat) = true →
      ∃ w, exec .synthesize s = .next { s with
          wav := w, wavRate := s.cfg.sr, status := ⟨false, false, false, 0⟩, res0 := 0 } ∧
        w.length = 2 * (s.cfg.sr.toNat / 10) + s.bit.length * s.cfg.spb.toNat ∧
        (∀ m, m < s.cfg.sr.toNat / 10 → w[m]? = some (.rat 0)) ∧
        (∀ (i n : Nat) (b : Bool), s.bit[i]? = some b → n < s.cfg.spb.toNat →
          w[s.cfg.sr.toNat / 10 + i * s.cfg.spb.toNat + n]? =
            some ((numOf s.par.numerics).tone
              ((if b then s.cfg.fmark.toNat else s.cfg.fspace.toNat) * n % s.cfg.sr.toNat) s.cfg.sr.toNat)) ∧
        ∀ m, m < s.cfg.sr.toNat / 10 →
          w[s.cfg.sr.toNat / 10 + s.bit.length * s.cfg.spb.toNat + m]? = some (.rat 0))

/-- Every sample of a synthesized waveform is within 4/5 of full scale, and the first sample of every tone block is
exactly 0 (42_synth.md R162, R165), in every numerics the machine can have; `val` reads an amplitude as the real number
it is (00_scope.md R12, R15). -/
def Obligations.SynthesizedSamplesStayWithinTheToneAmplitude : Prop :=
  ∀ (s t : State) (val : Amp → ℝ), NumLaws (numOf s.par.numerics) val → s.cfg.Inv s.par.roundTie →
    exec .synthesize s = .next t → t.status.err = 0 →
    (∀ x ∈ t.wav, |val x| ≤ 4 / 5) ∧
      ∀ i, i < s.bit.length → t.wav[s.cfg.sr.toNat / 10 + i * s.cfg.spb.toNat]?.map val = some 0

/-- Every numerics the machine can have is an exact instance that satisfies the laws N1 to N5 (00_scope.md R12, R15),
the two computed ones read as rationals. -/
def Obligations.EveryNumericsIsLawful : Prop :=
  (∀ n : Numerics, LawfulNum (numOf n)) ∧
    NumLaws numQ15 (fun a => (a.toRat : ℝ)) ∧ NumLaws numRef (fun a => (a.toRat : ℝ))

/-- The law N3 (00_scope.md R15): the tables of `Q15` are within `2^-14` of the real functions and those of the
approximation of `REF` within `2^-60`; each `Q15` code is the scaled real value rounded to the nearest integer, up to
`10^-15` (00_scope.md R14). -/
def Obligations.ComputedSineIsNearTheRealSine : Prop :=
  NearReal numQ15 (fun a => (a.toRat : ℝ)) ((2 : ℝ)⁻¹ ^ 14) ∧
    NearReal numRef (fun a => (a.toRat : ℝ)) ((2 : ℝ)⁻¹ ^ 60) ∧
    ∀ p q : Nat, p < q →
      |(sinCode 32767 p q : ℝ) - 32767 * Real.sin (2 * Real.pi * p / q)| ≤ 1 / 2 + 1 / 10 ^ 15 ∧
      |(cosCode 32767 p q : ℝ) - 32767 * Real.cos (2 * Real.pi * p / q)| ≤ 1 / 2 + 1 / 10 ^ 15 ∧
      |(sinCode 26214 p q : ℝ) - 26214 * Real.sin (2 * Real.pi * p / q)| ≤ 1 / 2 + 1 / 10 ^ 15

/-! ## The Tone Detector -/

/-- `SCORE` (43_detect.md R181, R182): a rate of 0 raises `ConfigFault(0)`, then a segment outside the waveform raises
`RangeFault(OFF)`; otherwise `POWER` is the sum of the squares of the correlations of the segment with the sine and
the cosine reference, sample `n` at phase `(FREQ·n mod RATE) / RATE`, as real numbers, exactly. -/
def Obligations.ScoreSumsTheSquaredCorrelations : Prop :=
  ∀ (off len freq rate : Word) (s : State),
    (rate = 0 →
      exec (.score off len freq rate) s = .next { s with status := ⟨false, false, false, 3⟩, res0 := 0 }) ∧
    (rate ≠ 0 → s.wav.length < off.toNat + len.toNat →
      exec (.score off len freq rate) s = .next { s with status := ⟨false, false, false, 4⟩, res0 := off }) ∧
    (rate ≠ 0 → off.toNat + len.toNat ≤ s.wav.length →
      ∃ a : Amp, exec (.score off len freq rate) s =
          .next { s with power := a, status := ⟨false, false, false, 0⟩, res0 := 0 } ∧
        ∀ val, ExactNum (numOf s.par.numerics) val → val a =
          (∑ n ∈ Finset.range len.toNat, val (s.wav.getD (off.toNat + n) (.rat 0)) *
            val ((numOf s.par.numerics).sin (freq.toNat * n % rate.toNat) rate.toNat)) ^ 2 +
          (∑ n ∈ Finset.range len.toNat, val (s.wav.getD (off.toNat + n) (.rat 0)) *
            val ((numOf s.par.numerics).cos (freq.toNat * n % rate.toNat) rate.toNat)) ^ 2)

/-- Scaling every sample by `a` scales the power by `a²`, the power is never negative, it is 0 on silence and on the
empty segment, and a frequency counts only modulo the rate (43_detect.md R181, R182), in every exact instance of `NUM`
(00_scope.md R12). -/
def Obligations.PowerScalesWithTheSquareOfTheAmplitude : Prop :=
  ∀ (num : Sys2Proof.Num) (val : Amp → ℝ) (seg : List Amp) (a : Amp) (f rate n : Nat), ExactNum num val →
    val (power num (seg.map (num.mul a)) f rate) = val a ^ 2 * val (power num seg f rate) ∧
      0 ≤ val (power num seg f rate) ∧ val (power num (List.replicate n (.rat 0)) f rate) = 0 ∧
      power num seg f rate = power num seg (f % rate) rate

/-! ## The Signal Demodulator -/

/-- The start (44_demod.md R196): a quarter of a bit period before the first sample of absolute amplitude above 1/100,
not before 0, and 0 where there is none, in every exact instance of `NUM`. -/
def Obligations.StartIsAQuarterBitBeforeTheFirstLoudSample : Prop :=
  ∀ (num : Sys2Proof.Num) (val : Amp → ℝ) (spb : Nat) (w : List Amp), ExactNum num val →
    (∀ (i0 : Nat) (x : Amp), w[i0]? = some x → 1 / 100 < |val x| →
      (∀ m, m < i0 → ∀ y, w[m]? = some y → |val y| ≤ 1 / 100) →
      (startIndex num spb w : Int) = max 0 ((i0 : Int) - (spb / 4 : Nat))) ∧
    ((∀ x ∈ w, |val x| ≤ 1 / 100) → startIndex num spb w = 0)

/-- `DEMODULATE` (44_demod.md R197 to R199): with samples-per-bit recomputed from the waveform's own rate, one bit for
every whole block from the start on, 1 exactly when the mark power of the block is strictly greater than its space
power; `val` reads an amplitude as the real number it is. -/
def Obligations.DemodulateDecidesBlockByBlock : Prop :=
  ∀ (s : State) (spb start : Nat), spb = samplesPerBit s.par.roundTie s.wavRate.toNat s.cfg.baud.toNat →
    start = startIndex (numOf s.par.numerics) spb s.wav →
    s.wavRate ≠ 0 → spb ≠ 0 → fits s.par.bitCap ((s.wav.length - start) / spb) = true →
    ∃ bits, exec .demodulate s = .next { s with bit := bits, status := ⟨false, false, false, 0⟩, res0 := 0 } ∧
      bits.length = (s.wav.length - start) / spb ∧
      ∀ j, j < bits.length →
        start + (j + 1) * spb ≤ s.wav.length ∧
        ∀ val, ExactNum (numOf s.par.numerics) val → (bits[j]? = some true ↔
          val (power (numOf s.par.numerics) (slice s.wav (start + j * spb) spb)
              s.cfg.fspace.toNat s.wavRate.toNat) <
            val (power (numOf s.par.numerics) (slice s.wav (start + j * spb) spb)
              s.cfg.fmark.toNat s.wavRate.toNat))

/-- A rate tag of 0, or one that makes samples-per-bit 0, raises `ConfigFault(WAV_RATE)` in `DEMODULATE` and in
`DECODE`, and nothing else changes (44_demod.md R195). -/
def Obligations.ZeroBlockSizeRaisesConfigFault : Prop :=
  ∀ s : State, (s.wavRate = 0 ∨ samplesPerBit s.par.roundTie s.wavRate.toNat s.cfg.baud.toNat = 0) →
    exec .demodulate s = .next { s with status := ⟨false, false, false, 3⟩, res0 := s.wavRate } ∧
      exec .decode s = .next { s with status := ⟨false, false, false, 3⟩, res0 := s.wavRate }

/-- With equal tones every block ties, and a tie gives 0: `DEMODULATE` writes zeros only (44_demod.md R198). -/
def Obligations.EqualTonesDemodulateToZeros : Prop :=
  ∀ (s : State) (spb : Nat), spb = samplesPerBit s.par.roundTie s.wavRate.toNat s.cfg.baud.toNat →
    s.wavRate ≠ 0 → spb ≠ 0 → s.cfg.fmark = s.cfg.fspace →
    fits s.par.bitCap ((s.wav.length - startIndex (numOf s.par.numerics) spb s.wav) / spb) = true →
    exec .demodulate s = .next { s with
      bit := List.replicate ((s.wav.length - startIndex (numOf s.par.numerics) spb s.wav) / spb) false
      status := ⟨false, false, false, 0⟩, res0 := 0 }

/-- A waveform of exact zeros, of any length, demodulates to zeros and decodes to the empty text with `INSUF`
(44_demod.md R200). -/
def Obligations.SilenceDecodesToInsufficientData : Prop :=
  ∀ (s : State) (n spb : Nat), s.wav = List.replicate n (.rat 0) →
    spb = samplesPerBit s.par.roundTie s.wavRate.toNat s.cfg.baud.toNat → s.wavRate ≠ 0 → spb ≠ 0 →
    fits s.par.bitCap (n / spb) = true →
    exec .decode s = .next { s with
      bit := List.replicate (n / spb) false, txt := [], status := ⟨false, true, false, 0⟩, res0 := 0 }

/-- Exact zeros before the signal, however many, do not change the demodulated bits (44_demod.md R200), when the first
loud sample is at least a quarter bit period into the waveform: where the start is cut off at 0, the added zeros shift
the blocks, so that case is left out here. -/
def Obligations.LeadingSilenceDoesNotChangeTheBits : Prop :=
  ∀ (s t : State) (d i0 : Nat), firstLoud (numOf s.par.numerics) s.wav = some i0 →
    samplesPerBit s.par.roundTie s.wavRate.toNat s.cfg.baud.toNat / 4 ≤ i0 →
    exec .demodulate s = .next t → t.status.err = 0 →
    exec .demodulate { s with wav := List.replicate d (.rat 0) ++ s.wav } =
      .next { t with wav := List.replicate d (.rat 0) ++ s.wav }

/-- A block with a single nonzero sample `x` has both powers equal to `x²` in `REF`, a tie, which gives bit 0
(70_reset_and_hazards.md R278, 43_detect.md R181): in every exact instance of `NUM` whose sine and cosine are the real
functions, as those of `REF` are, and in the approximation of `REF` that the machine can have (assumption 3). -/
def Obligations.LoneSampleIsATieInRef : Prop :=
  ∀ (num : Sys2Proof.Num) (val : Amp → ℝ) (x : Amp) (m n fspace fmark rate : Nat), 1 ≤ rate →
    ((ExactNum num val ∧ NearReal num val 0) ∨ (num = numRef ∧ val = fun a => (a.toRat : ℝ))) →
    (∀ f, val (power num (List.replicate m (.rat 0) ++ x :: List.replicate n (.rat 0)) f rate) = val x ^ 2) ∧
      decideBit num fspace fmark rate (List.replicate m (.rat 0) ++ x :: List.replicate n (.rat 0)) = false

/-- `DEMODULATE` and `DECODE` do not read `CFG.SR` or `CFG.SPB` (44_demod.md R195, 10_state.md R21): two states that
differ only there end alike. -/
def Obligations.DecodingIgnoresTheConfiguredSampleRate : Prop :=
  ∀ (i : Instr) (s t : State) (sr spb : Word), i = .demodulate ∨ i = .decode → exec i s = .next t →
    exec i { s with cfg := { s.cfg with sr := sr, spb := spb } } =
      .next { t with cfg := { t.cfg with sr := sr, spb := spb } }

/-! ## The Codec Facade -/

/-- `ENCODE` is `SERIALIZE` then `SYNTHESIZE` when both complete; a fault of either ends it with that fault and nothing
else changed; and it completes on every encodable text that fits (45_facade.md R215). -/
def Obligations.EncodeIsSerializeThenSynthesize : Prop :=
  (∀ s u v : State, exec .serialize s = .next u → exec .synthesize u = .next v →
    (u.status.err ≠ 0 → exec .encode s = .next u) ∧
    (u.status.err = 0 → v.status.err ≠ 0 →
      exec .encode s = .next { s with status := v.status, res0 := v.res0 }) ∧
    (u.status.err = 0 → v.status.err = 0 → exec .encode s = .next v)) ∧
  ∀ (s : State) (b : List Byte), utf8Enc s.txt = .ok b → b.length ≤ 65535 →
    fits s.par.bitCap (48 + 8 * b.length) = true →
    fits s.par.wavCap (2 * (s.cfg.sr.toNat / 10) + (48 + 8 * b.length) * s.cfg.spb.toNat) = true →
    exec .encode s = .next { s with
      bit := bitsOf (frame b), wav := waveform (numOf s.par.numerics) s.cfg (bitsOf (frame b)), wavRate := s.cfg.sr
      status := ⟨false, false, false, 0⟩, res0 := 0 }

/-- `DECODE` is `DEMODULATE` then `DESERIALIZE` when both complete; a fault of either ends it with that fault and
nothing else changed; and it completes on every waveform with a positive rate and block size when its outputs fit: the
text never has more elements than there are whole bytes of bits (45_facade.md R216). -/
def Obligations.DecodeIsDemodulateThenDeserialize : Prop :=
  (∀ s u v : State, exec .demodulate s = .next u → exec .deserialize u = .next v →
    (u.status.err ≠ 0 → exec .decode s = .next u) ∧
    (u.status.err = 0 → v.status.err ≠ 0 →
      exec .decode s = .next { s with status := v.status, res0 := v.res0 }) ∧
    (u.status.err = 0 → v.status.err = 0 → exec .decode s = .next v)) ∧
  ∀ (s : State) (spb : Nat), spb = samplesPerBit s.par.roundTie s.wavRate.toNat s.cfg.baud.toNat →
    s.wavRate ≠ 0 → spb ≠ 0 → fits s.par.bitCap ((s.wav.length - startIndex (numOf s.par.numerics) spb s.wav) / spb) = true →
    fits s.par.txtCap ((s.wav.length - startIndex (numOf s.par.numerics) spb s.wav) / spb / 8) = true →
    ∃ bits : List Bool,
      exec .demodulate s = .next { s with bit := bits, status := ⟨false, false, false, 0⟩, res0 := 0 } ∧
      exec .decode s = .next { s with
        bit := bits, txt := (parseFrame s.par.utf8Err bits).text
        status := ⟨false, (parseFrame s.par.utf8Err bits).insuf, (parseFrame s.par.utf8Err bits).trunc, 0⟩, res0 := 0 }

/-- An output that does not fit its buffer raises `CapacityFault` with the length that did not fit, and nothing else
changes (60_exceptions.md R245): `SERIALIZE`, `SYNTHESIZE`, `DEMODULATE`, `DESERIALIZE`, `PCM.NORM`, `PCM.QUANT`, and
`ENCODE` and `DECODE` for either of their outputs, the bits first. -/
def Obligations.OutputBeyondCapacityRaisesCapacityFault : Prop :=
  ∀ s : State,
    (∀ b, utf8Enc s.txt = .ok b → b.length ≤ 65535 → fits s.par.bitCap (48 + 8 * b.length) = false →
      exec .serialize s =
        .next { s with status := ⟨false, false, false, 5⟩, res0 := BitVec.ofNat 32 (48 + 8 * b.length) } ∧
      exec .encode s =
        .next { s with status := ⟨false, false, false, 5⟩, res0 := BitVec.ofNat 32 (48 + 8 * b.length) }) ∧
    (∀ b, utf8Enc s.txt = .ok b → b.length ≤ 65535 → fits s.par.bitCap (48 + 8 * b.length) = true →
      fits s.par.wavCap (waveLen s.cfg (48 + 8 * b.length)) = false →
      exec .encode s = .next { s with
        status := ⟨false, false, false, 5⟩, res0 := BitVec.ofNat 32 (waveLen s.cfg (48 + 8 * b.length)) }) ∧
    (fits s.par.wavCap (waveLen s.cfg s.bit.length) = false →
      exec .synthesize s = .next { s with
        status := ⟨false, false, false, 5⟩, res0 := BitVec.ofNat 32 (waveLen s.cfg s.bit.length) }) ∧
    (fits s.par.txtCap (parseFrame s.par.utf8Err s.bit).text.length = false →
      exec .deserialize s = .next { s with
        status := ⟨false, false, false, 5⟩
        res0 := BitVec.ofNat 32 (parseFrame s.par.utf8Err s.bit).text.length }) ∧
    (∀ spb, spb = samplesPerBit s.par.roundTie s.wavRate.toNat s.cfg.baud.toNat → s.wavRate ≠ 0 → spb ≠ 0 →
      fits s.par.bitCap (blockCount (numOf s.par.numerics) spb s.wav) = false →
      exec .demodulate s =
        .next { s with status := ⟨false, false, false, 5⟩, res0 := BitVec.ofNat 32 (blockCount (numOf s.par.numerics) spb s.wav) } ∧
      exec .decode s =
        .next { s with status := ⟨false, false, false, 5⟩, res0 := BitVec.ofNat 32 (blockCount (numOf s.par.numerics) spb s.wav) }) ∧
    (∀ bits, demodBits s.par s.cfg s.wavRate s.wav = .ok bits →
      fits s.par.txtCap (parseFrame s.par.utf8Err bits).text.length = false →
      exec .decode s = .next { s with
        status := ⟨false, false, false, 5⟩
        res0 := BitVec.ofNat 32 (parseFrame s.par.utf8Err bits).text.length }) ∧
    (s.pcmFmt ≠ 3 → fits s.par.wavCap s.pcm.length = false →
      exec .pcmNorm s =
        .next { s with status := ⟨false, false, false, 5⟩, res0 := BitVec.ofNat 32 s.pcm.length }) ∧
    (fits s.par.pcmCap s.wav.length = false →
      exec .pcmQuant s = .next { s with status := ⟨false, false, false, 5⟩, res0 := BitVec.ofNat 32 s.wav.length })

/-- The headline round trip (45_facade.md R218, 70_reset_and_hazards.md R277): at the default configuration, in the
hardware numerics and in the approximation of `REF`, with unbounded buffers, `ENCODE` and then `DECODE` give every text
back that `UTF8ENC` accepts with at most 65535 bytes, with both flags 0, whatever `TXT` holds in between. -/
def Obligations.DefaultConfigurationRoundTrips : Prop :=
  ∀ (s : State) (b : List Byte), s.cfg = ⟨8000, 300, 1270, 1070, 27⟩ →
    (s.par.numerics = .q15 ∨ s.par.numerics = .ref) →
    s.par.bitCap = none → s.par.wavCap = none → s.par.txtCap = none →
    utf8Enc s.txt = .ok b → b.length ≤ 65535 →
    ∃ u, exec .encode s = .next u ∧ u.status.err = 0 ∧
      ∀ other : List CodePoint, ∃ v, exec .decode { u with txt := other } = .next v ∧
        v.txt = s.txt ∧ v.status = ⟨false, false, false, 0⟩ ∧ v.wav = u.wav

/-- The round trip is no law of every configuration (45_facade.md R218, the table of 70_reset_and_hazards.md R277): at
8000 Hz and 1200 baud, a configuration that satisfies the invariant, the same two commands lose every text: `DECODE`
answers the empty text with `INSUF`. -/
def Obligations.TwelveHundredBaudLosesEveryText : Prop :=
  ∀ (s : State) (b : List Byte), s.cfg = ⟨8000, 1200, 1270, 1070, 7⟩ →
    (s.par.numerics = .q15 ∨ s.par.numerics = .ref) →
    s.par.bitCap = none → s.par.wavCap = none → s.par.txtCap = none →
    utf8Enc s.txt = .ok b → b.length ≤ 65535 →
    s.cfg.Inv s.par.roundTie ∧
    ∃ u v, exec .encode s = .next u ∧ u.status.err = 0 ∧ exec .decode u = .next v ∧
      v.txt = [] ∧ v.status = ⟨false, true, false, 0⟩

/-! ## The audio boundary -/

/-- `PCM.NORM` (46_pcm.md R230): element by element `NORM16`, `NORM32` or `NORMF` as `PCM_FMT` says, the rate tag
copied; the reserved format raises `IllegalCommand`, a waveform that does not fit `CapacityFault`. -/
def Obligations.PcmNormConvertsByFormat : Prop :=
  ∀ s : State,
    (s.pcmFmt = 3 → exec .pcmNorm s = .next { s with status := ⟨false, false, false, 6⟩, res0 := 0x60 }) ∧
    (s.pcmFmt ≠ 3 → fits s.par.wavCap s.pcm.length = false → exec .pcmNorm s =
      .next { s with status := ⟨false, false, false, 5⟩, res0 := BitVec.ofNat 32 s.pcm.length }) ∧
    (fits s.par.wavCap s.pcm.length = true →
      (∀ cs : List (BitVec 16), s.pcmFmt = 0 → s.pcm = .i16 cs →
        exec .pcmNorm s = .next { s with
          wav := cs.map fun c => (numOf s.par.numerics).norm16 c.toInt, wavRate := s.pcmRate
          status := ⟨false, false, false, 0⟩, res0 := 0 }) ∧
      (∀ cs : List (BitVec 32), s.pcmFmt = 1 → s.pcm = .i32 cs →
        exec .pcmNorm s = .next { s with
          wav := cs.map fun c => (numOf s.par.numerics).norm32 c.toInt, wavRate := s.pcmRate
          status := ⟨false, false, false, 0⟩, res0 := 0 }) ∧
      ∀ xs : List Amp, s.pcmFmt = 2 → s.pcm = .f xs →
        exec .pcmNorm s = .next { s with
          wav := xs.map (numOf s.par.numerics).normF, wavRate := s.pcmRate
          status := ⟨false, false, false, 0⟩, res0 := 0 })

/-- The model's own (assumption 5): elements of another width than `PCM_FMT` names do not stop `PCM.NORM`. It completes
and converts one element of the named width for each of them, whatever the elements of that width are. -/
def Obligations.PcmNormCompletesOnMixedWidths : Prop :=
  ∀ s : State, fits s.par.wavCap s.pcm.length = true →
    (s.pcmFmt = 0 → ∃ cs : List (BitVec 16), cs.length = s.pcm.length ∧ exec .pcmNorm s = .next { s with
      wav := cs.map fun c => (numOf s.par.numerics).norm16 c.toInt, wavRate := s.pcmRate
      status := ⟨false, false, false, 0⟩, res0 := 0 }) ∧
    (s.pcmFmt = 1 → ∃ cs : List (BitVec 32), cs.length = s.pcm.length ∧ exec .pcmNorm s = .next { s with
      wav := cs.map fun c => (numOf s.par.numerics).norm32 c.toInt, wavRate := s.pcmRate
      status := ⟨false, false, false, 0⟩, res0 := 0 }) ∧
    (s.pcmFmt = 2 → ∃ xs : List Amp, xs.length = s.pcm.length ∧ exec .pcmNorm s = .next { s with
      wav := xs.map (numOf s.par.numerics).normF, wavRate := s.pcmRate
      status := ⟨false, false, false, 0⟩, res0 := 0 })

/-- `PCM.QUANT` (46_pcm.md R231): element by element `QUANT16` as a 16-bit code, `PCM_FMT` becomes `I16` and the rate
tag is copied; samples that do not fit `PCM` raise `CapacityFault`. In the two computed numerics `QUANT16` is a 16-bit
code for every amplitude, and in every numerics for every amplitude within [-1, 1] (00_scope.md R15). -/
def Obligations.PcmQuantWritesSixteenBitCodes : Prop :=
  ∀ s : State,
    (fits s.par.pcmCap s.wav.length = true →
      ∃ cs : List (BitVec 16), exec .pcmQuant s = .next { s with
          pcm := .i16 cs, pcmFmt := 0, pcmRate := s.wavRate, status := ⟨false, false, false, 0⟩, res0 := 0 } ∧
        cs.length = s.wav.length ∧
        ∀ (n : Nat) (a : Amp), s.wav[n]? = some a → -32768 ≤ (numOf s.par.numerics).quant16 a →
          (numOf s.par.numerics).quant16 a ≤ 32767 →
          cs[n]?.map BitVec.toInt = some ((numOf s.par.numerics).quant16 a)) ∧
    (fits s.par.pcmCap s.wav.length = false → exec .pcmQuant s =
      .next { s with status := ⟨false, false, false, 5⟩, res0 := BitVec.ofNat 32 s.wav.length }) ∧
    ((s.par.numerics = .q15 ∨ s.par.numerics = .ref) → ∀ a : Amp,
      -32768 ≤ (numOf s.par.numerics).quant16 a ∧ (numOf s.par.numerics).quant16 a ≤ 32767) ∧
    ∀ val, NumLaws (numOf s.par.numerics) val → ∀ a : Amp, |val a| ≤ 1 →
      -32768 ≤ (numOf s.par.numerics).quant16 a ∧ (numOf s.par.numerics).quant16 a ≤ 32767

/-- In `Q15`, `PCM.QUANT` and then `PCM.NORM` restore a stored waveform and its rate exactly (46_pcm.md R232). -/
def Obligations.QuantiseThenNormaliseRestoresTheWaveform : Prop :=
  ∀ s : State, s.par.numerics = .q15 → (∀ x ∈ s.wav, IsCode x) → fits s.par.pcmCap s.wav.length = true →
    fits s.par.wavCap s.wav.length = true →
    ∃ u, exec .pcmQuant s = .next u ∧ u.status.err = 0 ∧
      ∀ (other : List Amp) (rate : Word),
        exec .pcmNorm { u with wav := other, wavRate := rate } =
          .next { u with wav := s.wav, wavRate := s.wavRate, status := ⟨false, false, false, 0⟩, res0 := 0 }

/-- In `Q15` every sample the block stores in `WAV` is a 16-bit code over 32768 (00_scope.md R14), whatever the bits or
the samples it is made of. -/
def Obligations.StoredSamplesAreCodes : Prop :=
  ∀ (i : Instr) (s t : State), s.par.numerics = .q15 → writesWav i = true → exec i s = .next t →
    t.status.err = 0 → ∀ x ∈ t.wav, IsCode x

/-- The start threshold in 16-bit codes (46_pcm.md R233): in `Q15` and in the approximation of `REF`, a normalised
sample is above the threshold exactly when its code is at least 328 in magnitude. -/
def Obligations.StartThresholdInCodes : Prop :=
  ∀ c : Int, (isLoud numQ15 (numQ15.norm16 c) = true ↔ 328 ≤ |c|) ∧ (isLoud numRef (numRef.norm16 c) = true ↔ 328 ≤ |c|)

/-- Every real number can be an element of `PCM` in format `F` (10_state.md R29), and its conversions are the ones the
spec gives for that real number `x`, not for an approximation of it: `NORMF` in `Q15` is
`clamp(rha(32768 · x), -32768, 32767) / 32768` with `rha` to nearest, ties away from zero (00_scope.md R14); in the
approximation of `REF`, `NORMF` keeps the element, `QUANT16` is `clamp(trunc(32767 · x), -32767, 32767)` (R13), and the
element is above the start threshold exactly when `|x| > 1/100` (44_demod.md R196). Sums and products there take a
rational within `2^-64` of `x` (assumption 2). -/
def Obligations.RealSamplesConvertExactly : Prop :=
  (∀ x : ℝ, ∃ a : Amp, a.Stands x) ∧
    ∀ (a : Amp) (x : ℝ), a.Stands x →
      (∀ c : Int, (0 ≤ x → c = ⌊32768 * x + 1 / 2⌋) → (x < 0 → c = -⌊-(32768 * x) + 1 / 2⌋) →
        numQ15.normF a = .rat ((max (-32768) (min 32767 c) : Int) / 32768)) ∧
      numRef.normF a = a ∧
      (∀ c : Int, (0 ≤ x → c = ⌊32767 * x⌋) → (x < 0 → c = -⌊-(32767 * x)⌋) →
        numRef.quant16 a = max (-32767) (min 32767 c)) ∧
      (isLoud numRef a = true ↔ 1 / 100 < |x|) ∧
      |(a.toRat : ℝ) - x| ≤ (2 : ℝ)⁻¹ ^ 64
end

