-- ==== Sys2Proof/Laws/State.lean ====
section
/-! SUPPORT. One lemma per field of State per update, so that no proof unfolds a record update. -/

namespace Sys2Proof.Machine

@[simp] theorem complete_par (insuf trunc : Bool) (res : Word) (s : State) : (complete insuf trunc res s).par = s.par := rfl
@[simp] theorem complete_cfg (insuf trunc : Bool) (res : Word) (s : State) : (complete insuf trunc res s).cfg = s.cfg := rfl
@[simp] theorem complete_status (insuf trunc : Bool) (res : Word) (s : State) : (complete insuf trunc res s).status = Status.completed insuf trunc := rfl
@[simp] theorem complete_res0 (insuf trunc : Bool) (res : Word) (s : State) : (complete insuf trunc res s).res0 = res := rfl
@[simp] theorem complete_power (insuf trunc : Bool) (res : Word) (s : State) : (complete insuf trunc res s).power = s.power := rfl
@[simp] theorem complete_wavRate (insuf trunc : Bool) (res : Word) (s : State) : (complete insuf trunc res s).wavRate = s.wavRate := rfl
@[simp] theorem complete_pcmRate (insuf trunc : Bool) (res : Word) (s : State) : (complete insuf trunc res s).pcmRate = s.pcmRate := rfl
@[simp] theorem complete_pcmFmt (insuf trunc : Bool) (res : Word) (s : State) : (complete insuf trunc res s).pcmFmt = s.pcmFmt := rfl
@[simp] theorem complete_txt (insuf trunc : Bool) (res : Word) (s : State) : (complete insuf trunc res s).txt = s.txt := rfl
@[simp] theorem complete_bit (insuf trunc : Bool) (res : Word) (s : State) : (complete insuf trunc res s).bit = s.bit := rfl
@[simp] theorem complete_wav (insuf trunc : Bool) (res : Word) (s : State) : (complete insuf trunc res s).wav = s.wav := rfl
@[simp] theorem complete_pcm (insuf trunc : Bool) (res : Word) (s : State) : (complete insuf trunc res s).pcm = s.pcm := rfl
@[simp] theorem complete_inputs (insuf trunc : Bool) (res : Word) (s : State) : (complete insuf trunc res s).inputs = s.inputs := rfl

@[simp] theorem raise_par (f : CmdFault) (info : Nat) (s : State) : (raise f info s).par = s.par := rfl
@[simp] theorem raise_cfg (f : CmdFault) (info : Nat) (s : State) : (raise f info s).cfg = s.cfg := rfl
@[simp] theorem raise_status (f : CmdFault) (info : Nat) (s : State) : (raise f info s).status = Status.faulted f := rfl
@[simp] theorem raise_res0 (f : CmdFault) (info : Nat) (s : State) : (raise f info s).res0 = BitVec.ofNat 32 info := rfl
@[simp] theorem raise_power (f : CmdFault) (info : Nat) (s : State) : (raise f info s).power = s.power := rfl
@[simp] theorem raise_wavRate (f : CmdFault) (info : Nat) (s : State) : (raise f info s).wavRate = s.wavRate := rfl
@[simp] theorem raise_pcmRate (f : CmdFault) (info : Nat) (s : State) : (raise f info s).pcmRate = s.pcmRate := rfl
@[simp] theorem raise_pcmFmt (f : CmdFault) (info : Nat) (s : State) : (raise f info s).pcmFmt = s.pcmFmt := rfl
@[simp] theorem raise_txt (f : CmdFault) (info : Nat) (s : State) : (raise f info s).txt = s.txt := rfl
@[simp] theorem raise_bit (f : CmdFault) (info : Nat) (s : State) : (raise f info s).bit = s.bit := rfl
@[simp] theorem raise_wav (f : CmdFault) (info : Nat) (s : State) : (raise f info s).wav = s.wav := rfl
@[simp] theorem raise_pcm (f : CmdFault) (info : Nat) (s : State) : (raise f info s).pcm = s.pcm := rfl
@[simp] theorem raise_inputs (f : CmdFault) (info : Nat) (s : State) : (raise f info s).inputs = s.inputs := rfl

@[simp] theorem writeTxt_par (s : State) (t : List CodePoint) : (s.writeTxt t).par = s.par := rfl
@[simp] theorem writeTxt_cfg (s : State) (t : List CodePoint) : (s.writeTxt t).cfg = s.cfg := rfl
@[simp] theorem writeTxt_status (s : State) (t : List CodePoint) : (s.writeTxt t).status = s.status := rfl
@[simp] theorem writeTxt_res0 (s : State) (t : List CodePoint) : (s.writeTxt t).res0 = s.res0 := rfl
@[simp] theorem writeTxt_power (s : State) (t : List CodePoint) : (s.writeTxt t).power = s.power := rfl
@[simp] theorem writeTxt_wavRate (s : State) (t : List CodePoint) : (s.writeTxt t).wavRate = s.wavRate := rfl
@[simp] theorem writeTxt_pcmRate (s : State) (t : List CodePoint) : (s.writeTxt t).pcmRate = s.pcmRate := rfl
@[simp] theorem writeTxt_pcmFmt (s : State) (t : List CodePoint) : (s.writeTxt t).pcmFmt = s.pcmFmt := rfl
@[simp] theorem writeTxt_txt (s : State) (t : List CodePoint) : (s.writeTxt t).txt = t := rfl
@[simp] theorem writeTxt_bit (s : State) (t : List CodePoint) : (s.writeTxt t).bit = s.bit := rfl
@[simp] theorem writeTxt_wav (s : State) (t : List CodePoint) : (s.writeTxt t).wav = s.wav := rfl
@[simp] theorem writeTxt_pcm (s : State) (t : List CodePoint) : (s.writeTxt t).pcm = s.pcm := rfl
@[simp] theorem writeTxt_inputs (s : State) (t : List CodePoint) : (s.writeTxt t).inputs = s.inputs := rfl

@[simp] theorem writeBit_par (s : State) (b : List Bool) : (s.writeBit b).par = s.par := rfl
@[simp] theorem writeBit_cfg (s : State) (b : List Bool) : (s.writeBit b).cfg = s.cfg := rfl
@[simp] theorem writeBit_status (s : State) (b : List Bool) : (s.writeBit b).status = s.status := rfl
@[simp] theorem writeBit_res0 (s : State) (b : List Bool) : (s.writeBit b).res0 = s.res0 := rfl
@[simp] theorem writeBit_power (s : State) (b : List Bool) : (s.writeBit b).power = s.power := rfl
@[simp] theorem writeBit_wavRate (s : State) (b : List Bool) : (s.writeBit b).wavRate = s.wavRate := rfl
@[simp] theorem writeBit_pcmRate (s : State) (b : List Bool) : (s.writeBit b).pcmRate = s.pcmRate := rfl
@[simp] theorem writeBit_pcmFmt (s : State) (b : List Bool) : (s.writeBit b).pcmFmt = s.pcmFmt := rfl
@[simp] theorem writeBit_txt (s : State) (b : List Bool) : (s.writeBit b).txt = s.txt := rfl
@[simp] theorem writeBit_bit (s : State) (b : List Bool) : (s.writeBit b).bit = b := rfl
@[simp] theorem writeBit_wav (s : State) (b : List Bool) : (s.writeBit b).wav = s.wav := rfl
@[simp] theorem writeBit_pcm (s : State) (b : List Bool) : (s.writeBit b).pcm = s.pcm := rfl
@[simp] theorem writeBit_inputs (s : State) (b : List Bool) : (s.writeBit b).inputs = s.inputs := rfl

@[simp] theorem writeWav_par (s : State) (w : List Amp) (rate : Word) : (s.writeWav w rate).par = s.par := rfl
@[simp] theorem writeWav_cfg (s : State) (w : List Amp) (rate : Word) : (s.writeWav w rate).cfg = s.cfg := rfl
@[simp] theorem writeWav_status (s : State) (w : List Amp) (rate : Word) : (s.writeWav w rate).status = s.status := rfl
@[simp] theorem writeWav_res0 (s : State) (w : List Amp) (rate : Word) : (s.writeWav w rate).res0 = s.res0 := rfl
@[simp] theorem writeWav_power (s : State) (w : List Amp) (rate : Word) : (s.writeWav w rate).power = s.power := rfl
@[simp] theorem writeWav_wavRate (s : State) (w : List Amp) (rate : Word) : (s.writeWav w rate).wavRate = rate := rfl
@[simp] theorem writeWav_pcmRate (s : State) (w : List Amp) (rate : Word) : (s.writeWav w rate).pcmRate = s.pcmRate := rfl
@[simp] theorem writeWav_pcmFmt (s : State) (w : List Amp) (rate : Word) : (s.writeWav w rate).pcmFmt = s.pcmFmt := rfl
@[simp] theorem writeWav_txt (s : State) (w : List Amp) (rate : Word) : (s.writeWav w rate).txt = s.txt := rfl
@[simp] theorem writeWav_bit (s : State) (w : List Amp) (rate : Word) : (s.writeWav w rate).bit = s.bit := rfl
@[simp] theorem writeWav_wav (s : State) (w : List Amp) (rate : Word) : (s.writeWav w rate).wav = w := rfl
@[simp] theorem writeWav_pcm (s : State) (w : List Amp) (rate : Word) : (s.writeWav w rate).pcm = s.pcm := rfl
@[simp] theorem writeWav_inputs (s : State) (w : List Amp) (rate : Word) : (s.writeWav w rate).inputs = s.inputs := rfl

@[simp] theorem writePcm_par (s : State) (p : PcmBuffer) (fmt : BitVec 2) (rate : Word) : (s.writePcm p fmt rate).par = s.par := rfl
@[simp] theorem writePcm_cfg (s : State) (p : PcmBuffer) (fmt : BitVec 2) (rate : Word) : (s.writePcm p fmt rate).cfg = s.cfg := rfl
@[simp] theorem writePcm_status (s : State) (p : PcmBuffer) (fmt : BitVec 2) (rate : Word) : (s.writePcm p fmt rate).status = s.status := rfl
@[simp] theorem writePcm_res0 (s : State) (p : PcmBuffer) (fmt : BitVec 2) (rate : Word) : (s.writePcm p fmt rate).res0 = s.res0 := rfl
@[simp] theorem writePcm_power (s : State) (p : PcmBuffer) (fmt : BitVec 2) (rate : Word) : (s.writePcm p fmt rate).power = s.power := rfl
@[simp] theorem writePcm_wavRate (s : State) (p : PcmBuffer) (fmt : BitVec 2) (rate : Word) : (s.writePcm p fmt rate).wavRate = s.wavRate := rfl
@[simp] theorem writePcm_pcmRate (s : State) (p : PcmBuffer) (fmt : BitVec 2) (rate : Word) : (s.writePcm p fmt rate).pcmRate = rate := rfl
@[simp] theorem writePcm_pcmFmt (s : State) (p : PcmBuffer) (fmt : BitVec 2) (rate : Word) : (s.writePcm p fmt rate).pcmFmt = fmt := rfl
@[simp] theorem writePcm_txt (s : State) (p : PcmBuffer) (fmt : BitVec 2) (rate : Word) : (s.writePcm p fmt rate).txt = s.txt := rfl
@[simp] theorem writePcm_bit (s : State) (p : PcmBuffer) (fmt : BitVec 2) (rate : Word) : (s.writePcm p fmt rate).bit = s.bit := rfl
@[simp] theorem writePcm_wav (s : State) (p : PcmBuffer) (fmt : BitVec 2) (rate : Word) : (s.writePcm p fmt rate).wav = s.wav := rfl
@[simp] theorem writePcm_pcm (s : State) (p : PcmBuffer) (fmt : BitVec 2) (rate : Word) : (s.writePcm p fmt rate).pcm = p := rfl
@[simp] theorem writePcm_inputs (s : State) (p : PcmBuffer) (fmt : BitVec 2) (rate : Word) : (s.writePcm p fmt rate).inputs = s.inputs := rfl

@[simp] theorem complete_readPcm (insuf trunc : Bool) (res : Word) (s : State) : (complete insuf trunc res s).readPcm = s.readPcm := rfl
@[simp] theorem raise_readPcm (f : CmdFault) (info : Nat) (s : State) : (raise f info s).readPcm = s.readPcm := rfl
@[simp] theorem writeWav_readPcm (s : State) (w : List Amp) (rate : Word) : (s.writeWav w rate).readPcm = s.readPcm := rfl

@[simp] theorem completed_busy (insuf trunc : Bool) : (Status.completed insuf trunc).busy = false := rfl
@[simp] theorem completed_insuf (insuf trunc : Bool) : (Status.completed insuf trunc).insuf = insuf := rfl
@[simp] theorem completed_trunc (insuf trunc : Bool) : (Status.completed insuf trunc).trunc = trunc := rfl
@[simp] theorem completed_err (insuf trunc : Bool) : (Status.completed insuf trunc).err = 0 := rfl
@[simp] theorem faulted_busy (f : CmdFault) : (Status.faulted f).busy = false := rfl
@[simp] theorem faulted_insuf (f : CmdFault) : (Status.faulted f).insuf = false := rfl
@[simp] theorem faulted_trunc (f : CmdFault) : (Status.faulted f).trunc = false := rfl
@[simp] theorem faulted_err (f : CmdFault) : (Status.faulted f).err = f.code := rfl

theorem CmdFault.code_ne_zero (f : CmdFault) : f.code ≠ 0 := by cases f <;> decide

theorem CmdFault.code_le (f : CmdFault) : f.code.toNat ≤ 6 := by cases f <;> decide

theorem completed_inv {insuf trunc : Bool} (h : insuf = true → trunc = false) :
    (Status.completed insuf trunc).Inv :=
  ⟨rfl, by simp, h, by simp⟩

theorem faulted_inv (f : CmdFault) : (Status.faulted f).Inv :=
  ⟨rfl, f.code_le, by simp, by simp⟩

end Sys2Proof.Machine
end

