-- ==== Sys2Proof/Laws/Ops.lean ====
section
/-! SUPPORT. What the shared operations do: samples-per-bit, the setter check, the capacity check. -/

namespace Sys2Proof.Machine

@[simp] theorem fits_none (n : Nat) : fits none n = true := rfl

@[simp] theorem fits_some (c n : Nat) : fits (some c) n = true ↔ n ≤ c := by simp [fits]

theorem fits_mono {cap : Option Nat} {m n : Nat} (h : m ≤ n) (hn : fits cap n = true) : fits cap m = true := by
  cases cap with
  | none => rfl
  | some c => simp only [fits_some] at hn ⊢; omega

@[simp] theorem fits_zero (cap : Option Nat) : fits cap 0 = true := by cases cap <;> simp

/-- The quotient rounded down or up: the two cases of samples-per-bit, with what decides between them. -/
theorem samplesPerBit_cases (tie : RoundTie) (sr baud : Nat) :
    (samplesPerBit tie sr baud = sr / baud ∧ 2 * (sr % baud) ≤ baud ∧
        (tie = .toEven → 2 * (sr % baud) = baud → sr / baud % 2 = 0)) ∨
      (samplesPerBit tie sr baud = sr / baud + 1 ∧ baud ≤ 2 * (sr % baud) ∧
        (tie = .toEven → 2 * (sr % baud) = baud → sr / baud % 2 = 1)) := by
  cases tie <;> simp only [samplesPerBit] <;> split_ifs <;> simp <;> omega

/-- Samples-per-bit is the nearest integer to the exact quotient (00_scope.md R11). -/
theorem samplesPerBit_nearest (tie : RoundTie) (sr : Nat) {baud : Nat} (h : 1 ≤ baud) :
    2 * sr ≤ (2 * samplesPerBit tie sr baud + 1) * baud ∧
      2 * samplesPerBit tie sr baud * baud ≤ 2 * sr + baud := by
  have hdiv : baud * (sr / baud) + sr % baud = sr := Nat.div_add_mod sr baud
  have hlt : sr % baud < baud := Nat.mod_lt _ h
  rcases samplesPerBit_cases tie sr baud with ⟨h1, h2, -⟩ | ⟨h1, h2, -⟩ <;> rw [h1] <;>
    constructor <;> nlinarith [Nat.zero_le (sr % baud)]

/-- An exact half goes to the even integer under the default tie rule (00_scope.md R11). -/
theorem samplesPerBit_tie_even (sr baud : Nat) (ht : 2 * (sr % baud) = baud) :
    samplesPerBit .toEven sr baud % 2 = 0 := by
  rcases samplesPerBit_cases .toEven sr baud with ⟨h1, -, h3⟩ | ⟨h1, -, h3⟩ <;> rw [h1] <;>
    have := h3 rfl ht <;> omega

theorem samplesPerBit_le (tie : RoundTie) (sr baud : Nat) (h : 1 ≤ baud) : samplesPerBit tie sr baud ≤ sr := by
  have hdiv : baud * (sr / baud) + sr % baud = sr := Nat.div_add_mod sr baud
  have h1 : sr / baud ≤ baud * (sr / baud) := Nat.le_mul_of_pos_left _ h
  rcases samplesPerBit_cases tie sr baud with ⟨h2, -, -⟩ | ⟨h2, h3, -⟩ <;> omega

/-- Samples-per-bit of two register values fits a register. -/
theorem samplesPerBit_toNat (tie : RoundTie) (sr baud : Word) (h : 1 ≤ baud.toNat) :
    (BitVec.ofNat 32 (samplesPerBit tie sr.toNat baud.toNat)).toNat = samplesPerBit tie sr.toNat baud.toNat := by
  rw [BitVec.toNat_ofNat]
  exact Nat.mod_eq_of_lt (lt_of_le_of_lt (samplesPerBit_le tie _ _ h) sr.isLt)

/-- Samples-per-bit is 0 exactly when the quotient is at most one half, ties to even (40_config.md R111). -/
theorem samplesPerBit_toEven_eq_zero (sr : Nat) {baud : Nat} (h : 1 ≤ baud) :
    samplesPerBit .toEven sr baud = 0 ↔ 2 * sr ≤ baud := by
  have hdiv : baud * (sr / baud) + sr % baud = sr := Nat.div_add_mod sr baud
  have hlt : sr % baud < baud := Nat.mod_lt _ h
  have hq : sr / baud = 0 ∨ (1 ≤ sr / baud ∧ baud ≤ baud * (sr / baud)) := by
    rcases Nat.eq_zero_or_pos (sr / baud) with h0 | h0
    · exact .inl h0
    · exact .inr ⟨h0, Nat.le_mul_of_pos_right _ h0⟩
  have h4 : sr / baud = 0 → baud * (sr / baud) = 0 := fun h0 => by rw [h0, Nat.mul_zero]
  rcases samplesPerBit_cases .toEven sr baud with ⟨h1, h2, -⟩ | ⟨h1, h2, h3⟩
  · rw [h1]; omega
  · have h5 := h3 rfl
    rw [h1]; omega

theorem setCheck_iff (tie : RoundTie) (sr baud : Nat) :
    setCheck tie sr baud = true ↔ sr ≠ 0 ∧ baud ≠ 0 ∧ samplesPerBit tie sr baud ≠ 0 := by
  simp [setCheck]

/-- The recomputed configuration satisfies R22 when the setter check passes. -/
theorem recompute_inv {tie : RoundTie} {c : ConfigRegs} (h : setCheck tie c.sr.toNat c.baud.toNat = true) :
    (c.recompute tie).Inv tie := by
  obtain ⟨h1, h2, h3⟩ := (setCheck_iff _ _ _).mp h
  have h4 := samplesPerBit_toNat tie c.sr c.baud (by omega)
  exact ⟨by show 1 ≤ c.sr.toNat; omega, by show 1 ≤ c.baud.toNat; omega, h4,
    by show 1 ≤ (BitVec.ofNat 32 _).toNat; rw [h4]; omega⟩

theorem default_config_inv (tie : RoundTie) : ConfigRegs.default.Inv tie := by
  cases tie <;> exact ⟨by decide, by decide, by decide, by decide⟩

end Sys2Proof.Machine
end

