-- ==== Sys2Proof/Laws/Frame.lean ====
section
/-! SUPPORT. The Frame Codec: bits and bytes, the marker search, UTF-8 both ways. -/

namespace Sys2Proof.Machine

/-! ## Bits and bytes -/

@[simp] theorem byteBits_length (b : Byte) : (byteBits b).length = 8 := rfl

@[simp] theorem bitsOf_nil : bitsOf [] = [] := rfl

@[simp] theorem bitsOf_cons (b : Byte) (f : List Byte) : bitsOf (b :: f) = byteBits b ++ bitsOf f := rfl

theorem bitsOf_append (f g : List Byte) : bitsOf (f ++ g) = bitsOf f ++ bitsOf g := by
  simp [bitsOf, List.flatMap_append]

@[simp] theorem bitsOf_length (f : List Byte) : (bitsOf f).length = 8 * f.length := by
  induction f with
  | nil => rfl
  | cons b f ih => simp [ih]; omega

/-- Bit `j` of a byte on the wire is bit `7 - j` of its value (20_memory.md R53). -/
theorem byteBits_getElem? (b : Byte) {j : Nat} (h : j < 8) : (byteBits b)[j]? = some (b.getLsbD (7 - j)) := by
  interval_cases j <;> rfl

/-- `BITS_OF(f)[8m + j] = f[m][7 - j]` (41_frame.md R132). -/
theorem bitsOf_getElem? (f : List Byte) {m j : Nat} (hm : m < f.length) (hj : j < 8) :
    (bitsOf f)[8 * m + j]? = some (f[m].getLsbD (7 - j)) := by
  induction f generalizing m with
  | nil => simp at hm
  | cons b f ih =>
    rw [bitsOf_cons]
    cases m with
    | zero => rw [List.getElem?_append_left (by simpa using hj)]; simpa using byteBits_getElem? b hj
    | succ m =>
      rw [List.getElem?_append_right (by simp; omega)]
      have : 8 * (m + 1) + j - (byteBits b).length = 8 * m + j := by simp; omega
      rw [this]
      simpa using ih (by simpa using hm)

theorem byteOf_bits (b : Byte) :
    byteOf (128 * (b.getLsbD 7).toNat + 64 * (b.getLsbD 6).toNat + 32 * (b.getLsbD 5).toNat
      + 16 * (b.getLsbD 4).toNat + 8 * (b.getLsbD 3).toNat + 4 * (b.getLsbD 2).toNat
      + 2 * (b.getLsbD 1).toNat + (b.getLsbD 0).toNat) = b := by
  revert b; decide

theorem pack_byteBits_append (b : Byte) (s : List Bool) : pack (byteBits b ++ s) = b :: pack s := by
  simp only [byteBits, List.cons_append, List.nil_append, pack, byteOf_bits]

/-- Packing undoes `BITS_OF`, whatever follows (41_frame.md R134). -/
theorem pack_bitsOf_append (f : List Byte) (s : List Bool) : pack (bitsOf f ++ s) = f ++ pack s := by
  induction f with
  | nil => rfl
  | cons b f ih => rw [bitsOf_cons, List.append_assoc, pack_byteBits_append, ih]; rfl

theorem pack_short {s : List Bool} (h : s.length < 8) : pack s = [] := by
  match s, h with
  | [], _ | [_], _ | [_, _], _ | [_, _, _], _ | [_, _, _, _], _ | [_, _, _, _, _], _ | [_, _, _, _, _, _], _
  | [_, _, _, _, _, _, _], _ => rfl

@[simp] theorem pack_length (s : List Bool) : (pack s).length = s.length / 8 := by
  induction s using pack.induct with
  | case1 b7 b6 b5 b4 b3 b2 b1 b0 rest ih => simp only [pack, List.length_cons, ih]; omega
  | case2 s h =>
    have : s.length < 8 := by
      match s, h with
      | [], _ | [_], _ | [_, _], _ | [_, _, _], _ | [_, _, _, _], _ | [_, _, _, _, _], _
      | [_, _, _, _, _, _], _ | [_, _, _, _, _, _, _], _ => simp
      | b7 :: b6 :: b5 :: b4 :: b3 :: b2 :: b1 :: b0 :: rest, h =>
        exact absurd rfl (h b7 b6 b5 b4 b3 b2 b1 b0 rest)
    rw [pack_short this]; simp; omega

/-! ## The marker -/

theorem marker_isPrefix (y : List Byte) : marker.isPrefixOf y = true ↔ ∃ z, y = marker ++ z := by
  rw [List.isPrefixOf_iff_prefix]
  exact ⟨fun ⟨z, h⟩ => ⟨z, h.symm⟩, fun ⟨z, h⟩ => ⟨z, h.symm⟩⟩

/-- The scan finds the least index at which the marker stands, or none where it stands nowhere
(41_frame.md R135). -/
theorem findMarkerFrom_spec (y : List Byte) (k : Nat) :
    match findMarkerFrom k y with
    | none => ∀ m, ¬ marker.isPrefixOf (y.drop m) = true
    | some n => k ≤ n ∧ marker.isPrefixOf (y.drop (n - k)) = true ∧
        ∀ m, m < n - k → ¬ marker.isPrefixOf (y.drop m) = true := by
  induction y generalizing k with
  | nil => simp [findMarkerFrom, marker]
  | cons b y ih =>
    simp only [findMarkerFrom]
    by_cases h : marker.isPrefixOf (b :: y) = true
    · simp [h]
    · simp only [h, if_false, Bool.false_eq_true]
      have := ih (k + 1)
      cases hf : findMarkerFrom (k + 1) y with
      | none =>
        rw [hf] at this
        intro m
        cases m with
        | zero => simpa using h
        | succ m => simpa using this m
      | some n =>
        rw [hf] at this
        obtain ⟨h1, h2, h3⟩ := this
        have e : n - k = (n - (k + 1)) + 1 := by omega
        refine ⟨by omega, by rw [e]; simpa using h2, ?_⟩
        intro m hm
        cases m with
        | zero => simpa using h
        | succ m => simpa using h3 m (by omega)

theorem findMarker_some {y : List Byte} {k : Nat} (h : findMarker y = some k) :
    marker.isPrefixOf (y.drop k) = true ∧ ∀ m, m < k → ¬ marker.isPrefixOf (y.drop m) = true := by
  have := findMarkerFrom_spec y 0
  unfold findMarker at h
  rw [h] at this
  simpa using this.2

theorem findMarker_none {y : List Byte} (h : findMarker y = none) (m : Nat) :
    ¬ marker.isPrefixOf (y.drop m) = true := by
  have := findMarkerFrom_spec y 0
  unfold findMarker at h
  rw [h] at this
  exact this m

/-- A frame at the very start is found at index 0. -/
theorem findMarker_frame (b : List Byte) (z : List Byte) : findMarker (frame b ++ z) = some 0 := by
  simp [findMarker, frame, marker, findMarkerFrom, List.isPrefixOf]

@[simp] theorem frame_length (b : List Byte) : (frame b).length = 6 + b.length := by
  simp [frame, marker]; omega

/-! ## UTF-8 -/

theorem byteOf_toNat {n : Nat} (h : n < 256) : (byteOf n).toNat = n := by
  simp [byteOf, Nat.mod_eq_of_lt h]

theorem leadLength_eq (b : Byte) :
    leadLength b = if b.toNat ≤ 0x7F then 1 else if 0xC2 ≤ b.toNat ∧ b.toNat ≤ 0xDF then 2
      else if 0xE0 ≤ b.toNat ∧ b.toNat ≤ 0xEF then 3 else if 0xF0 ≤ b.toNat ∧ b.toNat ≤ 0xF4 then 4 else 0 := rfl

theorem isCont_iff (b : Byte) : isCont b = true ↔ 0x80 ≤ b.toNat ∧ b.toNat ≤ 0xBF := by simp [isCont]

theorem secondOk_iff (b0 b1 : Byte) :
    secondOk b0 b1 = true ↔
      (if b0.toNat = 0xE0 then 0xA0 else if b0.toNat = 0xF0 then 0x90 else 0x80) ≤ b1.toNat ∧
        b1.toNat ≤ (if b0.toNat = 0xED then 0x9F else if b0.toNat = 0xF4 then 0x8F else 0xBF) := by
  have e : ∀ n : Nat, n < 256 → (b0 = BitVec.ofNat 8 n ↔ b0.toNat = n) := by
    intro n hn
    rw [← BitVec.toNat_inj, BitVec.toNat_ofNat, Nat.mod_eq_of_lt hn]
  simp only [secondOk, decide_eq_true_eq]
  rw [show (0xE0 : Byte) = BitVec.ofNat 8 0xE0 from rfl, show (0xF0 : Byte) = BitVec.ofNat 8 0xF0 from rfl,
    show (0xED : Byte) = BitVec.ofNat 8 0xED from rfl, show (0xF4 : Byte) = BitVec.ofNat 8 0xF4 from rfl]
  simp only [e 0xE0 (by omega), e 0xF0 (by omega), e 0xED (by omega), e 0xF4 (by omega)]

/-- The bytes of a code point are a well-formed sequence, whatever follows, and give the code point back
(41_frame.md R136). -/
theorem utf8At_encPoint {c : CodePoint} {b : List Byte} (h : utf8EncPoint c = some b) (z : List Byte) :
    utf8At (b ++ z) = some (b.length, c) := by
  have back : ∀ n, n = c.toNat → (BitVec.ofNat 21 n) = c := by
    intro n hn; subst hn; simp
  unfold utf8EncPoint at h
  simp only at h
  have hc := c.isLt
  split at h
  · next h1 =>
    obtain rfl := Option.some.inj h
    have e0 := byteOf_toNat (n := c.toNat) (by omega)
    have hl : leadLength (byteOf c.toNat) = 1 := by rw [leadLength_eq, e0, if_pos h1]
    simp only [List.cons_append, List.nil_append, utf8At, hl, e0, List.length_cons, List.length_nil]
    rw [back _ rfl]
  · split at h
    · next h1 h2 =>
      obtain rfl := Option.some.inj h
      have e0 := byteOf_toNat (n := 0xC0 + c.toNat / 64) (by omega)
      have e1 := byteOf_toNat (n := 0x80 + c.toNat % 64) (by omega)
      have hl : leadLength (byteOf (0xC0 + c.toNat / 64)) = 2 := by
        rw [leadLength_eq, e0, if_neg (by omega), if_pos (by omega)]
      have h1 : isCont (byteOf (0x80 + c.toNat % 64)) = true := by rw [isCont_iff, e1]; omega
      simp only [List.cons_append, List.nil_append, utf8At, hl, h1, e0, e1, if_true, List.length_cons,
        List.length_nil]
      rw [back _ (by omega)]
    · split at h
      · exact absurd h (by simp)
      · split at h
        · next h1 h2 h3 h4 =>
          obtain rfl := Option.some.inj h
          have e0 := byteOf_toNat (n := 0xE0 + c.toNat / 4096) (by omega)
          have e1 := byteOf_toNat (n := 0x80 + c.toNat / 64 % 64) (by omega)
          have e2 := byteOf_toNat (n := 0x80 + c.toNat % 64) (by omega)
          have hl : leadLength (byteOf (0xE0 + c.toNat / 4096)) = 3 := by
            rw [leadLength_eq, e0, if_neg (by omega), if_neg (by omega), if_pos (by omega)]
          have k1 : secondOk (byteOf (0xE0 + c.toNat / 4096)) (byteOf (0x80 + c.toNat / 64 % 64)) = true := by
            rw [secondOk_iff, e0, e1]; split_ifs <;> omega
          have k2 : isCont (byteOf (0x80 + c.toNat % 64)) = true := by rw [isCont_iff, e2]; omega
          simp only [List.cons_append, List.nil_append, utf8At, hl, k1, k2, e0, e1, e2, Bool.and_self, if_true,
            List.length_cons, List.length_nil]
          rw [back _ (by omega)]
        · split at h
          · next h1 h2 h3 h4 h5 =>
            obtain rfl := Option.some.inj h
            have e0 := byteOf_toNat (n := 0xF0 + c.toNat / 262144) (by omega)
            have e1 := byteOf_toNat (n := 0x80 + c.toNat / 4096 % 64) (by omega)
            have e2 := byteOf_toNat (n := 0x80 + c.toNat / 64 % 64) (by omega)
            have e3 := byteOf_toNat (n := 0x80 + c.toNat % 64) (by omega)
            have hl : leadLength (byteOf (0xF0 + c.toNat / 262144)) = 4 := by
              rw [leadLength_eq, e0, if_neg (by omega), if_neg (by omega), if_neg (by omega), if_pos (by omega)]
            have k1 : secondOk (byteOf (0xF0 + c.toNat / 262144)) (byteOf (0x80 + c.toNat / 4096 % 64)) = true := by
              rw [secondOk_iff, e0, e1]; split_ifs <;> omega
            have k2 : isCont (byteOf (0x80 + c.toNat / 64 % 64)) = true := by rw [isCont_iff, e2]; omega
            have k3 : isCont (byteOf (0x80 + c.toNat % 64)) = true := by rw [isCont_iff, e3]; omega
            simp only [List.cons_append, List.nil_append, utf8At, hl, k1, k2, k3, e0, e1, e2, e3, Bool.and_self,
              if_true, List.length_cons, List.length_nil]
            rw [back _ (by omega)]
          · exact absurd h (by simp)

theorem utf8EncPoint_ne_nil {c : CodePoint} {b : List Byte} (h : utf8EncPoint c = some b) : b ≠ [] := by
  unfold utf8EncPoint at h
  simp only at h
  split_ifs at h <;> obtain rfl := Option.some.inj h <;> simp

/-- The bytes of a text, element by element. -/
theorem utf8EncFrom_cons {i : Nat} {c : CodePoint} {t : List CodePoint} {b : List Byte}
    (h : utf8EncFrom i (c :: t) = .ok b) :
    ∃ b0 bs, utf8EncPoint c = some b0 ∧ utf8EncFrom (i + 1) t = .ok bs ∧ b = b0 ++ bs := by
  simp only [utf8EncFrom] at h
  split at h
  · simp at h
  · next b0 h0 =>
    split at h
    · simp at h
    · next bs hs => exact ⟨b0, bs, h0, hs, by simpa using h.symm⟩

theorem utf8DecLoop_encFrom (policy : Utf8Err) {t : List CodePoint} {i : Nat} {b : List Byte} {fuel : Nat}
    (h : utf8EncFrom i t = .ok b) (hf : b.length ≤ fuel) : utf8DecLoop policy fuel b = t := by
  induction t generalizing i b fuel with
  | nil =>
    obtain rfl : [] = b := by simpa [utf8EncFrom] using h
    cases fuel <;> rfl
  | cons c t ih =>
    obtain ⟨b0, bs, h0, hs, rfl⟩ := utf8EncFrom_cons h
    have hne := utf8EncPoint_ne_nil h0
    have hpos : 1 ≤ b0.length := List.length_pos_iff.mpr hne
    rw [List.length_append] at hf
    cases fuel with
    | zero => omega
    | succ fuel =>
      have he : (b0 ++ bs).isEmpty = false := by simp [hne]
      simp only [utf8DecLoop, he, Bool.false_eq_true, if_false, utf8At_encPoint h0 bs, List.drop_left]
      rw [ih hs (by omega)]

/-- Decoding what was encoded gives the text back, under every replacement policy (41_frame.md R137). -/
theorem utf8Dec_enc (policy : Utf8Err) {t : List CodePoint} {b : List Byte} (h : utf8Enc t = .ok b) :
    utf8Dec policy b = t :=
  utf8DecLoop_encFrom policy h le_rfl

theorem utf8At_length_pos {y : List Byte} {n : Nat} {c : CodePoint} (h : utf8At y = some (n, c)) : 1 ≤ n := by
  unfold utf8At at h
  split at h
  · simp at h
  · split at h <;> (try split_ifs at h) <;> simp at h <;> omega

theorem onIllFormed_emits (policy : Utf8Err) (y : List Byte) : (onIllFormed policy y).1.length ≤ 1 := by
  cases policy <;> simp [onIllFormed]

theorem onIllFormed_passes (policy : Utf8Err) (y : List Byte) : 1 ≤ (onIllFormed policy y).2 := by
  cases policy
  · simp [onIllFormed]
  · simp only [onIllFormed, illFormedPrefix]
    split <;> (try split_ifs) <;> simp
  · simp [onIllFormed]

theorem utf8DecLoop_length (policy : Utf8Err) (fuel : Nat) (y : List Byte) :
    (utf8DecLoop policy fuel y).length ≤ y.length := by
  induction fuel generalizing y with
  | zero => simp [utf8DecLoop]
  | succ fuel ih =>
    cases hy : y with
    | nil => simp [utf8DecLoop]
    | cons b rest =>
      rw [← hy]
      have hlen : y.length = rest.length + 1 := by simp [hy]
      have he : y.isEmpty = false := by simp [hy]
      simp only [utf8DecLoop, he, Bool.false_eq_true, if_false]
      split
      · next n c h =>
        have := utf8At_length_pos h
        have := ih (y.drop n)
        simp only [List.length_cons, List.length_drop] at *
        omega
      · have := onIllFormed_emits policy y
        have := onIllFormed_passes policy y
        have := ih (y.drop (onIllFormed policy y).2)
        simp only [List.length_append, List.length_drop] at *
        omega

/-- The decoder never emits more code points than there are bytes (41_frame.md R137). -/
theorem utf8Dec_length (policy : Utf8Err) (y : List Byte) : (utf8Dec policy y).length ≤ y.length :=
  utf8DecLoop_length policy _ y

/-! ## The converse of encoding one code point, and cuts -/

theorem leadLength_range {b : Byte} {k : Nat} (h : leadLength b = k) (hk : k ≠ 0) :
    (k = 1 ∧ b.toNat ≤ 0x7F) ∨ (k = 2 ∧ 0xC2 ≤ b.toNat ∧ b.toNat ≤ 0xDF) ∨ (k = 3 ∧ 0xE0 ≤ b.toNat ∧ b.toNat ≤ 0xEF)
      ∨ (k = 4 ∧ 0xF0 ≤ b.toNat ∧ b.toNat ≤ 0xF4) := by
  rw [leadLength_eq] at h
  split_ifs at h <;> omega

theorem byteOf_eq {n : Nat} {b : Byte} (h : n = b.toNat) : byteOf n = b := by subst h; simp [byteOf]

/-- A well-formed sequence is the encoding of its code point (41_frame.md R136). -/
theorem encPoint_utf8At {y : List Byte} {n : Nat} {c : CodePoint} (h : utf8At y = some (n, c)) :
    ∃ b z, utf8EncPoint c = some b ∧ b.length = n ∧ y = b ++ z := by
  unfold utf8At at h
  split at h
  · simp at h
  · next b0 rest =>
    split at h
    · next hl =>
      simp only [Option.some.injEq, Prod.mk.injEq] at h
      obtain ⟨rfl, rfl⟩ := h
      have := leadLength_range hl (by omega)
      have e : (BitVec.ofNat 21 b0.toNat).toNat = b0.toNat := by simp; omega
      refine ⟨[b0], _, ?_, rfl, rfl⟩
      unfold utf8EncPoint; simp only [e]
      rw [if_pos (by omega), byteOf_eq rfl]
    · next b1 rest hl =>
      split_ifs at h with h1
      simp only [Option.some.injEq, Prod.mk.injEq] at h
      obtain ⟨rfl, rfl⟩ := h
      have := leadLength_range hl (by omega)
      rw [isCont_iff] at h1
      have e : (BitVec.ofNat 21 (b0.toNat % 32 * 64 + b1.toNat % 64)).toNat = b0.toNat % 32 * 64 + b1.toNat % 64 := by
        simp; omega
      refine ⟨[b0, b1], rest, ?_, rfl, rfl⟩
      unfold utf8EncPoint; simp only [e]
      rw [if_neg (by omega), if_pos (by omega), byteOf_eq (b := b0) (by omega), byteOf_eq (b := b1) (by omega)]
    · next b1 b2 rest hl =>
      split_ifs at h with h1
      simp only [Option.some.injEq, Prod.mk.injEq] at h
      obtain ⟨rfl, rfl⟩ := h
      have := leadLength_range hl (by omega)
      rw [Bool.and_eq_true, isCont_iff, secondOk_iff] at h1
      obtain ⟨h1, h2⟩ := h1
      have e : (BitVec.ofNat 21 (b0.toNat % 16 * 4096 + b1.toNat % 64 * 64 + b2.toNat % 64)).toNat =
          b0.toNat % 16 * 4096 + b1.toNat % 64 * 64 + b2.toNat % 64 := by
        simp; omega
      refine ⟨[b0, b1, b2], rest, ?_, rfl, rfl⟩
      unfold utf8EncPoint; simp only [e]
      split_ifs at h1 <;>
      (rw [if_neg (by omega), if_neg (by omega), if_neg (by omega), if_pos (by omega),
        byteOf_eq (b := b0) (by omega), byteOf_eq (b := b1) (by omega), byteOf_eq (b := b2) (by omega)])
    · next b1 b2 b3 rest hl =>
      split_ifs at h with h1
      simp only [Option.some.injEq, Prod.mk.injEq] at h
      obtain ⟨rfl, rfl⟩ := h
      have := leadLength_range hl (by omega)
      rw [Bool.and_eq_true, Bool.and_eq_true, isCont_iff, isCont_iff, secondOk_iff] at h1
      obtain ⟨⟨h1, h2⟩, h3⟩ := h1
      have e : (BitVec.ofNat 21 (b0.toNat % 8 * 262144 + b1.toNat % 64 * 4096 + b2.toNat % 64 * 64
          + b3.toNat % 64)).toNat =
          b0.toNat % 8 * 262144 + b1.toNat % 64 * 4096 + b2.toNat % 64 * 64 + b3.toNat % 64 := by
        simp; omega
      refine ⟨[b0, b1, b2, b3], rest, ?_, rfl, rfl⟩
      unfold utf8EncPoint; simp only [e]
      split_ifs at h1 <;>
      (rw [if_neg (by omega), if_neg (by omega), if_neg (by omega), if_neg (by omega), if_pos (by omega),
        byteOf_eq (b := b0) (by omega), byteOf_eq (b := b1) (by omega), byteOf_eq (b := b2) (by omega), byteOf_eq (b := b3) (by omega)])
    · simp at h

/-- The bits of a cut frame are the bits of its whole bytes and fewer than eight more. -/
theorem bitsOf_take (f : List Byte) (n : Nat) :
    ∃ tail, (bitsOf f).take n = bitsOf (f.take (n / 8)) ++ tail ∧ tail.length < 8 := by
  induction f generalizing n with
  | nil => exact ⟨[], by simp, by simp⟩
  | cons b f ih =>
    by_cases h : n < 8
    · refine ⟨(bitsOf (b :: f)).take n, by simp [Nat.div_eq_of_lt h], by simp; omega⟩
    · obtain ⟨t, h1, h2⟩ := ih (n - 8)
      refine ⟨t, ?_, h2⟩
      rw [bitsOf_cons, List.take_append, List.take_of_length_le (by simp; omega), byteBits_length, h1]
      rw [show n / 8 = (n - 8) / 8 + 1 by omega]
      simp

theorem pack_take (f : List Byte) (n : Nat) : pack ((bitsOf f).take n) = f.take (n / 8) := by
  obtain ⟨t, h1, h2⟩ := bitsOf_take f n
  rw [h1, pack_bitsOf_append, pack_short h2, List.append_nil]

theorem encFrom_shift (t : List CodePoint) (i k : Nat) :
    utf8EncFrom (i + k) t = match utf8EncFrom i t with | .ok b => .ok b | .error j => .error (j + k) := by
  induction t generalizing i with
  | nil => rfl
  | cons c t ih =>
    simp only [utf8EncFrom]
    cases utf8EncPoint c with
    | none => rfl
    | some b =>
      simp only
      rw [show i + k + 1 = (i + 1) + k by ring, ih (i + 1)]
      cases utf8EncFrom (i + 1) t <;> rfl

/-- Encoding fails with the index of the first element that has no encoding (41_frame.md R130). -/
theorem encFrom_fail (u : List CodePoint) (c : CodePoint) (t : List CodePoint) (i : Nat) (bs : List Byte)
    (h : utf8EncPoint c = none)
    (hu : utf8EncFrom i u = .ok bs) : utf8EncFrom i (u ++ c :: t) = .error (i + u.length) := by
  induction u generalizing i bs with
  | nil => simp [utf8EncFrom, h]
  | cons d u ih =>
    obtain ⟨b0, b1, h0, h1, -⟩ := utf8EncFrom_cons hu
    have := ih (i + 1) b1 h1
    simp only [List.cons_append, utf8EncFrom, h0, this, List.length_cons]
    congr 1; omega

/-- Which code points have no encoding (41_frame.md R130). -/
theorem encPoint_none (c : CodePoint) :
    utf8EncPoint c = none ↔ ((0xD800 ≤ c.toNat ∧ c.toNat ≤ 0xDFFF) ∨ 0x10FFFF < c.toNat) := by
  unfold utf8EncPoint; simp only
  split_ifs <;> simp <;> omega

theorem pack_zeros (n : Nat) : ∀ b ∈ pack (List.replicate n false), b = 0 := by
  intro b hb
  induction n using Nat.strongRecOn with
  | _ n ih =>
    by_cases h : n < 8
    · rw [pack_short (by simpa using h)] at hb; simp at hb
    · obtain ⟨m, rfl⟩ : ∃ m, n = m + 8 := ⟨n - 8, by omega⟩
      simp only [List.replicate_succ, pack, List.mem_cons] at hb
      rcases hb with rfl | hb
      · rfl
      · exact ih m (by omega) hb

theorem findMarker_zeros {y : List Byte} (h : ∀ b ∈ y, b = 0) : findMarker y = none := by
  cases hf : findMarker y with
  | none => rfl
  | some k =>
    obtain ⟨h1, -⟩ := findMarker_some hf
    obtain ⟨z, hz⟩ := (marker_isPrefix _).mp h1
    have : (0xAA : Byte) ∈ y.drop k := by rw [hz]; simp [marker]
    have := h _ (List.mem_of_mem_drop this)
    exact absurd this (by decide)

end Sys2Proof.Machine
end

