-- ==== Sys2Proof/Laws/Codec.lean ====
section
/-! SUPPORT. The parse of a bit sequence that begins with a frame, and when a text has frame bits. -/

namespace Sys2Proof.Machine

/-- The length field of a frame at the start of a byte sequence is the payload's length (30_encoding.md R82). -/
theorem lengthField_frame {b : List Byte} (h : b.length ≤ 65535) (z : List Byte) :
    lengthField (frame b ++ z) 0 = b.length := by
  have e1 := byteOf_toNat (n := b.length % 256) (by omega)
  have e2 := byteOf_toNat (n := b.length / 256) (by omega)
  simp [lengthField, frame, marker, List.getD, e1, e2]
  omega

theorem slice_frame (b z : List Byte) (n : Nat) : slice (frame b ++ z) 6 n = (b ++ z).take n := by
  simp [slice, frame, marker]

/-- A bit sequence that begins with a frame parses to the frame's payload, whatever follows (41_frame.md R138,
R139). -/
theorem parseFrame_frame (policy : Utf8Err) {b : List Byte} (h : b.length ≤ 65535) (tail : List Bool) :
    parseFrame policy (bitsOf (frame b) ++ tail) =
      { text := utf8Dec policy b, insuf := false, trunc := false } := by
  have hp := pack_bitsOf_append (frame b) tail
  have hl : ¬ (bitsOf (frame b) ++ tail).length < minBits := by simp [minBits]; omega
  unfold parseFrame
  rw [if_neg hl, hp]
  simp only [findMarker_frame, lengthField_frame h]
  have h6 : ¬ (frame b ++ pack tail).length < 0 + 6 := by simp; omega
  have hav : b.length ≤ (frame b ++ pack tail).length - (0 + 6) := by
    simp only [List.length_append, frame_length]; omega
  rw [if_neg h6, Nat.min_eq_left hav, Nat.zero_add, slice_frame, List.take_left]
  simp only [Parsed.mk.injEq, true_and]
  exact decide_eq_false (by rw [Nat.zero_add] at hav; omega)

/-- The parse takes one of its three empty exits, or decodes the payload bytes that are there (41_frame.md R138). -/
theorem parseFrame_cases (policy : Utf8Err) (bits : List Bool) :
    (parseFrame policy bits = Parsed.insufficient ∧
        (bits.length < 48 ∨ findMarker (pack bits) = none ∨
          ∃ k, findMarker (pack bits) = some k ∧ (pack bits).length < k + 6)) ∨
      ∃ k, 48 ≤ bits.length ∧ findMarker (pack bits) = some k ∧ k + 6 ≤ (pack bits).length ∧
        parseFrame policy bits =
          { text := utf8Dec policy
              (slice (pack bits) (k + 6) (min (lengthField (pack bits) k) ((pack bits).length - (k + 6))))
            insuf := false
            trunc := decide ((pack bits).length - (k + 6) < lengthField (pack bits) k) } := by
  by_cases h1 : bits.length < 48
  · exact .inl ⟨by unfold parseFrame minBits; rw [if_pos h1], .inl h1⟩
  · cases h2 : findMarker (pack bits) with
    | none => exact .inl ⟨by unfold parseFrame minBits; rw [if_neg h1]; simp only [h2], .inr (.inl rfl)⟩
    | some k =>
      by_cases h3 : (pack bits).length < k + 6
      · refine .inl ⟨?_, .inr (.inr ⟨k, rfl, h3⟩)⟩
        unfold parseFrame minBits; rw [if_neg h1]; simp only [h2, if_pos h3]
      · refine .inr ⟨k, by omega, rfl, by omega, ?_⟩
        unfold parseFrame minBits; rw [if_neg h1]; simp only [h2, if_neg h3]

/-- The parse reports `INSUF` exactly with its empty exits (60_exceptions.md R247). -/
theorem parseFrame_insuf {policy : Utf8Err} {bits : List Bool} (h : (parseFrame policy bits).insuf = true) :
    parseFrame policy bits = Parsed.insufficient := by
  rcases parseFrame_cases policy bits with ⟨h1, -⟩ | ⟨k, -, -, -, h1⟩
  · exact h1
  · rw [h1] at h; exact absurd h (by simp)

theorem parseFrame_one_flag (policy : Utf8Err) (bits : List Bool) (h : (parseFrame policy bits).insuf = true) :
    (parseFrame policy bits).trunc = false := by
  rw [parseFrame_insuf h]; rfl

/-- When a text has frame bits (41_frame.md R133). -/
theorem frameBits_ok {cap : Option Nat} {t : List CodePoint} {bits : List Bool} :
    frameBits cap t = .ok bits ↔
      ∃ b, utf8Enc t = .ok b ∧ b.length ≤ lenMax ∧ fits cap (48 + 8 * b.length) = true ∧ bits = bitsOf (frame b) := by
  unfold frameBits
  cases utf8Enc t with
  | error i => simp
  | ok b =>
    simp only
    split_ifs with h1 h2
    · simp [show ¬ b.length ≤ lenMax by omega]
    · simp [h2, show b.length ≤ lenMax by omega, eq_comm (a := bits)]
    · simp [h2]

theorem bitsOf_frame_length (b : List Byte) : (bitsOf (frame b)).length = 48 + 8 * b.length := by
  simp; omega

theorem parseFrame_text_length (policy : Utf8Err) (bits : List Bool) :
    (parseFrame policy bits).text.length ≤ bits.length / 8 := by
  rcases parseFrame_cases policy bits with ⟨h, -⟩ | ⟨k, -, -, -, h⟩
  · rw [h]; exact Nat.zero_le _
  · rw [h]
    refine (utf8Dec_length _ _).trans ?_
    simp only [slice, List.length_take, List.length_drop, pack_length]; omega

/-- A frame after whole bytes is found when its own marker is the first (41_frame.md R139). -/
theorem parseFrame_prefixed (policy : Utf8Err) {b pre : List Byte} (h : b.length ≤ 65535)
    (hm : findMarker (pre ++ frame b) = some pre.length) (tail : List Bool) :
    parseFrame policy (bitsOf pre ++ bitsOf (frame b) ++ tail) =
      { text := utf8Dec policy b, insuf := false, trunc := false } := by
  rw [← bitsOf_append]
  have hp := pack_bitsOf_append (pre ++ frame b) tail
  have hm2 : findMarker (pre ++ frame b ++ pack tail) = some pre.length := by
    obtain ⟨h1, h2⟩ := findMarker_some hm
    have g1 : marker.isPrefixOf ((pre ++ frame b ++ pack tail).drop pre.length) = true := by
      rw [List.append_assoc, List.drop_left]; simp [frame, marker, List.isPrefixOf]
    cases hx : findMarker (pre ++ frame b ++ pack tail) with
    | none => exact absurd g1 (findMarker_none hx _)
    | some n =>
      obtain ⟨a, c⟩ := findMarker_some hx
      rcases Nat.lt_trichotomy n pre.length with hl | hl | hl
      · exfalso
        apply h2 n hl
        rw [List.isPrefixOf_iff_prefix] at a ⊢
        rw [List.drop_append_of_le_length (by simp; omega)] at a
        refine List.prefix_of_prefix_length_le a (List.prefix_append _ _) ?_
        simp [marker]; omega
      · rw [hl]
      · exact absurd g1 (c _ hl)
  rcases parseFrame_cases policy (bitsOf (pre ++ frame b) ++ tail) with ⟨-, hx⟩ | ⟨k, h1, h2, h3, h4⟩
  · rw [hp, hm2] at hx
    rcases hx with hx | hx | ⟨k, hx, hx'⟩
    · simp at hx; omega
    · cases hx
    · cases hx; simp at hx'; omega
  · rw [hp] at h2 h3 h4
    rw [hm2] at h2; cases h2
    have hl : lengthField (pre ++ frame b ++ pack tail) pre.length = b.length := by
      have e1 := byteOf_toNat (n := b.length % 256) (by omega)
      have e2 := byteOf_toNat (n := b.length / 256) (by omega)
      simp [lengthField, frame, marker, List.getD, List.append_assoc, e1, e2]
      omega
    have hs : slice (pre ++ frame b ++ pack tail) (pre.length + 6) b.length = b := by
      unfold slice
      rw [← List.drop_drop, List.append_assoc, List.drop_left]
      simp [frame, marker]
    have hlen : b.length ≤ (pre ++ frame b ++ pack tail).length - (pre.length + 6) := by simp; omega
    rw [hl, Nat.min_eq_left hlen, hs] at h4
    rw [h4]; simp only [Parsed.mk.injEq, true_and]
    exact decide_eq_false (by omega)

/-- Zeros hold no marker (44_demod.md R200). -/
theorem parseFrame_zeros (p : Utf8Err) (n : Nat) : parseFrame p (List.replicate n false) = Parsed.insufficient := by
  rcases parseFrame_cases p (List.replicate n false) with ⟨h1, -⟩ | ⟨k, h1, h2, h3, -⟩
  · exact h1
  · rw [findMarker_zeros (pack_zeros _)] at h2; cases h2

end Sys2Proof.Machine
end

