-- ==== Sys2Proof/Laws/Detect.lean ====
section
/-! SUPPORT. The correlator in closed form, and the sign and scaling of the power, in exact numerics. -/

namespace Sys2Proof.Machine

/-- Nothing is less than itself (00_scope.md R12). -/
theorem lt_irrefl {num : Num} {val : Amp → ℝ} (h : ExactNum num val) (a : Amp) : num.lt a a = false := by
  rw [← Bool.not_eq_true, h.lt_iff]; simp

theorem lt_false_iff {num : Num} {val : Amp → ℝ} (h : ExactNum num val) (a b : Amp) :
    num.lt a b = false ↔ val b ≤ val a := by
  rw [← Bool.not_eq_true, h.lt_iff, not_lt]

/-- The correlation sums from phase `p`, in closed form (43_detect.md R181). -/
theorem correlate_eq {num : Num} {val : Amp → ℝ} (h : ExactNum num val) (f rate : Nat) (seg : List Amp) {p : Nat}
    (accI accQ : Amp) (hp : p % rate = p) :
    val (correlate num f rate seg p accI accQ).1 = val accI +
        ∑ n ∈ Finset.range seg.length, val (seg.getD n (.rat 0)) * val (num.sin ((p + f * n) % rate) rate) ∧
      val (correlate num f rate seg p accI accQ).2 = val accQ +
        ∑ n ∈ Finset.range seg.length, val (seg.getD n (.rat 0)) * val (num.cos ((p + f * n) % rate) rate) := by
  induction seg generalizing p accI accQ with
  | nil => simp [correlate]
  | cons x seg ih =>
    have h1 : ncoStep f rate p % rate = ncoStep f rate p := Nat.mod_mod _ _
    have h2 : ∀ n, (ncoStep f rate p + f * n) % rate = (p + f * (n + 1)) % rate := by
      intro n; rw [ncoStep, Nat.mod_add_mod]; ring_nf
    have h3 := ih (num.add accI (num.mul x (num.sin p rate))) (num.add accQ (num.mul x (num.cos p rate))) h1
    simp only [h2, h.val_add, h.val_mul] at h3
    simp only [correlate, h3, List.length_cons, Finset.sum_range_succ', List.getD_cons_succ,
      List.getD_cons_zero, Nat.mul_zero, Nat.add_zero, hp]
    constructor <;> ring

/-- `POWER` in closed form (43_detect.md R181). -/
theorem power_eq {num : Num} {val : Amp → ℝ} (h : ExactNum num val) (seg : List Amp) (f rate : Nat) :
    val (power num seg f rate) =
      (∑ n ∈ Finset.range seg.length, val (seg.getD n (.rat 0)) * val (num.sin (f * n % rate) rate)) ^ 2 +
        (∑ n ∈ Finset.range seg.length, val (seg.getD n (.rat 0)) * val (num.cos (f * n % rate) rate)) ^ 2 := by
  have h1 := correlate_eq h f rate seg (.rat 0) (.rat 0) (Nat.zero_mod rate)
  simp only [zero_add, h.val_rat, Rat.cast_zero] at h1
  simp only [power, h.val_add, h.val_mul, h1.1, h1.2]; ring

/-- The power is never negative (43_detect.md R181). -/
theorem power_nonneg {num : Num} {val : Amp → ℝ} (h : ExactNum num val) (seg : List Amp) (f rate : Nat) :
    0 ≤ val (power num seg f rate) := by
  rw [power_eq h]; positivity

theorem correlate_mod (num : Num) (f rate : Nat) (seg : List Amp) (p : Nat) (accI accQ : Amp) :
    correlate num (f % rate) rate seg p accI accQ = correlate num f rate seg p accI accQ := by
  induction seg generalizing p accI accQ with
  | nil => rfl
  | cons x seg ih => simp only [correlate, ih, ncoStep, Nat.add_mod_mod]

/-- The power depends on the frequency only modulo the rate (43_detect.md R182). -/
theorem power_mod (num : Num) (seg : List Amp) (f rate : Nat) : power num seg (f % rate) rate = power num seg f rate := by
  simp only [power, correlate_mod]

theorem getD_zeros {val : Amp → ℝ} (h : val (.rat 0) = 0) (n m : Nat) :
    val ((List.replicate n (Amp.rat 0)).getD m (.rat 0)) = 0 := by
  simp only [List.getD_eq_getElem?_getD, List.getElem?_replicate]; split <;> exact h

/-- The power of silence is 0 (43_detect.md R181). -/
theorem power_silence {num : Num} {val : Amp → ℝ} (h : ExactNum num val) (n f rate : Nat) :
    val (power num (List.replicate n (.rat 0)) f rate) = 0 := by
  have h0 := getD_zeros (val := val) (by rw [h.val_rat, Rat.cast_zero]) n
  simp only [power_eq h, h0, zero_mul, Finset.sum_const_zero]; norm_num

/-- The power of a lone sample at index `m` (43_detect.md R181). -/
theorem power_lone {num : Num} {val : Amp → ℝ} (h : ExactNum num val) (m n f rate : Nat) (x : Amp) :
    val (power num (List.replicate m (.rat 0) ++ x :: List.replicate n (.rat 0)) f rate) =
      val x ^ 2 * (val (num.sin (f * m % rate) rate) ^ 2 + val (num.cos (f * m % rate) rate) ^ 2) := by
  have h0 : val (.rat 0) = 0 := by rw [h.val_rat, Rat.cast_zero]
  have hget : ∀ k, k ≠ m → val ((List.replicate m (Amp.rat 0) ++ x :: List.replicate n (.rat 0)).getD k (.rat 0)) = 0 := by
    intro k hk
    rcases Nat.lt_or_gt_of_ne hk with hlt | hgt
    · rw [List.getD_append _ _ _ _ (by simpa using hlt)]; exact getD_zeros h0 m k
    · rw [List.getD_append_right _ _ _ _ (by simp; omega), List.length_replicate,
        show k - m = (k - m - 1) + 1 by omega, List.getD_cons_succ]
      exact getD_zeros h0 n _
  have hm : (List.replicate m (Amp.rat 0) ++ x :: List.replicate n (.rat 0)).getD m (.rat 0) = x := by
    rw [List.getD_append_right _ _ _ _ (by simp), List.length_replicate, Nat.sub_self]; rfl
  have hsum : ∀ g : Nat → ℝ, (∑ k ∈ Finset.range (List.replicate m (Amp.rat 0) ++ x :: List.replicate n (.rat 0)).length,
      val ((List.replicate m (Amp.rat 0) ++ x :: List.replicate n (.rat 0)).getD k (.rat 0)) * g k) = val x * g m := by
    intro g
    rw [Finset.sum_eq_single m (fun k _ hk => by rw [hget k hk, zero_mul])
      (fun hk => absurd (Finset.mem_range.mpr (by simp)) hk), hm]
  rw [power_eq h, hsum, hsum]; ring

/-- The two sums and the power are amplitudes (00_scope.md R12). -/
theorem amp_correlate {num : Num} {val : Amp → ℝ} (h : ExactNum num val) (f rate : Nat) (seg : List Amp) {p : Nat}
    {accI accQ : Amp} (hp : p < rate) (hs : ∀ x ∈ seg, num.amp x = true) (hI : num.amp accI = true)
    (hQ : num.amp accQ = true) :
    num.amp (correlate num f rate seg p accI accQ).1 = true ∧ num.amp (correlate num f rate seg p accI accQ).2 = true := by
  induction seg generalizing p accI accQ with
  | nil => exact ⟨hI, hQ⟩
  | cons x seg ih =>
    have hx := hs x (by simp)
    exact ih (Nat.mod_lt _ (by omega)) (fun y hy => hs y (by simp [hy]))
      (h.amp_add _ _ hI (h.amp_mul _ _ hx (h.amp_sin _ _ hp)))
      (h.amp_add _ _ hQ (h.amp_mul _ _ hx (h.amp_cos _ _ hp)))

theorem amp_power {num : Num} {val : Amp → ℝ} (h : ExactNum num val) {seg : List Amp} (f : Nat) {rate : Nat}
    (hr : 0 < rate) (hs : ∀ x ∈ seg, num.amp x = true) : num.amp (power num seg f rate) = true := by
  obtain ⟨h1, h2⟩ := amp_correlate h f rate seg hr hs h.amp_zero h.amp_zero
  exact h.amp_add _ _ (h.amp_mul _ _ h1 h1) (h.amp_mul _ _ h2 h2)

end Sys2Proof.Machine
end

