-- ==== Sys2Proof/Laws/Demod.lean ====
section
/-! SUPPORT. Alignment and block walk. -/

namespace Sys2Proof.Machine

/-- A sample is above the threshold when its absolute value is (44_demod.md R196). -/
theorem isLoud_iff {num : Num} {val : Amp → ℝ} (h : ExactNum num val) (x : Amp) :
    isLoud num x = true ↔ 1 / 100 < |val x| := by
  rw [isLoud, startThreshold, Bool.or_eq_true, h.lt_iff, h.lt_iff, h.val_rat, h.val_rat, lt_abs]
  push_cast
  constructor <;> rintro (h | h) <;> first | exact .inl h | exact .inr (by linarith)

theorem firstLoudFrom_some {num : Num} {w : List Amp} {n k : Nat} (h : firstLoudFrom num n w = some k) :
    n ≤ k ∧ k < n + w.length ∧ (∃ x, w[k - n]? = some x ∧ isLoud num x = true) ∧
      ∀ m, m < k - n → ∀ x, w[m]? = some x → isLoud num x = false := by
  induction w generalizing n with
  | nil => simp [firstLoudFrom] at h
  | cons x w ih =>
    simp only [firstLoudFrom] at h
    split at h
    · next hx =>
      obtain rfl := Option.some.inj h
      exact ⟨le_rfl, by simp, ⟨x, by simp, hx⟩, fun m hm => by omega⟩
    · next hx =>
      obtain ⟨h1, h2, ⟨y, hy, hly⟩, h4⟩ := ih h
      have e : k - n = (k - (n + 1)) + 1 := by omega
      refine ⟨by omega, by simp only [List.length_cons]; omega, ⟨y, by rw [e]; simpa using hy, hly⟩, ?_⟩
      intro m hm z hz
      cases m with
      | zero => simp only [List.getElem?_cons_zero, Option.some.injEq] at hz; subst hz; simpa using hx
      | succ m => exact h4 m (by omega) z (by simpa using hz)

theorem firstLoudFrom_none {num : Num} {w : List Amp} {n : Nat} (h : firstLoudFrom num n w = none) :
    ∀ x ∈ w, isLoud num x = false := by
  induction w generalizing n with
  | nil => simp
  | cons x w ih =>
    simp only [firstLoudFrom] at h
    split at h
    · simp at h
    · next hx =>
      intro y hy
      rcases List.mem_cons.mp hy with rfl | hy
      · simpa using hx
      · exact ih h y hy

theorem firstLoudFrom_quiet {num : Num} {w : List Amp} (n : Nat) (h : ∀ x ∈ w, isLoud num x = false) : firstLoudFrom num n w = none := by
  induction w generalizing n with
  | nil => rfl
  | cons x w ih => simp [firstLoudFrom, h x (by simp), ih (n + 1) (fun y hy => h y (by simp [hy]))]

/-- A quiet beginning only shifts the first loud sample (44_demod.md R200). -/
theorem firstLoudFrom_append {num : Num} {w : List Amp} (n : Nat) (v : List Amp) (h : ∀ x ∈ w, isLoud num x = false) :
    firstLoudFrom num n (w ++ v) = firstLoudFrom num (n + w.length) v := by
  induction w generalizing n with
  | nil => simp
  | cons x w ih =>
    simp only [List.cons_append, firstLoudFrom, h x (by simp), Bool.false_eq_true, if_false, List.length_cons]
    rw [ih (n + 1) (fun y hy => h y (by simp [hy]))]
    congr 1; omega

theorem firstLoudFrom_shift (num : Num) (w : List Amp) (n : Nat) :
    firstLoudFrom num n w = (firstLoudFrom num 0 w).map (· + n) := by
  have gen : ∀ (w : List Amp) (a b : Nat), firstLoudFrom num (a + b) w = (firstLoudFrom num a w).map (· + b) := by
    intro w
    induction w with
    | nil => intro a b; rfl
    | cons x w ih =>
      intro a b
      simp only [firstLoudFrom]
      split
      · rfl
      · rw [show a + b + 1 = (a + 1) + b by omega, ih]
  simpa using gen w 0 n

theorem firstLoud_lt {num : Num} {w : List Amp} {k : Nat} (h : firstLoud num w = some k) : k < w.length := by
  simpa using (firstLoudFrom_some h).2.1

theorem startIndex_le (num : Num) (spb : Nat) (w : List Amp) : startIndex num spb w ≤ w.length := by
  unfold startIndex
  split
  · omega
  · next h => have := firstLoud_lt h; omega

@[simp] theorem blockWalk_length (d : List Amp → Bool) (spb n : Nat) (w : List Amp) :
    (blockWalk d spb n w).length = n := by
  induction n generalizing w with
  | zero => rfl
  | succ n ih => simp [blockWalk, ih]

/-- Bit `j` of the walk is decided from block `j` (44_demod.md R197). -/
theorem blockWalk_getElem? (d : List Amp → Bool) (spb : Nat) {n j : Nat} (w : List Amp) (h : j < n) :
    (blockWalk d spb n w)[j]? = some (d (slice w (j * spb) spb)) := by
  induction n generalizing w j with
  | zero => omega
  | succ n ih =>
    cases j with
    | zero => simp [blockWalk, slice]
    | succ j =>
      have := ih (w.drop spb) (j := j) (by omega)
      simp only [blockWalk, List.getElem?_cons_succ, this, slice, List.drop_drop]
      rw [show spb + j * spb = (j + 1) * spb by ring]

theorem slice_drop {α : Type} (l : List α) (a off len : Nat) : slice (l.drop a) off len = slice l (a + off) len := by
  simp [slice, List.drop_drop]

/-- Every block of the walk is whole (20_memory.md R56). -/
theorem block_within (num : Num) (spb : Nat) (w : List Amp) {j : Nat} (h : j < blockCount num spb w) :
    startIndex num spb w + j * spb + spb ≤ w.length := by
  have h1 : (j + 1) * spb ≤ w.length - startIndex num spb w :=
    (Nat.mul_le_mul_right spb h).trans (Nat.div_mul_le_self _ _)
  have := startIndex_le num spb w
  rw [Nat.succ_mul] at h1
  omega

/-- Equal tones give a tie, and a tie gives 0 (44_demod.md R198). -/
theorem decideBit_equal_tones {num : Num} {val : Amp → ℝ} (h : ExactNum num val) (f rate : Nat) (block : List Amp) :
    decideBit num f f rate block = false := lt_irrefl h _

/-- Silence gives a tie, and a tie gives 0 (44_demod.md R198). -/
theorem decideBit_silence {num : Num} {val : Amp → ℝ} (h : ExactNum num val) (fs fm rate n : Nat) :
    decideBit num fs fm rate (List.replicate n (.rat 0)) = false := by
  simp only [decideBit, lt_false_iff h, power_silence h, le_refl]

theorem blockWalk_const_false {d : List Amp → Bool} (spb n : Nat) (w : List Amp) (h : ∀ b, d b = false) :
    blockWalk d spb n w = List.replicate n false := by
  induction n generalizing w with
  | zero => rfl
  | succ n ih => simp [blockWalk, h, ih, List.replicate_succ]

theorem demodBits_ok {par : Params} {c : ConfigRegs} {rate : Word} {w : List Amp} {bits : List Bool} :
    demodBits par c rate w = .ok bits ↔
      (rate ≠ 0 ∧ samplesPerBit par.roundTie rate.toNat c.baud.toNat ≠ 0) ∧
        fits par.bitCap (blockCount (numOf par.numerics) (samplesPerBit par.roundTie rate.toNat c.baud.toNat) w) = true ∧
        bits = blockWalk (decideBit (numOf par.numerics) c.fspace.toNat c.fmark.toNat rate.toNat)
          (samplesPerBit par.roundTie rate.toNat c.baud.toNat)
          (blockCount (numOf par.numerics) (samplesPerBit par.roundTie rate.toNat c.baud.toNat) w)
          (w.drop (startIndex (numOf par.numerics) (samplesPerBit par.roundTie rate.toNat c.baud.toNat) w)) := by
  unfold demodBits
  simp only
  split_ifs with h1 h2
  · simp; tauto
  · simp [h2, eq_comm (a := bits)]; tauto
  · simp [h2]

theorem quiet_zeros {num : Num} {val : Amp → ℝ} (h : ExactNum num val) (n : Nat) :
    ∀ x ∈ List.replicate n (Amp.rat 0), isLoud num x = false := by
  intro x hx
  rw [(List.mem_replicate.mp hx).2, ← Bool.not_eq_true, isLoud_iff h, h.val_rat, Rat.cast_zero, abs_zero]
  norm_num

theorem blockWalk_append {d : List Amp → Bool} {spb n m : Nat} (x y : List Amp) (h : x.length = n * spb) :
    blockWalk d spb (n + m) (x ++ y) = blockWalk d spb n x ++ blockWalk d spb m y := by
  induction n generalizing x with
  | zero =>
    have : x = [] := by simpa using h
    subst this; simp [blockWalk]
  | succ n ih =>
    have hle : spb ≤ x.length := by rw [h, Nat.succ_mul]; omega
    rw [show n + 1 + m = (n + m) + 1 by ring]
    simp only [blockWalk, List.take_append_of_le_length hle, List.drop_append_of_le_length hle]
    rw [ih (x.drop spb) (by rw [List.length_drop, h, Nat.succ_mul]; omega)]; rfl

theorem blockWalk_silence {num : Num} {val : Amp → ℝ} (h : ExactNum num val) (fs fm rate spb k n : Nat) :
    blockWalk (decideBit num fs fm rate) spb k (List.replicate n (.rat 0)) = List.replicate k false := by
  induction k generalizing n with
  | zero => rfl
  | succ k ih => simp only [blockWalk, List.take_replicate, List.drop_replicate, decideBit_silence h, ih, List.replicate_succ]

/-- A walk that is `k` samples late over blocks of one length: block `j` is the end of one and the beginning of the
next (70_reset_and_hazards.md R276, R277). -/
theorem blockWalk_blocks {d : List Amp → Bool} {spb k m : Nat} {tb : Bool → List Amp} (hk : k ≤ spb)
    (hl : ∀ b, (tb b).length = spb) (hd : ∀ p b, d ((tb p).drop k ++ (tb b).take k) = b)
    (bits : List Bool) (pre z : List Amp) (hpre : pre.length = spb - k)
    (h0 : ∀ b, bits.head? = some b → d (pre ++ (tb b).take k) = b) :
    ∃ rest, blockWalk d spb (bits.length + m) (pre ++ (bits.flatMap tb ++ z)) = bits ++ rest := by
  induction bits generalizing pre with
  | nil => exact ⟨_, rfl⟩
  | cons b bits ih =>
    have e : pre ++ ((b :: bits).flatMap tb ++ z) = (pre ++ (tb b).take k) ++ ((tb b).drop k ++ (bits.flatMap tb ++ z)) := by
      rw [List.flatMap_cons]
      conv_lhs => rw [← List.take_append_drop k (tb b)]
      simp only [List.append_assoc]
    have hlen : (pre ++ (tb b).take k).length = spb := by simp [hl, hpre]; omega
    obtain ⟨rest, hr⟩ := ih ((tb b).drop k) (by simp [hl]) (fun c _ => hd b c)
    refine ⟨rest, ?_⟩
    rw [List.length_cons, show bits.length + 1 + m = (bits.length + m) + 1 by ring, blockWalk, e,
      List.take_left' hlen, List.drop_left' hlen, h0 b rfl, hr]
    rfl

end Sys2Proof.Machine
end

