-- ==== Sys2Proof/Laws/Trig.lean ====
section
/-! SUPPORT. The computed sine is within 10^-19 of the real one (00_scope.md R15, law N3). -/

namespace Sys2Proof.Machine

/-- The real number a fraction stands for. -/
noncomputable def ratio (x : Nat × Nat) : ℝ := (x.1 : ℝ) / (x.2 : ℝ)

theorem trigUnit_pos : 0 < trigUnit := by decide

/-- The series stays between 0 and 1, so that no subtraction is cut off. -/
theorem altSeries_le (x2 : Nat) {c : Nat → Nat} (hc : ∀ j, 1 ≤ j → 1 ≤ c j) (k : Nat) {j : Nat} (hj : 1 ≤ j) :
    (altSeries x2 c k j).1 ≤ (altSeries x2 c k j).2 ∧ 0 < (altSeries x2 c k j).2 := by
  induction k generalizing j with
  | zero => simp [altSeries]
  | succ k ih =>
    obtain ⟨-, h2⟩ := ih (j := j + 1) (by omega)
    have h3 := hc j hj
    have hu := trigUnit_pos
    exact ⟨Nat.sub_le _ _, by simp only [altSeries]; positivity⟩

/-- One turn of the series, as real numbers. -/
theorem altSeries_succ {x2 : Nat} {c : Nat → Nat} (hx : x2 ≤ trigUnit * trigUnit) (hc : ∀ j, 1 ≤ j → 1 ≤ c j)
    (k : Nat) {j : Nat} (hj : 1 ≤ j) :
    ratio (altSeries x2 c (k + 1) j) =
      1 - ((x2 : ℝ) / ((trigUnit : ℝ) * trigUnit)) / c j * ratio (altSeries x2 c k (j + 1)) := by
  obtain ⟨h1, h2⟩ := altSeries_le x2 hc k (j := j + 1) (by omega)
  have h3 := hc j hj
  have hu : (0 : ℝ) < trigUnit := by exact_mod_cast trigUnit_pos
  have hle : x2 * (altSeries x2 c k (j + 1)).1 ≤ (altSeries x2 c k (j + 1)).2 * (trigUnit * trigUnit * c j) := by
    calc x2 * (altSeries x2 c k (j + 1)).1 ≤ (trigUnit * trigUnit) * (altSeries x2 c k (j + 1)).2 :=
          Nat.mul_le_mul hx h1
      _ ≤ (trigUnit * trigUnit) * (altSeries x2 c k (j + 1)).2 * c j := Nat.le_mul_of_pos_right _ h3
      _ = _ := by ring
  simp only [ratio, altSeries]
  rw [Nat.cast_sub hle]
  push_cast
  have hd : ((altSeries x2 c k (j + 1)).2 : ℝ) ≠ 0 := by exact_mod_cast h2.ne'
  have hcj : (c j : ℝ) ≠ 0 := by exact_mod_cast (by omega : c j ≠ 0)
  field_simp

/-- The series is the partial sum of an alternating series of terms `t` whose quotients are `x / c`. -/
theorem altSeries_sum {x2 : Nat} {c : Nat → Nat} (hx : x2 ≤ trigUnit * trigUnit) (hc : ∀ j, 1 ≤ j → 1 ≤ c j)
    {t : Nat → ℝ} (ht : ∀ m, t (m + 1) = t m * (((x2 : ℝ) / ((trigUnit : ℝ) * trigUnit)) / c (m + 1)))
    (k m : Nat) :
    t m * ratio (altSeries x2 c k (m + 1)) = ∑ i ∈ Finset.range (k + 1), (-1) ^ i * t (m + i) := by
  induction k generalizing m with
  | zero => simp [altSeries, ratio]
  | succ k ih =>
    rw [altSeries_succ hx hc k (by omega), Finset.sum_range_succ', mul_sub, mul_one, ← mul_assoc, ← ht, ih (m + 1)]
    have : ∀ i, (-1 : ℝ) ^ (i + 1) * t (m + (i + 1)) = -((-1) ^ i * t (m + 1 + i)) := by
      intro i; rw [pow_succ, show m + (i + 1) = m + 1 + i by omega]; ring
    simp only [this, Finset.sum_neg_distrib, pow_zero, one_mul, Nat.add_zero]
    ring

/-- A partial sum of an alternating series with decreasing terms misses the limit by at most the next term. -/
theorem alternating_error {f : Nat → ℝ} {l : ℝ} (h : HasSum (fun n => (-1) ^ n * f n) l) (ha : Antitone f) (k : Nat) :
    |∑ i ∈ Finset.range (2 * k + 1), (-1) ^ i * f i - l| ≤ f (2 * k + 1) := by
  have h1 := ha.tendsto_le_alternating_series h.tendsto_sum_nat k
  have h2 := ha.alternating_series_le_tendsto h.tendsto_sum_nat (k + 1)
  rw [show 2 * (k + 1) = 2 * k + 1 + 1 by ring, Finset.sum_range_succ, pow_succ, pow_mul] at h2
  simp only [neg_one_sq, one_pow, one_mul, neg_mul] at h2
  rw [abs_le]; constructor <;> linarith

theorem antitone_sin_terms {θ : ℝ} (h0 : 0 ≤ θ) (h1 : θ ≤ 1) :
    Antitone fun n : Nat => θ ^ (2 * n + 1) / ((2 * n + 1).factorial : ℝ) := by
  refine antitone_nat_of_succ_le fun n => ?_
  have hp : θ ^ (2 * (n + 1) + 1) ≤ θ ^ (2 * n + 1) := pow_le_pow_of_le_one h0 h1 (by omega)
  have hf : ((2 * n + 1).factorial : ℝ) ≤ ((2 * (n + 1) + 1).factorial : ℝ) := by
    exact_mod_cast Nat.factorial_le (by omega)
  exact div_le_div₀ (by positivity) hp (by positivity) hf

theorem antitone_cos_terms {θ : ℝ} (h0 : 0 ≤ θ) (h1 : θ ≤ 1) :
    Antitone fun n : Nat => θ ^ (2 * n) / ((2 * n).factorial : ℝ) := by
  refine antitone_nat_of_succ_le fun n => ?_
  have hp : θ ^ (2 * (n + 1)) ≤ θ ^ (2 * n) := pow_le_pow_of_le_one h0 h1 (by omega)
  have hf : ((2 * n).factorial : ℝ) ≤ ((2 * (n + 1)).factorial : ℝ) := by
    exact_mod_cast Nat.factorial_le (by omega)
  exact div_le_div₀ (by positivity) hp (by positivity) hf

/-- The rest of either series after its first 17 terms, for angles of at most 1. -/
noncomputable def seriesError : ℝ := 1 / (34 : Nat).factorial

theorem ratio_sinSeries {t : Nat} (ht : t ≤ trigUnit) :
    |ratio (sinSeries t) - Real.sin ((t : ℝ) / trigUnit)| ≤ seriesError := by
  have hu : (0 : ℝ) < trigUnit := by exact_mod_cast trigUnit_pos
  set θ : ℝ := (t : ℝ) / trigUnit with hθ
  have h0 : 0 ≤ θ := by positivity
  have h1 : θ ≤ 1 := by rw [hθ, div_le_one hu]; exact_mod_cast ht
  have hc : ∀ j, 1 ≤ j → 1 ≤ 2 * j * (2 * j + 1) := fun j hj => by nlinarith
  have hstep : ∀ m : Nat, θ ^ (2 * (m + 1) + 1) / ((2 * (m + 1) + 1).factorial : ℝ) =
      θ ^ (2 * m + 1) / ((2 * m + 1).factorial : ℝ) *
        ((((t * t : Nat) : ℝ) / ((trigUnit : ℝ) * trigUnit)) / ((2 * (m + 1) * (2 * (m + 1) + 1) : Nat) : ℝ)) := by
    intro m
    have e : ((t * t : Nat) : ℝ) / ((trigUnit : ℝ) * trigUnit) = θ ^ 2 := by
      rw [hθ]; push_cast; field_simp
    rw [e, show 2 * (m + 1) + 1 = (2 * m + 1) + 1 + 1 by ring, Nat.factorial_succ, Nat.factorial_succ]
    have : ((2 * m + 1).factorial : ℝ) ≠ 0 := by positivity
    push_cast
    field_simp
    ring
  have hsum := altSeries_sum (Nat.mul_le_mul ht ht) hc (t := fun m => θ ^ (2 * m + 1) / ((2 * m + 1).factorial : ℝ))
    hstep trigDepth 0
  have hval : ratio (sinSeries t) =
      ∑ i ∈ Finset.range (2 * 8 + 1), (-1) ^ i * (θ ^ (2 * i + 1) / ((2 * i + 1).factorial : ℝ)) := by
    rw [show (2 * 8 + 1) = trigDepth + 1 from rfl]
    simp only [Nat.zero_add, Nat.mul_zero, pow_one, Nat.factorial_one, Nat.cast_one, div_one] at hsum
    rw [← hsum, hθ]
    simp only [ratio, sinSeries]
    push_cast
    rw [mul_div_mul_comm]
  have hs : HasSum (fun n : Nat => (-1) ^ n * (θ ^ (2 * n + 1) / ((2 * n + 1).factorial : ℝ))) (Real.sin θ) := by
    simpa only [mul_div_assoc] using Real.hasSum_sin θ
  rw [hval]
  refine (alternating_error hs (antitone_sin_terms h0 h1) 8).trans ?_
  have hp : θ ^ (2 * (2 * 8 + 1) + 1) ≤ 1 := pow_le_one₀ h0 h1
  have hf : ((34 : Nat).factorial : ℝ) ≤ ((2 * (2 * 8 + 1) + 1).factorial : ℝ) := by
    exact_mod_cast Nat.factorial_le (by norm_num)
  exact div_le_div₀ (by norm_num) hp (by positivity) hf

theorem ratio_cosSeries {t : Nat} (ht : t ≤ trigUnit) :
    |ratio (cosSeries t) - Real.cos ((t : ℝ) / trigUnit)| ≤ seriesError := by
  have hu : (0 : ℝ) < trigUnit := by exact_mod_cast trigUnit_pos
  set θ : ℝ := (t : ℝ) / trigUnit with hθ
  have h0 : 0 ≤ θ := by positivity
  have h1 : θ ≤ 1 := by rw [hθ, div_le_one hu]; exact_mod_cast ht
  have hc : ∀ j, 1 ≤ j → 1 ≤ (2 * j - 1) * (2 * j) := fun j hj =>
    Nat.mul_pos (by omega) (by omega)
  have hstep : ∀ m : Nat, θ ^ (2 * (m + 1)) / ((2 * (m + 1)).factorial : ℝ) =
      θ ^ (2 * m) / ((2 * m).factorial : ℝ) *
        ((((t * t : Nat) : ℝ) / ((trigUnit : ℝ) * trigUnit)) / (((2 * (m + 1) - 1) * (2 * (m + 1)) : Nat) : ℝ)) := by
    intro m
    have e : ((t * t : Nat) : ℝ) / ((trigUnit : ℝ) * trigUnit) = θ ^ 2 := by
      rw [hθ]; push_cast; field_simp
    rw [e, show 2 * (m + 1) = (2 * m) + 1 + 1 by ring, Nat.factorial_succ, Nat.factorial_succ,
      show 2 * m + 1 + 1 - 1 = 2 * m + 1 by omega]
    have : ((2 * m).factorial : ℝ) ≠ 0 := by positivity
    push_cast
    field_simp
    ring
  have hsum := altSeries_sum (Nat.mul_le_mul ht ht) hc (t := fun m => θ ^ (2 * m) / ((2 * m).factorial : ℝ))
    hstep trigDepth 0
  have hval : ratio (cosSeries t) =
      ∑ i ∈ Finset.range (2 * 8 + 1), (-1) ^ i * (θ ^ (2 * i) / ((2 * i).factorial : ℝ)) := by
    rw [show (2 * 8 + 1) = trigDepth + 1 from rfl]
    simp only [Nat.zero_add, Nat.mul_zero, pow_zero, Nat.factorial_zero, Nat.cast_one, div_one, one_mul] at hsum
    exact hsum
  have hs : HasSum (fun n : Nat => (-1) ^ n * (θ ^ (2 * n) / ((2 * n).factorial : ℝ))) (Real.cos θ) := by
    simpa only [mul_div_assoc] using Real.hasSum_cos θ
  rw [hval]
  refine (alternating_error hs (antitone_cos_terms h0 h1) 8).trans ?_
  have hp : θ ^ (2 * (2 * 8 + 1)) ≤ 1 := pow_le_one₀ h0 h1
  exact div_le_div₀ (by norm_num) hp (by positivity) le_rfl

theorem pi_near : |(piScaled : ℝ) / trigUnit - Real.pi| ≤ 1 / 10 ^ 20 := by
  have h1 := Real.pi_gt_d20
  have h2 := Real.pi_lt_d20
  have h3 : (3.14159265358979323846 : ℝ) ≤ (piScaled : ℝ) / trigUnit := by norm_num [piScaled, trigUnit]
  have h4 : (piScaled : ℝ) / trigUnit ≤ 3.14159265358979323847 := by norm_num [piScaled, trigUnit]
  rw [abs_le]; constructor <;> norm_num at * <;> linarith

/-- The angle of `r / q` quarter turns. -/
theorem quarterAngle_near {r q : Nat} (hq : 0 < q) (hr : r ≤ q) :
    |(quarterAngle r q : ℝ) / trigUnit - Real.pi / 2 * (r / q)| ≤ 51 / 10 ^ 22 := by
  have hu : (0 : ℝ) < trigUnit := by exact_mod_cast trigUnit_pos
  have hq' : (0 : ℝ) < q := by exact_mod_cast hq
  have hfl : (quarterAngle r q : ℝ) ≤ (piScaled : ℝ) * r / (2 * q) ∧
      (piScaled : ℝ) * r / (2 * q) < (quarterAngle r q : ℝ) + 1 := by
    have hpos : 0 < 2 * q := by omega
    have a := Nat.div_mul_le_self (piScaled * r) (2 * q)
    have b := Nat.lt_div_mul_add (a := piScaled * r) hpos
    change quarterAngle r q * (2 * q) ≤ _ at a
    change _ < quarterAngle r q * (2 * q) + 2 * q at b
    constructor
    · rw [le_div_iff₀ (by positivity)]; exact_mod_cast a
    · rw [div_lt_iff₀ (by positivity)]
      have : (piScaled * r : ℝ) < (quarterAngle r q * (2 * q) + 2 * q : ℝ) := by exact_mod_cast b
      linarith
  have h1 : |(quarterAngle r q : ℝ) / trigUnit - (piScaled : ℝ) * r / (2 * q) / trigUnit| ≤ 1 / 10 ^ 22 := by
    rw [← sub_div, abs_div, abs_of_pos hu, div_le_iff₀ hu]
    have : |(quarterAngle r q : ℝ) - (piScaled : ℝ) * r / (2 * q)| ≤ 1 := by
      rw [abs_le]; constructor <;> linarith [hfl.1, hfl.2]
    refine this.trans ?_
    norm_num [trigUnit]
  have h2 : |(piScaled : ℝ) * r / (2 * q) / trigUnit - Real.pi / 2 * (r / q)| ≤ 1 / 10 ^ 20 / 2 := by
    have e : (piScaled : ℝ) * r / (2 * q) / trigUnit - Real.pi / 2 * (r / q) =
        ((piScaled : ℝ) / trigUnit - Real.pi) * (r / q / 2) := by field_simp
    have hrq : (r : ℝ) / q / 2 ≤ 1 / 2 := by
      have : (r : ℝ) / q ≤ 1 := by rw [div_le_one hq']; exact_mod_cast hr
      linarith
    rw [e, abs_mul, abs_of_nonneg (show (0 : ℝ) ≤ r / q / 2 by positivity)]
    calc |(piScaled : ℝ) / trigUnit - Real.pi| * (r / q / 2) ≤ 1 / 10 ^ 20 * (1 / 2) :=
          mul_le_mul pi_near hrq (by positivity) (by norm_num)
      _ = _ := by ring
  calc _ ≤ _ := abs_sub_le _ ((piScaled : ℝ) * r / (2 * q) / trigUnit) _
    _ ≤ _ := add_le_add h1 h2
    _ ≤ 51 / 10 ^ 22 := by norm_num

theorem quarterAngle_le {r q : Nat} (hr : 2 * r ≤ q) : quarterAngle r q ≤ trigUnit := by
  unfold quarterAngle
  apply Nat.div_le_of_le_mul
  calc piScaled * r ≤ 4 * trigUnit * r := Nat.mul_le_mul_right r (by decide)
    _ = 2 * (2 * r) * trigUnit := by ring
    _ ≤ 2 * q * trigUnit := Nat.mul_le_mul_right _ (by omega)

/-- How far a computed sine is from the real one. -/
noncomputable def sineError : ℝ := 1 / 10 ^ 20

theorem seriesError_small : seriesError + 51 / 10 ^ 22 ≤ sineError := by
  norm_num [seriesError, sineError, Nat.factorial]

theorem sineError_pos : 0 ≤ sineError := by unfold sineError; positivity

/-- The computed sine of `r / q` quarter turns. -/
theorem ratio_sinQuarter {r q : Nat} (hq : 0 < q) (hr : r ≤ q) :
    |ratio (sinQuarter r q) - Real.sin (Real.pi / 2 * (r / q))| ≤ sineError := by
  have hq' : (q : ℝ) ≠ 0 := by exact_mod_cast hq.ne'
  unfold sinQuarter
  split_ifs with h1 h2
  · have e : Real.pi / 2 * (r / q) = Real.pi / 6 := by
      have : (q : ℝ) = 3 * r := by exact_mod_cast h1.symm
      have hr0 : (r : ℝ) ≠ 0 := by
        intro h0; rw [h0] at this; simp at this; exact hq.ne' this
      rw [this]; field_simp; norm_num
    rw [e, Real.sin_pi_div_six]
    simpa [ratio] using sineError_pos
  · refine (abs_sub_le _ (Real.sin ((quarterAngle r q : ℝ) / trigUnit)) _).trans ?_
    refine (add_le_add (ratio_sinSeries (quarterAngle_le h2))
      ((Real.abs_sin_sub_sin_le _ _).trans (quarterAngle_near hq hr))).trans seriesError_small
  · have e : Real.sin (Real.pi / 2 * (r / q)) = Real.cos (Real.pi / 2 * ((q - r : Nat) / q)) := by
      rw [← Real.cos_pi_div_two_sub, Nat.cast_sub hr]
      congr 1; field_simp
    rw [e]
    refine (abs_sub_le _ (Real.cos ((quarterAngle (q - r) q : ℝ) / trigUnit)) _).trans ?_
    refine (add_le_add (ratio_cosSeries (quarterAngle_le (by omega)))
      ((Real.abs_cos_sub_cos_le _ _).trans (quarterAngle_near hq (by omega)))).trans seriesError_small

theorem sinQuarter_le (r q : Nat) :
    (sinQuarter r q).1 ≤ (sinQuarter r q).2 ∧ 0 < (sinQuarter r q).2 := by
  have hc : ∀ j, 1 ≤ j → 1 ≤ (2 * j - 1) * (2 * j) := fun j hj => Nat.mul_pos (by omega) (by omega)
  have hs : ∀ j, 1 ≤ j → 1 ≤ 2 * j * (2 * j + 1) := fun j hj => by nlinarith
  unfold sinQuarter
  split_ifs with h1 h2
  · simp
  · have ht := quarterAngle_le h2
    obtain ⟨h3, h4⟩ := altSeries_le (quarterAngle r q * quarterAngle r q) hs trigDepth le_rfl
    exact ⟨Nat.mul_le_mul ht h3, Nat.mul_pos trigUnit_pos h4⟩
  · exact altSeries_le (quarterAngle (q - r) q * quarterAngle (q - r) q) hc trigDepth le_rfl

/-- The signed value of a computed sine. -/
noncomputable def signedRatio (v : Bool × (Nat × Nat)) : ℝ := if v.1 then -ratio v.2 else ratio v.2

theorem ratio_sinTurn {p q : Nat} (h : p < q) :
    |signedRatio (sinTurn p q) - Real.sin (2 * Real.pi * p / q)| ≤ sineError := by
  have hq : 0 < q := by omega
  have hq' : (q : ℝ) ≠ 0 := by exact_mod_cast hq.ne'
  have hr : 4 * p % q < q := Nat.mod_lt _ hq
  have hdm : q * (4 * p / q) + 4 * p % q = 4 * p := Nat.div_add_mod _ _
  have hk : 4 * p / q < 4 := by rw [Nat.div_lt_iff_lt_mul hq]; omega
  have ang : 2 * Real.pi * p / q = Real.pi / 2 * ((4 * p / q : Nat) : ℝ) + Real.pi / 2 * ((4 * p % q : Nat) / q) := by
    have : (q : ℝ) * ((4 * p / q : Nat) : ℝ) + ((4 * p % q : Nat) : ℝ) = 4 * p := by exact_mod_cast hdm
    field_simp
    linear_combination (-1 : ℝ) * this
  have comp : Real.pi / 2 * (((q - 4 * p % q : Nat) : ℝ) / q) = Real.pi / 2 - Real.pi / 2 * ((4 * p % q : Nat) / q) := by
    rw [Nat.cast_sub hr.le]; field_simp
  have s1 := ratio_sinQuarter hq hr.le
  have s2 := ratio_sinQuarter (r := q - 4 * p % q) hq (by omega)
  rw [comp, Real.sin_pi_div_two_sub] at s2
  unfold sinTurn
  simp only
  have h4 : ∀ k, k < 4 → k = 0 ∨ k = 1 ∨ k = 2 ∨ k = 3 := by omega
  rcases h4 _ hk with e | e | e | e <;>
    rw [e] at ang <;> rw [e, ang] <;> simp only [signedRatio, if_true, Bool.false_eq_true, if_false]
  · simpa using s1
  · have : Real.sin (Real.pi / 2 * ((1 : Nat) : ℝ) + Real.pi / 2 * ((4 * p % q : Nat) / q)) =
        Real.cos (Real.pi / 2 * ((4 * p % q : Nat) / q)) := by
      rw [Nat.cast_one, mul_one, add_comm, Real.sin_add_pi_div_two]
    rw [this]; exact s2
  · have : Real.sin (Real.pi / 2 * ((2 : Nat) : ℝ) + Real.pi / 2 * ((4 * p % q : Nat) / q)) =
        -Real.sin (Real.pi / 2 * ((4 * p % q : Nat) / q)) := by
      rw [show Real.pi / 2 * ((2 : Nat) : ℝ) = Real.pi by push_cast; ring, add_comm, Real.sin_add_pi]
    rw [this, show ∀ a b : ℝ, -a - -b = -(a - b) by intro a b; ring, abs_neg]; exact s1
  · have : Real.sin (Real.pi / 2 * ((3 : Nat) : ℝ) + Real.pi / 2 * ((4 * p % q : Nat) / q)) =
        -Real.cos (Real.pi / 2 * ((4 * p % q : Nat) / q)) := by
      rw [show Real.pi / 2 * ((3 : Nat) : ℝ) + Real.pi / 2 * ((4 * p % q : Nat) / q) =
        (Real.pi / 2 * ((4 * p % q : Nat) / q) + Real.pi / 2) + Real.pi by push_cast; ring,
        Real.sin_add_pi, Real.sin_add_pi_div_two]
    rw [this, show ∀ a b : ℝ, -a - -b = -(a - b) by intro a b; ring, abs_neg]; exact s2

theorem sinTurn_le (p q : Nat) : (sinTurn p q).2.1 ≤ (sinTurn p q).2.2 ∧ 0 < (sinTurn p q).2.2 := by
  unfold sinTurn
  simp only
  split <;> exact sinQuarter_le _ _

/-- A code is the scaled sine rounded to the nearest integer. -/
theorem sinCode_round (scale p q : Nat) :
    |(sinCode scale p q : ℝ) - scale * signedRatio (sinTurn p q)| ≤ 1 / 2 := by
  obtain ⟨-, hd⟩ := sinTurn_le p q
  set n := (sinTurn p q).2.1
  set d := (sinTurn p q).2.2
  have hd' : (0 : ℝ) < d := by exact_mod_cast hd
  set m := (2 * scale * n + d) / (2 * d) with hm
  have a : m * (2 * d) ≤ 2 * scale * n + d := Nat.div_mul_le_self _ _
  have b : 2 * scale * n + d < m * (2 * d) + 2 * d := Nat.lt_div_mul_add (by omega)
  have a' : (m : ℝ) * (2 * d) ≤ 2 * scale * n + d := by exact_mod_cast a
  have b' : (2 * scale * n + d : ℝ) < m * (2 * d) + 2 * d := by exact_mod_cast b
  have key : |(m : ℝ) - scale * (n / d)| ≤ 1 / 2 := by
    have e : (m : ℝ) - scale * (n / d) = (m * d - scale * n) / d := by field_simp
    rw [e, abs_div, abs_of_pos hd', div_le_iff₀ hd', abs_le]
    constructor <;> linarith
  have hcode : sinCode scale p q = if (sinTurn p q).1 then -(m : Int) else (m : Int) := rfl
  have hval : signedRatio (sinTurn p q) = if (sinTurn p q).1 then -((n : ℝ) / d) else (n : ℝ) / d := rfl
  rw [hcode, hval]
  cases (sinTurn p q).1
  · simpa only [Bool.false_eq_true, if_false, Int.cast_natCast] using key
  · have : -(m : ℝ) - scale * -((n : ℝ) / d) = -((m : ℝ) - scale * (n / d)) := by ring
    simp only [if_true, Int.cast_neg, Int.cast_natCast]
    rw [this, abs_neg]
    exact key

theorem sinCode_near (scale : Nat) {p q : Nat} (h : p < q) :
    |(sinCode scale p q : ℝ) - scale * Real.sin (2 * Real.pi * p / q)| ≤ 1 / 2 + scale * sineError := by
  have h1 := sinCode_round scale p q
  have h2 := ratio_sinTurn h
  calc _ ≤ _ := abs_sub_le _ ((scale : ℝ) * signedRatio (sinTurn p q)) _
    _ ≤ 1 / 2 + scale * sineError := by
      refine add_le_add h1 ?_
      rw [← mul_sub, abs_mul, Nat.abs_cast]
      exact mul_le_mul_of_nonneg_left h2 (Nat.cast_nonneg _)

theorem cosCode_near (scale : Nat) {p q : Nat} (h : p < q) :
    |(cosCode scale p q : ℝ) - scale * Real.cos (2 * Real.pi * p / q)| ≤ 1 / 2 + scale * sineError := by
  have hq : (0 : ℝ) < q := by exact_mod_cast (by omega : 0 < q)
  have h1 := sinCode_near scale (p := (4 * p + q) % (4 * q)) (q := 4 * q) (Nat.mod_lt _ (by omega))
  have e : Real.sin (2 * Real.pi * ((4 * p + q) % (4 * q) : Nat) / (4 * q : Nat)) = Real.cos (2 * Real.pi * p / q) := by
    have hdm : 4 * q * ((4 * p + q) / (4 * q)) + (4 * p + q) % (4 * q) = 4 * p + q := Nat.div_add_mod _ _
    have hdm' : (4 * q : ℝ) * ((4 * p + q) / (4 * q) : Nat) + ((4 * p + q) % (4 * q) : Nat) = 4 * p + q := by
      exact_mod_cast hdm
    have : 2 * Real.pi * ((4 * p + q) % (4 * q) : Nat) / (4 * q : Nat) =
        (2 * Real.pi * p / q + Real.pi / 2) - ((4 * p + q) / (4 * q) : Nat) * (2 * Real.pi) := by
      push_cast
      field_simp
      linear_combination 4 * hdm'
    rw [this, Real.sin_sub_nat_mul_two_pi, Real.sin_add_pi_div_two]
  rw [e] at h1
  exact h1

/-- A code never exceeds the scale. -/
theorem sinCode_abs_le (scale p q : Nat) : |sinCode scale p q| ≤ scale := by
  obtain ⟨hle, hd⟩ := sinTurn_le p q
  have key : (2 * scale * (sinTurn p q).2.1 + (sinTurn p q).2.2) / (2 * (sinTurn p q).2.2) ≤ scale := by
    rw [← Nat.lt_succ_iff, Nat.div_lt_iff_lt_mul (by omega)]
    nlinarith [Nat.mul_le_mul_left (2 * scale) hle]
  unfold sinCode
  simp only
  split
  · rw [abs_neg]; rw [abs_of_nonneg (by positivity)]; exact_mod_cast key
  · rw [abs_of_nonneg (by positivity)]; exact_mod_cast key

theorem cosCode_abs_le (scale p q : Nat) : |cosCode scale p q| ≤ scale :=
  sinCode_abs_le scale _ _

theorem sinCode_of {scale p q n d : Nat} {neg : Bool} (h : sinTurn p q = (neg, n, d)) :
    sinCode scale p q =
      if neg then -(((2 * scale * n + d) / (2 * d) : Nat) : Int) else (((2 * scale * n + d) / (2 * d) : Nat) : Int) := by
  unfold sinCode; rw [h]

theorem sinQuarter_zero (q : Nat) (hq : 1 ≤ q) : (sinQuarter 0 q).1 = 0 := by
  unfold sinQuarter
  rw [if_neg (by omega), if_pos (by omega)]
  have h0 : quarterAngle 0 q = 0 := by unfold quarterAngle; rw [Nat.mul_zero, Nat.zero_div]
  rw [h0]; unfold sinSeries; exact Nat.zero_mul _

theorem sinTurn_zero (q : Nat) (hq : 1 ≤ q) : ∃ d, 0 < d ∧ sinTurn 0 q = (false, 0, d) := by
  refine ⟨(sinQuarter 0 q).2, (sinQuarter_le 0 q).2, ?_⟩
  unfold sinTurn
  simp only [Nat.mul_zero, Nat.zero_mod, Nat.zero_div]
  exact Prod.ext rfl (Prod.ext (sinQuarter_zero q hq) rfl)

/-- The sine at phase 0 is 0 (00_scope.md R15). -/
theorem sinCode_zero (scale q : Nat) (hq : 1 ≤ q) : sinCode scale 0 q = 0 := by
  obtain ⟨d, hd, h⟩ := sinTurn_zero q hq
  rw [sinCode_of h, Nat.mul_zero, Nat.zero_add, Nat.div_eq_of_lt (by omega)]; rfl

theorem altSeries_zero (c : Nat → Nat) (k j : Nat) : (altSeries 0 c k j).1 = (altSeries 0 c k j).2 := by
  cases k with
  | zero => rfl
  | succ k => simp only [altSeries, Nat.zero_mul, Nat.sub_zero]

theorem sinQuarter_full (q : Nat) (hq : 1 ≤ q) : (sinQuarter q q).1 = (sinQuarter q q).2 := by
  unfold sinQuarter
  rw [if_neg (by omega), if_neg (by omega), Nat.sub_self]
  have h0 : quarterAngle 0 q = 0 := by unfold quarterAngle; rw [Nat.mul_zero, Nat.zero_div]
  rw [h0]; unfold cosSeries; rw [Nat.zero_mul]; exact altSeries_zero _ _ _

theorem sinTurn_quarter (q : Nat) (hq : 1 ≤ q) : ∃ d, 0 < d ∧ sinTurn q (4 * q) = (false, d, d) := by
  refine ⟨(sinQuarter (4 * q) (4 * q)).2, (sinQuarter_le _ _).2, ?_⟩
  have h1 : 4 * q / (4 * q) = 1 := Nat.div_self (by omega)
  have h2 : 4 * q % (4 * q) = 0 := Nat.mod_self _
  unfold sinTurn
  simp only [h1, h2, Nat.sub_zero]
  exact Prod.ext rfl (Prod.ext (sinQuarter_full _ (by omega)) rfl)

/-- The cosine at phase 0 is full scale (00_scope.md R15). -/
theorem cosCode_zero (scale q : Nat) (hq : 1 ≤ q) : cosCode scale 0 q = scale := by
  obtain ⟨d, hd, h⟩ := sinTurn_quarter q hq
  have e : (4 * 0 + q) % (4 * q) = q := by rw [Nat.mul_zero, Nat.zero_add]; exact Nat.mod_eq_of_lt (by omega)
  unfold cosCode
  rw [e, sinCode_of h]
  have : (2 * scale * d + d) / (2 * d) = scale := by
    apply Nat.div_eq_of_lt_le <;> nlinarith
  rw [this]; rfl

end Sys2Proof.Machine
end

