-- ==== Sys2Proof/Laws/Num.lean ====
section
/-! SUPPORT. The numerics: every instance calculates exactly, the real numbers that amplitudes stand for, and the points
of the circle that approximate `REF`. -/

namespace Sys2Proof.Machine

/-- The rational instances calculate exactly (00_scope.md R12). -/
theorem numQ15_exact : ExactNum numQ15 (fun a => (a.toRat : ℝ)) := by
  constructor
  case val_irr => exact toRat_irr
  all_goals intros; simp [numQ15, Amp.isRat, ratAdd, ratMul]

theorem numRef_exact : ExactNum numRef (fun a => (a.toRat : ℝ)) := by
  constructor
  case val_irr => exact toRat_irr
  all_goals intros; simp [numRef]

/-- Every instance calculates exactly (00_scope.md R12). -/
theorem numOf_exact (n : Numerics) : ∃ val, ExactNum (numOf n) val := by
  cases n with
  | q15 => exact ⟨_, numQ15_exact⟩
  | ref => exact ⟨_, numRef_exact⟩
  | other k =>
    obtain ⟨val, h⟩ := (@Config.otherNum ⟨⟨numSilent, numSilent_lawful⟩⟩ k).2
    exact ⟨val, h.toExactNum⟩

/-- An irrational stands in the cell its floor names. -/
theorem floor_stands {x : ℝ} (h : Irrational x) (k : Nat) : (Amp.irr ⌊cellUnit * x⌋ k).Stands x := by
  refine ⟨h, lt_of_le_of_ne (Int.floor_le _) fun e => ?_, Int.lt_floor_add_one _⟩
  exact (h.natCast_mul (m := cellUnit) (by norm_num [cellUnit])).ne_int _ e.symm

/-- The numbers of one cell round alike: `⌊d · x⌋` does not depend on which of them `x` is, for every `d` that divides
the number of cells to the unit. -/
theorem floor_cell {d m : Nat} (hm : cellUnit = m * d) {n : Int} {x : ℝ} (h1 : (n : ℝ) < cellUnit * x)
    (h2 : cellUnit * x < n + 1) : ⌊d * x⌋ = n / m := by
  have hpos : 0 < m := Nat.pos_of_ne_zero (by rintro rfl; rw [Nat.zero_mul] at hm; exact absurd hm (by decide))
  have e : (d : ℝ) * x = cellUnit * x / m := by
    have : (m : ℝ) ≠ 0 := by positivity
    rw [hm]; push_cast; field_simp
  have hf : ⌊cellUnit * x⌋ = n := Int.floor_eq_iff.mpr ⟨h1.le, h2⟩
  rw [e, Int.floor_div_natCast, hf]

/-- A point that `onCircle` gives is on the unit circle. -/
theorem onCircle_sq (c s : Rat) : (onCircle c s).1 ^ 2 + (onCircle c s).2 ^ 2 = 1 := by
  unfold onCircle
  split_ifs with h
  · have hd : (1 - c) ^ 2 + s ^ 2 ≠ 0 := by nlinarith [sq_nonneg s, sq_nonneg (1 - c)]
    field_simp; ring
  · have hd : (1 + c) ^ 2 + s ^ 2 ≠ 0 := by nlinarith [sq_nonneg s, sq_nonneg (1 + c)]
    field_simp; ring

theorem onCircle_abs_le (c s : Rat) : |(onCircle c s).1| ≤ 1 ∧ |(onCircle c s).2| ≤ 1 := by
  have h := onCircle_sq c s
  constructor <;> rw [← sq_le_one_iff_abs_le_one] <;> nlinarith [sq_nonneg (onCircle c s).1, sq_nonneg (onCircle c s).2]

/-- How far `onCircle` moves a point that is off the circle by `1 - c² - s²`. -/
theorem onCircle_near {c s : Rat} (hc : |c| ≤ 1) (hs : |s| ≤ 1) :
    |(onCircle c s).1 - c| ≤ 2 * |1 - c ^ 2 - s ^ 2| ∧ |(onCircle c s).2 - s| ≤ 2 * |1 - c ^ 2 - s ^ 2| := by
  have key : ∀ a d e : Rat, 1 ≤ d → |a| ≤ 2 → |a * e / d| ≤ 2 * |e| := by
    intro a d e hd ha
    rw [abs_div, abs_mul, abs_of_pos (by linarith : (0 : Rat) < d), div_le_iff₀ (by linarith)]
    have h1 : |a| * |e| ≤ 2 * |e| := mul_le_mul_of_nonneg_right ha (abs_nonneg e)
    have h2 : 2 * |e| ≤ 2 * |e| * d := le_mul_of_one_le_right (by positivity) hd
    linarith
  obtain ⟨c1, c2⟩ := abs_le.mp hc
  obtain ⟨s1, s2⟩ := abs_le.mp hs
  unfold onCircle
  split_ifs with h
  · have hd : 1 ≤ (1 - c) ^ 2 + s ^ 2 := by nlinarith [sq_nonneg s]
    have hd0 : (1 - c) ^ 2 + s ^ 2 ≠ 0 := by linarith
    have e1 : (s ^ 2 - (1 - c) ^ 2) / ((1 - c) ^ 2 + s ^ 2) - c =
        -(1 - c) * (1 - c ^ 2 - s ^ 2) / ((1 - c) ^ 2 + s ^ 2) := by field_simp; ring
    have e2 : 2 * s * (1 - c) / ((1 - c) ^ 2 + s ^ 2) - s =
        s * (1 - c ^ 2 - s ^ 2) / ((1 - c) ^ 2 + s ^ 2) := by field_simp; ring
    rw [e1, e2]
    exact ⟨key _ _ _ hd (by rw [abs_le]; constructor <;> linarith), key _ _ _ hd (by linarith)⟩
  · have hd : 1 ≤ (1 + c) ^ 2 + s ^ 2 := by nlinarith [sq_nonneg s]
    have hd0 : (1 + c) ^ 2 + s ^ 2 ≠ 0 := by linarith
    have e1 : ((1 + c) ^ 2 - s ^ 2) / ((1 + c) ^ 2 + s ^ 2) - c =
        (1 + c) * (1 - c ^ 2 - s ^ 2) / ((1 + c) ^ 2 + s ^ 2) := by field_simp; ring
    have e2 : 2 * s * (1 + c) / ((1 + c) ^ 2 + s ^ 2) - s =
        s * (1 - c ^ 2 - s ^ 2) / ((1 + c) ^ 2 + s ^ 2) := by field_simp; ring
    rw [e1, e2]
    exact ⟨key _ _ _ hd (by rw [abs_le]; constructor <;> linarith), key _ _ _ hd (by linarith)⟩

/-- A code over its unit is within full scale. -/
theorem refCode_abs_le {c : Int} (h : |c| ≤ refUnit) : |(c : Rat) / refUnit| ≤ 1 := by
  have hu : (0 : Rat) < refUnit := by norm_num [refUnit]
  have h1 : |(c : Rat)| ≤ refUnit := by exact_mod_cast h
  rw [abs_div, abs_of_pos hu, div_le_one hu]; exact h1

/-- A code over its unit is near the real value it was rounded from. -/
theorem refCode_near {c : Int} {x : ℝ} (h : |(c : ℝ) - refUnit * x| ≤ 1 / 2 + refUnit * sineError) :
    |(((c : Rat) / refUnit : Rat) : ℝ) - x| ≤ (2 : ℝ)⁻¹ ^ 64 := by
  have hu : (0 : ℝ) < refUnit := by norm_num [refUnit]
  have e : (((c : Rat) / refUnit : Rat) : ℝ) - x = ((c : ℝ) - refUnit * x) / refUnit := by
    push_cast; field_simp
  rw [e, abs_div, abs_of_pos hu, div_le_iff₀ hu]
  refine h.trans ?_
  norm_num [refUnit, sineError]

/-- The point of the circle for a phase is within `2^-60` of cosine and sine (00_scope.md R13, R15). -/
theorem refPoint_near {p q : Nat} (h : p < q) :
    |((refPoint p q).1 : ℝ) - Real.cos (2 * Real.pi * p / q)| ≤ (2 : ℝ)⁻¹ ^ 60 ∧
      |((refPoint p q).2 : ℝ) - Real.sin (2 * Real.pi * p / q)| ≤ (2 : ℝ)⁻¹ ^ 60 := by
  have hcx := refCode_near (cosCode_near refUnit h)
  have hsy := refCode_near (sinCode_near refUnit h)
  have hc := refCode_abs_le (cosCode_abs_le refUnit p q)
  have hs := refCode_abs_le (sinCode_abs_le refUnit p q)
  unfold refPoint
  generalize ((cosCode refUnit p q : Rat) / refUnit) = c at *
  generalize ((sinCode refUnit p q : Rat) / refUnit) = s at *
  obtain ⟨n1, n2⟩ := onCircle_near hc hs
  have n1' : |((onCircle c s).1 : ℝ) - c| ≤ 2 * |1 - (c : ℝ) ^ 2 - (s : ℝ) ^ 2| := by exact_mod_cast n1
  have n2' : |((onCircle c s).2 : ℝ) - s| ≤ 2 * |1 - (c : ℝ) ^ 2 - (s : ℝ) ^ 2| := by exact_mod_cast n2
  have hc' : |(c : ℝ)| ≤ 1 := by exact_mod_cast hc
  have hs' : |(s : ℝ)| ≤ 1 := by exact_mod_cast hs
  set x := Real.cos (2 * Real.pi * p / q)
  set y := Real.sin (2 * Real.pi * p / q)
  have hxy : y ^ 2 + x ^ 2 = 1 := Real.sin_sq_add_cos_sq _
  have hx : |x| ≤ 1 := Real.abs_cos_le_one _
  have hy : |y| ≤ 1 := Real.abs_sin_le_one _
  have e : 1 - (c : ℝ) ^ 2 - (s : ℝ) ^ 2 = -((c - x) * (c + x)) - (s - y) * (s + y) := by linear_combination -hxy
  have b : ∀ {u v w : ℝ}, |u - v| ≤ w → |u| ≤ 1 → |v| ≤ 1 → |(u - v) * (u + v)| ≤ w * 2 := by
    intro u v w h1 h2 h3
    rw [abs_mul]
    exact mul_le_mul h1 ((abs_add_le _ _).trans (by linarith)) (abs_nonneg _) ((abs_nonneg _).trans h1)
  have d : |1 - (c : ℝ) ^ 2 - (s : ℝ) ^ 2| ≤ 4 * (2 : ℝ)⁻¹ ^ 64 := by
    rw [e]
    refine (abs_sub _ _).trans ?_
    rw [abs_neg]
    have := b hcx hc' hx
    have := b hsy hs' hy
    linarith
  constructor
  · refine (abs_sub_le _ (c : ℝ) _).trans ?_
    have : (9 : ℝ) * (2 : ℝ)⁻¹ ^ 64 ≤ (2 : ℝ)⁻¹ ^ 60 := by norm_num
    linarith
  · refine (abs_sub_le _ (s : ℝ) _).trans ?_
    have : (9 : ℝ) * (2 : ℝ)⁻¹ ^ 64 ≤ (2 : ℝ)⁻¹ ^ 60 := by norm_num
    linarith

end Sys2Proof.Machine
end

