-- ==== Sys2Proof/Laws/Synth.lean ====
section
/-! SUPPORT. The waveform, sample by sample. -/

namespace Sys2Proof.Machine

@[simp] theorem ncoTone_length (num : Num) (f rate n p : Nat) : (ncoTone num f rate n p).length = n := by
  induction n generalizing p with
  | zero => rfl
  | succ n ih => simp [ncoTone, ih]

/-- After `n` steps from phase `p` the NCO is at `(p + f·n) mod rate` (42_synth.md R161). -/
theorem ncoTone_getElem? (num : Num) (f rate : Nat) {n m p : Nat} (hm : m < n) (hp : p % rate = p) :
    (ncoTone num f rate n p)[m]? = some (num.tone ((p + f * m) % rate) rate) := by
  induction n generalizing m p with
  | zero => omega
  | succ n ih =>
    cases m with
    | zero => simp [ncoTone, hp]
    | succ m =>
      have h1 : ncoStep f rate p % rate = ncoStep f rate p := Nat.mod_mod _ _
      have h2 : (ncoStep f rate p + f * m) % rate = (p + f * (m + 1)) % rate := by
        rw [ncoStep, Nat.mod_add_mod]; ring_nf
      have h3 := ih (m := m) (by omega) h1
      rw [h2] at h3
      simpa [ncoTone] using h3

@[simp] theorem toneBlock_length (num : Num) (c : ConfigRegs) (b : Bool) : (toneBlock num c b).length = c.spb.toNat :=
  ncoTone_length _ _ _ _ _

/-- Sample `n` of a tone block (42_synth.md R162). -/
theorem toneBlock_getElem? (num : Num) (c : ConfigRegs) (b : Bool) {n : Nat} (h : n < c.spb.toNat) :
    (toneBlock num c b)[n]? = some (num.tone (c.toneFreq b * n % c.sr.toNat) c.sr.toNat) := by
  simpa [toneBlock] using ncoTone_getElem? num (c.toneFreq b) c.sr.toNat h (Nat.zero_mod _)

theorem toneBlocks_length (num : Num) (c : ConfigRegs) (bits : List Bool) :
    (bits.flatMap (toneBlock num c)).length = bits.length * c.spb.toNat := by
  induction bits with
  | nil => simp
  | cons b bits ih => simp [ih]; ring

/-- Sample `n` of the tone block of bit `i`, among the tone blocks (20_memory.md R68). -/
theorem toneBlocks_getElem? (num : Num) (c : ConfigRegs) (bits : List Bool) {i n : Nat} (hi : i < bits.length)
    (hn : n < c.spb.toNat) :
    (bits.flatMap (toneBlock num c))[i * c.spb.toNat + n]? =
      some (num.tone (c.toneFreq bits[i] * n % c.sr.toNat) c.sr.toNat) := by
  induction bits generalizing i with
  | nil => simp at hi
  | cons b bits ih =>
    rw [List.flatMap_cons]
    cases i with
    | zero =>
      rw [List.getElem?_append_left (by simpa using hn)]
      simpa using toneBlock_getElem? num c b hn
    | succ i =>
      have hi' : i < bits.length := by simpa using hi
      have e : (i + 1) * c.spb.toNat + n - (toneBlock num c b).length = i * c.spb.toNat + n := by
        rw [toneBlock_length, Nat.succ_mul]; omega
      rw [List.getElem?_append_right (by rw [toneBlock_length, Nat.succ_mul]; omega), e]
      simpa using ih hi'

@[simp] theorem guardBand_length (c : ConfigRegs) : (guardBand c).length = guardLen c.sr.toNat := by simp [guardBand]

/-- The length of a waveform (42_synth.md R163). -/
@[simp] theorem waveform_length (num : Num) (c : ConfigRegs) (bits : List Bool) :
    (waveform num c bits).length = waveLen c bits.length := by
  simp only [waveform, List.length_append, guardBand_length, toneBlocks_length, waveLen]; ring

theorem mem_ncoTone {num : Num} {f rate n p : Nat} {x : Amp} (h : x ∈ ncoTone num f rate n p) :
    ∃ q, (p < rate → q < rate) ∧ x = num.tone q rate := by
  induction n generalizing p with
  | zero => simp [ncoTone] at h
  | succ n ih =>
    simp only [ncoTone, List.mem_cons] at h
    rcases h with rfl | h
    · exact ⟨p, id, rfl⟩
    · obtain ⟨q, hq, hx⟩ := ih h
      exact ⟨q, fun hp => hq (Nat.mod_lt _ (by omega)), hx⟩

/-- Every sample of a waveform is 0 or a tone (42_synth.md R163). -/
theorem mem_waveform {num : Num} {c : ConfigRegs} {bits : List Bool} {x : Amp} (h : x ∈ waveform num c bits) :
    x = .rat 0 ∨ ∃ q, (0 < c.sr.toNat → q < c.sr.toNat) ∧ x = num.tone q c.sr.toNat := by
  simp only [waveform, List.mem_append, guardBand, List.mem_replicate, List.mem_flatMap] at h
  rcases h with (h | ⟨b, -, h⟩) | h
  · exact .inl h.2
  · exact .inr (mem_ncoTone h)
  · exact .inl h.2

/-- The samples of a waveform are amplitudes (00_scope.md R12). -/
theorem amp_waveform {num : Num} {val : Amp → ℝ} (h : ExactNum num val) {c : ConfigRegs} {bits : List Bool} {x : Amp}
    (hx : x ∈ waveform num c bits) (hr : 0 < c.sr.toNat) : num.amp x = true := by
  rcases mem_waveform hx with rfl | ⟨q, hq, rfl⟩
  exacts [h.amp_zero, h.amp_tone _ _ (hq hr)]

end Sys2Proof.Machine
end

