-- ==== Sys2Proof/Laws/Pcm.lean ====
section
/-! SUPPORT. The roundings and clamps of the numerics, and the conversion of samples. -/

namespace Sys2Proof.Machine

theorem clamp_range (x : Int) : -32768 ≤ clampInt (-32768) 32767 x ∧ clampInt (-32768) 32767 x ≤ 32767 := by
  unfold clampInt; split_ifs <;> omega

theorem clamp_mono {lo hi : Int} (hl : lo ≤ hi) {x y : Int} (h : x ≤ y) : clampInt lo hi x ≤ clampInt lo hi y := by
  unfold clampInt; split_ifs <;> omega

theorem ofCode_mono {a b : Int} (h : a ≤ b) : ofCode a ≤ ofCode b := by
  unfold ofCode
  have : (a : Rat) ≤ b := by exact_mod_cast h
  exact div_le_div_of_nonneg_right this (by norm_num)

theorem code_abs {c : Int} {n : Nat} (h : |c| ≤ n) : |ofCode c| ≤ (n : Rat) / 32768 := by
  have : |(c : Rat)| ≤ n := by exact_mod_cast h
  rw [ofCode, abs_div, abs_of_pos (by norm_num : (0 : Rat) < 32768)]
  exact div_le_div_of_nonneg_right this (by norm_num)

theorem code_le_one {c : Int} (h1 : -32768 ≤ c) (h2 : c ≤ 32767) : |ofCode c| ≤ 1 := by
  have : |c| ≤ (32768 : Nat) := by rw [abs_le]; constructor <;> push_cast <;> omega
  have := code_abs this
  norm_num at this ⊢; exact this

theorem rha_mono {x y : Rat} (h : x ≤ y) : roundHalfAway x ≤ roundHalfAway y := by
  unfold roundHalfAway
  have fm : ∀ a b : Rat, a ≤ b → a.floor ≤ b.floor := fun a b hab => Int.floor_mono hab
  have f0 : (0 : Rat).floor = 0 := by decide +kernel
  split_ifs with h1 h2 h2
  · have := fm (-y + 1/2) (-x + 1/2) (by linarith); omega
  · have e1 : 0 ≤ (-x + 1/2).floor := by
      have := fm 0 (-x + 1/2) (by linarith); rwa [f0] at this
    have e2 : 0 ≤ (y + 1/2).floor := by
      have := fm 0 (y + 1/2) (by linarith); rwa [f0] at this
    omega
  · linarith
  · exact fm _ _ (by linarith)

theorem trunc_mono {x y : Rat} (h : x ≤ y) : truncToZero x ≤ truncToZero y := by
  unfold truncToZero
  have fm : ∀ a b : Rat, a ≤ b → a.floor ≤ b.floor := fun a b hab => Int.floor_mono hab
  have f0 : (0 : Rat).floor = 0 := by decide +kernel
  split_ifs with h1 h2 h2
  · have := fm (-y) (-x) (by linarith); omega
  · have e1 : 0 ≤ (-x).floor := by
      have := fm 0 (-x) (by linarith); rwa [f0] at this
    have e2 : 0 ≤ (y).floor := by
      have := fm 0 y (by linarith); rwa [f0] at this
    omega
  · linarith
  · exact fm _ _ (by linarith)

/-- `PCM_LEN` does not depend on the width the elements are read at (10_state.md R29). -/
theorem codes16_length (p : PcmBuffer) : (codes16 p).length = p.length := by
  cases p <;> simp [codes16, PcmBuffer.length]

theorem codes32_length (p : PcmBuffer) : (codes32 p).length = p.length := by
  cases p <;> simp [codes32, PcmBuffer.length]

theorem reals_length (p : PcmBuffer) : (reals p).length = p.length := by
  cases p <;> simp [reals, PcmBuffer.length]

@[simp] theorem readPcm_length (s : State) : s.readPcm.length = s.pcm.length := by
  unfold State.readPcm
  split
  · exact codes16_length _
  · exact codes32_length _
  · exact reals_length _
  · rfl

@[simp] theorem normalise_length (num : Num) (p : PcmBuffer) : (normalise num p).length = p.length := by
  cases p <;> simp [normalise, PcmBuffer.length]

/-- Normalised samples are amplitudes (00_scope.md R12). -/
theorem amp_normalise {num : Num} {val : Amp → ℝ} (h : ExactNum num val) {p : PcmBuffer} {x : Amp}
    (hx : x ∈ normalise num p) : num.amp x = true := by
  cases p <;> obtain ⟨c, -, rfl⟩ := List.mem_map.mp hx
  exacts [h.amp_norm16 _, h.amp_norm32 _, h.amp_normF _]

/-- Normalised samples are codes in `Q15` (00_scope.md R14). -/
theorem isCode_normalise {p : PcmBuffer} {x : Amp} (hx : x ∈ normalise numQ15 p) : IsCode x := by
  cases p <;> obtain ⟨c, -, rfl⟩ := List.mem_map.mp hx
  · exact ⟨c.toInt, by have := c.le_toInt; omega, by have := c.toInt_lt; omega, rfl⟩
  · exact ⟨c.toInt / 65536, by have := c.le_toInt; omega, by have := c.toInt_lt; omega, rfl⟩
  · exact ⟨_, (clamp_range _).1, (clamp_range _).2, rfl⟩

/-- Synthesized samples are codes in `Q15` (00_scope.md R14). -/
theorem isCode_waveform {c : ConfigRegs} {bits : List Bool} {x : Amp} (h : x ∈ waveform numQ15 c bits) : IsCode x := by
  rcases mem_waveform h with rfl | ⟨q, -, rfl⟩
  · exact ⟨0, by omega, by omega, by norm_num⟩
  · have := abs_le.mp (sinCode_abs_le 26214 q c.sr.toNat)
    exact ⟨sinCode 26214 q c.sr.toNat, by omega, by omega, rfl⟩

/-- Quantising a stored sample gives its code back (46_pcm.md R232). -/
theorem quant_code {x : Amp} (h : IsCode x) : numQ15.norm16 (BitVec.ofInt 16 (numQ15.quant16 x)).toInt = x := by
  obtain ⟨c, h1, h2, rfl⟩ := h
  have e : (32768 * ((c : Rat) / 32768)).floor = c := by
    rw [show (32768 : Rat) * ((c : Rat) / 32768) = (c : Rat) by ring]
    exact (Int.floor_intCast (R := Rat) c :)
  have e2 : numQ15.quant16 (.rat ((c : Rat) / 32768)) = c := by
    simp only [numQ15, toRat_rat]; rw [e]; unfold clampInt; split_ifs <;> omega
  rw [e2, BitVec.toInt_ofInt]
  simp only [numQ15, ofCode]
  rw [Int.bmod_eq_of_le (by omega) (by omega)]

end Sys2Proof.Machine
end

