-- ==== Sys2Proof/Laws/ExactRef.lean ====
section
/-! SUPPORT. `REF` itself (00_scope.md R13), which is not computable: an instance of the record `Num` whose sine, cosine
and tone are the real functions, with irrational amplitudes, and with any given sequence of real numbers among them.
An irrational that an expression has for its value is named by the number of that expression. -/

namespace Sys2Proof.Machine

/-- The real numbers that sums and products make of the rationals, of the sines and cosines of phases, of the numbers
`r k`, and of one irrational of each cell. -/
inductive RealExpr where
  | rat (q : Rat)
  | sin (p q : Nat)
  | cos (p q : Nat)
  | given (k : Nat)
  | inCell (n : Int)
  | add (a b : RealExpr)
  | mul (a b : RealExpr)
  deriving Encodable

noncomputable def RealExpr.eval (r : Nat → ℝ) : RealExpr → ℝ
  | .rat q => q
  | .sin p q => Real.sin (2 * Real.pi * p / q)
  | .cos p q => Real.cos (2 * Real.pi * p / q)
  | .given k => r k
  | .inCell n => (n + √2 / 2) / cellUnit
  | .add a b => a.eval r + b.eval r
  | .mul a b => a.eval r * b.eval r

open Classical in
/-- The amplitude that stands for the value of an expression. -/
noncomputable def ofExpr (r : Nat → ℝ) (e : RealExpr) : Amp :=
  if h : ∃ q : Rat, (q : ℝ) = e.eval r then .rat h.choose else .irr ⌊cellUnit * e.eval r⌋ (Encodable.encode e)

open Classical in
/-- An expression with the value of an amplitude: the one whose number names the amplitude, if its value is an
irrational of the cell. -/
noncomputable def toExpr (r : Nat → ℝ) : Amp → RealExpr
  | .rat q => .rat q
  | .irr n k => match Encodable.decode (α := RealExpr) k with
    | some e => if (Amp.irr n k).Stands (e.eval r) then e else .inCell n
    | none => .inCell n

/-- The real number an amplitude stands for. -/
noncomputable def exactVal (r : Nat → ℝ) (a : Amp) : ℝ := (toExpr r a).eval r

theorem eval_toExpr (r : Nat → ℝ) (a : Amp) : (toExpr r a).eval r = exactVal r a := rfl

theorem exactVal_rat (r : Nat → ℝ) (q : Rat) : exactVal r (.rat q) = q := rfl

theorem exactVal_ofExpr (r : Nat → ℝ) (e : RealExpr) : exactVal r (ofExpr r e) = e.eval r := by
  unfold ofExpr
  split_ifs with h
  · rw [exactVal_rat]; exact h.choose_spec
  · have hs : (Amp.irr ⌊cellUnit * e.eval r⌋ (Encodable.encode e)).Stands (e.eval r) := floor_stands h _
    simp only [exactVal, toExpr, Encodable.encodek, if_pos hs]

/-- The irrational that `RealExpr.inCell` takes is one of its cell. -/
theorem inCell_stands (r : Nat → ℝ) (n : Int) (k : Nat) : (Amp.irr n k).Stands ((RealExpr.inCell n).eval r) := by
  have hu : (cellUnit : ℝ) ≠ 0 := by norm_num [cellUnit]
  have e : (cellUnit : ℝ) * ((n + √2 / 2) / cellUnit) = n + √2 / 2 := by field_simp
  have h1 : (0 : ℝ) < √2 := by positivity
  have h2 : √2 < 2 := by rw [Real.sqrt_lt' (by norm_num)]; norm_num
  refine ⟨?_, ?_, ?_⟩
  · have := ((irrational_sqrt_two.div_natCast (m := 2) (by norm_num)).intCast_add n).div_natCast (m := cellUnit)
      (by norm_num [cellUnit])
    simpa [RealExpr.eval] using this
  · simp only [RealExpr.eval]; rw [e]; linarith
  · simp only [RealExpr.eval]; rw [e]; linarith

/-- Every amplitude stands for its value. -/
theorem exactVal_stands (r : Nat → ℝ) (a : Amp) : a.Stands (exactVal r a) := by
  cases a with
  | rat q => rfl
  | irr n k =>
    simp only [exactVal, toExpr]
    split
    · split_ifs with h
      exacts [h, inCell_stands r n k]
    · exact inCell_stands r n k

/-- `trunc` of a real number (00_scope.md R13). -/
noncomputable def truncReal (x : ℝ) : Int := if x < 0 then -⌊-x⌋ else ⌊x⌋

/-- `REF` (00_scope.md R13). -/
noncomputable def exactRef (r : Nat → ℝ) : Num where
  amp := fun _ => true
  add a b := ofExpr r (.add (toExpr r a) (toExpr r b))
  mul a b := ofExpr r (.mul (toExpr r a) (toExpr r b))
  lt a b := @decide (exactVal r a < exactVal r b) (Classical.propDecidable _)
  sin p q := ofExpr r (.sin p q)
  cos p q := ofExpr r (.cos p q)
  tone p q := ofExpr r (.mul (.rat toneAmplitude) (.sin p q))
  norm16 c := .rat ((c : Rat) / 32768)
  norm32 c := .rat ((c : Rat) / 2147483648)
  normF x := x
  quant16 a := clampInt (-32767) 32767 (truncReal (32767 * exactVal r a))

theorem exactRef_exact (r : Nat → ℝ) : ExactNum (exactRef r) (exactVal r) := by
  constructor
  case val_irr => exact fun n k => (exactVal_stands r (.irr n k)).2
  all_goals intros; simp [exactRef, exactVal_ofExpr, RealExpr.eval, exactVal_rat, eval_toExpr]

/-- The bound of the law N3 is 0 for `REF` (00_scope.md R15). -/
theorem exactRef_near (r : Nat → ℝ) : NearReal (exactRef r) (exactVal r) 0 := by
  constructor <;> intros <;> simp [exactRef, exactVal_ofExpr, RealExpr.eval, toneAmplitude]

/-- Every number of the given sequence is an amplitude. -/
theorem exactRef_given (r : Nat → ℝ) (k : Nat) : ∃ a, (exactRef r).amp a = true ∧ exactVal r a = r k :=
  ⟨ofExpr r (.given k), rfl, exactVal_ofExpr r _⟩

theorem truncReal_mono {x y : ℝ} (h : x ≤ y) : truncReal x ≤ truncReal y := by
  unfold truncReal
  split_ifs with h1 h2 h2
  · exact neg_le_neg (Int.floor_mono (by linarith))
  · have e1 : 0 ≤ ⌊-x⌋ := Int.floor_nonneg.mpr (by linarith)
    have e2 : 0 ≤ ⌊y⌋ := Int.floor_nonneg.mpr (by linarith)
    omega
  · linarith
  · exact Int.floor_mono h

/-- `REF` satisfies the laws every instance must satisfy (00_scope.md R15). -/
theorem exactRef_laws (r : Nat → ℝ) : NumLaws (exactRef r) (exactVal r) where
  toExactNum := exactRef_exact r
  sin_zero q _ := by simp [exactRef, exactVal_ofExpr, RealExpr.eval]
  tone_zero q _ := by simp [exactRef, exactVal_ofExpr, RealExpr.eval]
  cos_zero_pos q _ := by simp [exactRef, exactVal_ofExpr, RealExpr.eval]
  sin_le p q _ := by simpa [exactRef, exactVal_ofExpr, RealExpr.eval] using Real.abs_sin_le_one _
  cos_le p q _ := by simpa [exactRef, exactVal_ofExpr, RealExpr.eval] using Real.abs_cos_le_one _
  tone_le p q _ := by
    have := Real.abs_sin_le_one (2 * Real.pi * p / q)
    simp only [exactRef, exactVal_ofExpr, RealExpr.eval, abs_mul, toneAmplitude]
    norm_num; linarith
  near := ⟨0, exactRef_near r⟩
  norm16_range c h1 h2 := by
    have h1' : (-32768 : ℝ) ≤ c := by exact_mod_cast h1
    have h2' : (c : ℝ) ≤ 32767 := by exact_mod_cast h2
    simp only [exactRef, exactVal_rat]
    push_cast
    rw [abs_le]
    constructor
    · rw [le_div_iff₀ (by norm_num)]; linarith
    · rw [div_le_iff₀ (by norm_num)]; linarith
  norm32_range c h1 h2 := by
    have h1' : (-2147483648 : ℝ) ≤ c := by exact_mod_cast h1
    have h2' : (c : ℝ) ≤ 2147483647 := by exact_mod_cast h2
    simp only [exactRef, exactVal_rat]
    push_cast
    rw [abs_le]
    constructor
    · rw [le_div_iff₀ (by norm_num)]; linarith
    · rw [div_le_iff₀ (by norm_num)]; linarith
  normF_range x h := h
  norm_zero := by simp [exactRef, exactVal_rat]
  norm16_mono c d _ h _ := by
    have : (c : ℝ) ≤ d := by exact_mod_cast h
    simp only [exactRef, exactVal_rat]; push_cast; linarith
  norm32_mono c d _ h _ := by
    have : (c : ℝ) ≤ d := by exact_mod_cast h
    simp only [exactRef, exactVal_rat]; push_cast; linarith
  normF_mono x y h := h
  quant16_range a _ := by
    simp only [exactRef, clampInt]; split_ifs <;> omega
  quant16_zero := by
    have : truncReal (32767 * exactVal r (.rat 0)) = 0 := by simp [truncReal, exactVal_rat]
    simp only [exactRef, this]; decide
  quant16_mono a b h := clamp_mono (by omega) (truncReal_mono (by linarith))

end Sys2Proof.Machine
end

