-- ==== Sys2Proof/Laws/Exec.lean ====
section
/-! SUPPORT. What a command can do, said once: it raises a fault and changes nothing else, or it completes and writes
only its own outputs. -/

namespace Sys2Proof.Machine

theorem frameOf_complete {i : Instr} {s u : State} (insuf trunc : Bool) (res : Word) (h : FrameOf i s u) :
    FrameOf i s (complete insuf trunc res u) :=
  ⟨h.par, h.inputs, h.cfg, h.power, h.txt, h.bit, h.wav, h.pcm⟩

theorem frameOf_raise (i : Instr) (f : CmdFault) (info : Nat) (s : State) : FrameOf i s (raise f info s) :=
  ⟨rfl, rfl, fun _ => rfl, fun _ => rfl, fun _ => rfl, fun _ => rfl, fun _ => ⟨rfl, rfl⟩, fun _ => ⟨rfl, rfl, rfl⟩⟩

/-- The two ways a command can end. -/
inductive Ends (i : Instr) (s : State) : State → Prop where
  | faulted (f : CmdFault) (info : Nat) : Ends i s (raise f info s)
  | completed (insuf trunc : Bool) (res : Word) (u : State) (frame : FrameOf i s u)
      (one : insuf = true → trunc = false) (parser : writesTxt i = false → insuf = false ∧ trunc = false) :
      Ends i s (complete insuf trunc res u)

theorem ends_plain {i : Instr} {s u : State} (res : Word) (h : FrameOf i s u) :
    Ends i s (complete false false res u) :=
  .completed false false res u h (by simp) (by simp)

/-- Every command ends, on every state (70_reset_and_hazards.md R283). -/
theorem exec_ends (i : Instr) (s : State) : ∃ t, exec i s = .next t ∧ Ends i s t := by
  cases i with
  | setSr v =>
    simp only [exec, execSetSr]
    split
    · exact ⟨_, rfl, ends_plain 0 (by constructor <;> simp [writesCfg])⟩
    · exact ⟨_, rfl, .faulted _ _⟩
  | setBaud v =>
    simp only [exec, execSetBaud]
    split
    · exact ⟨_, rfl, ends_plain 0 (by constructor <;> simp [writesCfg])⟩
    · exact ⟨_, rfl, .faulted _ _⟩
  | setFmark v => exact ⟨_, rfl, ends_plain 0 (by constructor <;> simp [writesCfg])⟩
  | setFspace v => exact ⟨_, rfl, ends_plain 0 (by constructor <;> simp [writesCfg])⟩
  | cfgReset => exact ⟨_, rfl, ends_plain 0 (by constructor <;> simp [writesCfg])⟩
  | cfgGet sel =>
    simp only [exec, execCfgGet]
    split
    · exact ⟨_, rfl, ends_plain _ (by constructor <;> simp)⟩
    · exact ⟨_, rfl, .faulted _ _⟩
  | serialize =>
    simp only [exec, execSerialize]
    split
    · exact ⟨_, rfl, .faulted _ _⟩
    · exact ⟨_, rfl, ends_plain 0 (by constructor <;> simp [writesBit])⟩
  | deserialize =>
    simp only [exec, execDeserialize]
    split
    · exact ⟨_, rfl, .completed _ _ 0 _ (by constructor <;> simp [writesTxt]) (parseFrame_one_flag _ _)
        (by simp [writesTxt])⟩
    · exact ⟨_, rfl, .faulted _ _⟩
  | synthesize =>
    simp only [exec, execSynthesize]
    split
    · exact ⟨_, rfl, ends_plain 0 (by constructor <;> simp [writesWav])⟩
    · exact ⟨_, rfl, .faulted _ _⟩
  | score off len freq rate =>
    simp only [exec, execScore]
    split_ifs
    · exact ⟨_, rfl, .faulted _ _⟩
    · exact ⟨_, rfl, .faulted _ _⟩
    · exact ⟨_, rfl, ends_plain 0 (by constructor <;> simp [writesPower])⟩
  | demodulate =>
    simp only [exec, execDemodulate]
    split
    · exact ⟨_, rfl, .faulted _ _⟩
    · exact ⟨_, rfl, ends_plain 0 (by constructor <;> simp [writesBit])⟩
  | encode =>
    simp only [exec, execEncode]
    split
    · exact ⟨_, rfl, .faulted _ _⟩
    · split
      · exact ⟨_, rfl, ends_plain 0 (by constructor <;> simp [writesBit, writesWav])⟩
      · exact ⟨_, rfl, .faulted _ _⟩
  | decode =>
    simp only [exec, execDecode]
    split
    · exact ⟨_, rfl, .faulted _ _⟩
    · split
      · exact ⟨_, rfl, .completed _ _ 0 _ (by constructor <;> simp [writesBit, writesTxt]) (parseFrame_one_flag _ _)
          (by simp [writesTxt])⟩
      · exact ⟨_, rfl, .faulted _ _⟩
  | pcmNorm =>
    simp only [exec, execPcmNorm]
    split_ifs
    · exact ⟨_, rfl, .faulted _ _⟩
    · exact ⟨_, rfl, ends_plain 0 (by constructor <;> simp [writesWav])⟩
    · exact ⟨_, rfl, .faulted _ _⟩
  | pcmQuant =>
    simp only [exec, execPcmQuant]
    split
    · exact ⟨_, rfl, ends_plain 0 (by constructor <;> simp [writesPcm])⟩
    · exact ⟨_, rfl, .faulted _ _⟩

/-- How a command ended, from the state it answered. -/
theorem exec_next {i : Instr} {s t : State} (h : exec i s = .next t) : Ends i s t := by
  obtain ⟨u, hu, he⟩ := exec_ends i s
  rw [h] at hu
  cases hu
  exact he

/-- A step with a descriptor at the port (30_encoding.md R87, R90). -/
theorem step_command {s : State} {d : Descriptor} {rest : List Input} (h : s.inputs = .command d :: rest)
    (hb : s.status.busy = false) : step s = runDescriptor d { s with inputs := rest } := by
  unfold step; rw [h]; simp [hb, hostMove]

/-- A step with no move outstanding (20_memory.md R63). -/
theorem step_idle {s : State} (h : s.inputs = []) : step s = .next s := by unfold step; rw [h]

/-- The host's other moves never run a command: each answers the state with one writable register, one tag or one
buffer replaced, or the reset state, or stops (10_state.md R33). -/
theorem hostMove_next {m : Input} {s t : State} (h : hostMove m s = .next t) :
    (∃ d, m = .command d ∧ runDescriptor d s = .next t) ∨ t = s ∨ t = hardwareReset s ∨
      (∃ v, t = { s with wavRate := v }) ∨ (∃ v, t = { s with pcmRate := v }) ∨ (∃ v, t = { s with pcmFmt := v }) ∨
      (∃ x, t = { s with txt := x } ∧ fits s.par.txtCap x.length = true) ∨
      (∃ x, t = { s with bit := x } ∧ fits s.par.bitCap x.length = true) ∨
      (∃ x, t = { s with wav := x } ∧ fits s.par.wavCap x.length = true ∧ ∀ a ∈ x, (numOf s.par.numerics).amp a = true) ∨
      ∃ x, t = { s with pcm := x } ∧ fits s.par.pcmCap x.length = true := by
  cases m <;> simp only [hostMove, hostLoad, hostWriteReg, hostReadReg] at h
  case command d => exact .inl ⟨d, rfl, h⟩
  case writeReg n v =>
    split at h <;> (try split_ifs at h) <;> (cases h; simp)
  case readReg n =>
    split at h
    · cases h; simp
    · split_ifs at h
  case readBuffers => cases h; simp
  case hardwareReset => cases h; simp
  case loadTxt x => split_ifs at h with hf; cases h; exact .inr (.inr (.inr (.inr (.inr (.inr (.inl ⟨x, rfl, hf⟩))))))
  case loadBit x =>
    split_ifs at h with hf; cases h; exact .inr (.inr (.inr (.inr (.inr (.inr (.inr (.inl ⟨x, rfl, hf⟩)))))))
  case loadWav x =>
    split_ifs at h with ha hf; cases h
    exact .inr (.inr (.inr (.inr (.inr (.inr (.inr (.inr (.inl ⟨x, rfl, hf, List.all_eq_true.mp ha⟩))))))))
  case loadPcm x =>
    split_ifs at h with hf; cases h
    exact .inr (.inr (.inr (.inr (.inr (.inr (.inr (.inr (.inr ⟨x, rfl, hf⟩))))))))

end Sys2Proof.Machine
end

