-- ==== Sys2Proof/Laws/PerInstr.lean ====
section
/-! SUPPORT. The statements made per instruction, one lemma per constructor. -/

namespace Sys2Proof.Laws.RoundTrip

/-- The descriptor of a well-formed command decodes to it. -/
def Statement (i : Instr) : Prop := i.wf = true → decode (encode i) = .ok i

theorem setSr (v : Word) : Statement (.setSr v) := fun _ => by
  simp [Sys2Proof.decode, Sys2Proof.encode, decodeOpcode, formatV]
theorem setBaud (v : Word) : Statement (.setBaud v) := fun _ => by
  simp [Sys2Proof.decode, Sys2Proof.encode, decodeOpcode, formatV]
theorem setFmark (v : Word) : Statement (.setFmark v) := fun _ => by
  simp [Sys2Proof.decode, Sys2Proof.encode, decodeOpcode, formatV]
theorem setFspace (v : Word) : Statement (.setFspace v) := fun _ => by
  simp [Sys2Proof.decode, Sys2Proof.encode, decodeOpcode, formatV]
theorem cfgReset : Statement .cfgReset := fun _ => rfl
theorem cfgGet (sel : Word) : Statement (.cfgGet sel) := fun h => by
  have h4 : sel.toNat ≤ maxSelector := of_decide_eq_true h
  simp [Sys2Proof.decode, Sys2Proof.encode, decodeOpcode, formatSelector, formatV, h4]
theorem serialize : Statement .serialize := fun _ => rfl
theorem deserialize : Statement .deserialize := fun _ => rfl
theorem synthesize : Statement .synthesize := fun _ => rfl
theorem score (off len freq rate : Word) : Statement (.score off len freq rate) := fun _ => by
  simp [Sys2Proof.decode, Sys2Proof.encode, decodeOpcode, formatS]
theorem demodulate : Statement .demodulate := fun _ => rfl
theorem encode : Statement .encode := fun _ => rfl
theorem decode : Statement .decode := fun _ => rfl
theorem pcmNorm : Statement .pcmNorm := fun _ => rfl
theorem pcmQuant : Statement .pcmQuant := fun _ => rfl

end Sys2Proof.Laws.RoundTrip
end

