-- ==== Sys2Proof/Tests/Slice0.lean ====
section
/-! SUPPORT. Small tests against the spec's own vectors, and a witness for the hypotheses of every statement. -/

namespace Sys2Proof.Tests

open Sys2Proof Sys2Proof.Machine

/-! ## Helpers -/

/-- The state a command ends in (the state it started from where it does not end). -/
def after (i : Instr) (s : State) : State :=
  match exec i s with
  | .next t => t
  | .fault _ => s
  | .refused _ => s

/-- `STATUS` and `RES0` after a command, none where it does not end. -/
def report (i : Instr) (s : State) : Option (Word × Word) :=
  match exec i s with
  | .next t => some (t.status.word, t.res0)
  | .fault _ => none
  | .refused _ => none

/-- The state one step leads to, none where it stops. -/
def stepped (s : State) : Option State :=
  match step s with
  | .next t => some t
  | .fault _ => none
  | .refused _ => none

/-- A bit sequence from the bytes it packs to and loose bits. -/
def bitsFrom (y : List Byte) (loose : List Bool) : List Bool := bitsOf y ++ loose

/-- A state with this configuration, the rest as after reset. -/
def withCfg (sr baud spb : Word) : State := { State.reset with cfg := ⟨sr, baud, 1270, 1070, spb⟩ }

/-- A state with unequal capacities of the four buffers, the rest as after reset. -/
def withCaps (t b w p : Nat) : State :=
  { State.reset with
    par := { Params.default with txtCap := some t, bitCap := some b, wavCap := some w, pcmCap := some p } }

/-- A waveform of rationals. -/
def rats (w : List Rat) : List Amp := w.map .rat

/-- The decoded command, none where the descriptor is illegal. -/
def decoded (d : Descriptor) : Option Instr :=
  match decode d with
  | .ok i => some i
  | .error _ => none

/-! ## Well-formedness: the one check there is (30_encoding.md R90) -/

theorem test_wellformed_selector : (Instr.cfgGet 4).wf = true ∧ (Instr.cfgGet 5).wf = false := by decide

/-! ## Decoding: the words of every row (30_encoding.md R87, R89; the programs of 95_test_vectors.md section 9) -/

theorem test_decode_setters :
    decoded ⟨0x00000001, 0x0000AC44, 0, 0, 0⟩ = some (.setSr 44100) ∧
      decoded ⟨0x00000002, 0x00000258, 0, 0, 0⟩ = some (.setBaud 600) ∧
      decoded ⟨0x00000003, 0x00000898, 0, 0, 0⟩ = some (.setFmark 2200) ∧
      decoded ⟨0x00000004, 0x000004B0, 0, 0, 0⟩ = some (.setFspace 1200) ∧
      decoded ⟨0x00000005, 0, 0, 0, 0⟩ = some .cfgReset ∧
      decoded ⟨0x00000006, 0x00000004, 0, 0, 0⟩ = some (.cfgGet 4) := by decide

theorem test_decode_commands :
    decoded ⟨0x00000010, 0, 0, 0, 0⟩ = some .serialize ∧ decoded ⟨0x00000011, 0, 0, 0, 0⟩ = some .deserialize ∧
      decoded ⟨0x00000020, 0, 0, 0, 0⟩ = some .synthesize ∧
      decoded ⟨0x00000030, 0x00000320, 0x0000001B, 0x000004F6, 0x00001F40⟩ = some (.score 800 27 1270 8000) ∧
      decoded ⟨0x00000040, 0, 0, 0, 0⟩ = some .demodulate ∧ decoded ⟨0x00000050, 0, 0, 0, 0⟩ = some .encode ∧
      decoded ⟨0x00000051, 0, 0, 0, 0⟩ = some .decode ∧ decoded ⟨0x00000060, 0, 0, 0, 0⟩ = some .pcmNorm ∧
      decoded ⟨0x00000061, 0, 0, 0, 0⟩ = some .pcmQuant := by decide

/-- One illegal descriptor for each condition of R90. -/
theorem test_decode_illegal :
    decode ⟨0, 0, 0, 0, 0⟩ = .error .unknownOpcode ∧ decode ⟨0x70, 0, 0, 0, 0⟩ = .error .unknownOpcode ∧
      decode ⟨0x110, 0, 0, 0, 0⟩ = .error .reservedBits ∧ decode ⟨0x10, 0, 0, 0, 1⟩ = .error .unusedOperand ∧
      decode ⟨0x02, 600, 1, 0, 0⟩ = .error .unusedOperand ∧ decode ⟨6, 5, 0, 0, 0⟩ = .error .selectorAboveFour := by
  refine ⟨?_, ?_, ?_, ?_, ?_, ?_⟩ <;> rfl

/-- The table's numbering of the bits: `W1` stands in bits 63 to 32. -/
theorem test_table_word :
    decodeTableWord 160 (0x30 + 800 * 2 ^ 32 + 27 * 2 ^ 64 + 1270 * 2 ^ 96 + 8000 * 2 ^ 128) =
        some (.score 800 27 1270 8000) ∧
      decodeTableWord 8 0x51 = some .decode ∧ decodeTableWord 160 0x151 = none := by decide

/-- The presented word is run by the very next step. -/
theorem test_fetched_word_runs :
    (stepped (State.reset.withFetchWord 64 (0x02 + 600 * 2 ^ 32))).map (fun t => (t.cfg.baud, t.cfg.spb, t.inputs)) =
      some (600, 13, []) := by decide

/-! ## Configuration (95_test_vectors.md section 8) -/

theorem test_samples_per_bit :
    [(8000, 300), (8000, 600), (8000, 1200), (44100, 300), (44100, 1200), (8000, 3200), (9000, 1200), (7000, 400),
      (3, 2), (5, 2), (8000, 15999), (8000, 16000), (8000, 16001), (0, 300)].map
        (fun p => samplesPerBit .toEven p.1 p.2) = [27, 13, 7, 147, 37, 2, 8, 18, 2, 2, 1, 0, 0, 0] ∧
    [(8000, 3200), (9000, 1200), (7000, 400), (3, 2), (5, 2), (8000, 16000)].map
        (fun p => samplesPerBit .halfUp p.1 p.2) = [3, 8, 18, 2, 3, 1] := by decide

theorem test_setSr :
    (after (.setSr 44100) State.reset).cfg = ⟨44100, 300, 1270, 1070, 147⟩ ∧
      report (.setSr 100) State.reset = some (0x30, 100) := by decide

theorem test_setBaud :
    (after (.setBaud 15999) State.reset).cfg = ⟨8000, 15999, 1270, 1070, 1⟩ ∧
      report (.setBaud 16000) State.reset = some (0x30, 16000) := by decide

theorem test_setFmark : (after (.setFmark 0) State.reset).cfg = ⟨8000, 300, 0, 1070, 27⟩ := by decide

theorem test_setFspace : (after (.setFspace 1270) State.reset).cfg = ⟨8000, 300, 1270, 1270, 27⟩ := by decide

theorem test_cfgReset :
    (after .cfgReset (withCfg 44100 1200 37)).cfg = ⟨8000, 300, 1270, 1070, 27⟩ ∧
      (after .cfgReset { State.reset with txt := [0x41] }).txt = [0x41] := by decide

theorem test_cfgGet :
    report (.cfgGet 4) State.reset = some (0, 27) ∧ report (.cfgGet 5) State.reset = some (0x60, 6) := by decide

/-! ## Frame codec (95_test_vectors.md section 2) -/

/-- Section 2 (a), the ends of every row of the table of R130. -/
theorem test_utf8_encode :
    ([0x7F, 0x80, 0x7FF, 0x800, 0xD7FF, 0xE000, 0xFFFF, 0x10000, 0x10FFFF] : List CodePoint).map utf8EncPoint =
        [some [0x7F], some [0xC2, 0x80], some [0xDF, 0xBF], some [0xE0, 0xA0, 0x80], some [0xED, 0x9F, 0xBF],
          some [0xEE, 0x80, 0x80], some [0xEF, 0xBF, 0xBF], some [0xF0, 0x90, 0x80, 0x80],
          some [0xF4, 0x8F, 0xBF, 0xBF]] ∧
      ([0xD800, 0xDFFF, 0x110000, 0x1FFFFF] : List CodePoint).map utf8EncPoint = [none, none, none, none] := by decide

/-- Section 2 (b). -/
theorem test_utf8_decode :
    utf8Dec .perByte [0x48, 0xFF, 0x69] = [0x48, 0xFFFD, 0x69] ∧
      utf8Dec .perByte [0xC0, 0x80] = [0xFFFD, 0xFFFD] ∧
      utf8Dec .perByte [0xED, 0xA0, 0x80] = [0xFFFD, 0xFFFD, 0xFFFD] ∧
      utf8Dec .perByte [0xF4, 0x90, 0x80, 0x80] = [0xFFFD, 0xFFFD, 0xFFFD, 0xFFFD] ∧
      utf8Dec .perByte [0xE2, 0x82, 0xAC, 0xE2] = [0x20AC, 0xFFFD] ∧
      utf8Dec .perByte [0xF0, 0x9F, 0x98, 0x80] = [0x1F600] := by decide

/-- Section 2 (c): the 64 bits of "Hi", and the index of an unpaired surrogate. -/
theorem test_serialize :
    (after .serialize { State.reset with txt := [0x48, 0x69] }).bit =
        bitsFrom [0xAA, 0x55, 0xAA, 0x55, 0x02, 0x00, 0x48, 0x69] [] ∧
      report .serialize { State.reset with txt := [0x48, 0xD800, 0x69] } = some (0x10, 1) := by decide

/-- A bit sequence from its digits: the most significant bit of a byte comes first (20_memory.md R53). -/
theorem test_bit_order : bitsOf [0xAA, 0x01] =
    [true, false, true, false, true, false, true, false, false, false, false, false, false, false, false, true] := by
  decide

/-- Section 2 (d): text and `STATUS` for four of the sequences. -/
theorem test_deserialize :
    [([0x00, 0xAA, 0x55, 0xAA, 0x55, 0x01, 0x00, 0x41], []), ([0xAA, 0x55, 0xAA, 0x55, 0x05, 0x00, 0x41, 0x42], []),
      ([0x12, 0x34, 0xAA, 0x55, 0xAA, 0x55, 0x05], []), ([0xAA, 0x55, 0xAA, 0x55, 0xAA, 0x55, 0x00, 0x00], [])].map
        (fun p => let t := after .deserialize { State.reset with bit := bitsFrom p.1 p.2 }
          (t.txt, t.status.word)) =
      [([0x41], 0x00), ([0x41, 0x42], 0x04), ([], 0x02), ([0x00, 0x00], 0x04)] := by decide

/-- Section 2 (d) and (e): loose bits at the end, a late start by one bit, and a cut at 47 bits. -/
theorem test_deserialize_loose_bits :
    [bitsFrom [0xAA, 0x55, 0xAA, 0x55, 0x01, 0x00, 0x41] [true, true, true],
      false :: bitsFrom [0xAA, 0x55, 0xAA, 0x55, 0x01, 0x00, 0x41] [],
      (bitsFrom [0xAA, 0x55, 0xAA, 0x55, 0x02, 0x00, 0x48, 0x69] []).take 47].map
        (fun b => let t := after .deserialize { State.reset with bit := b }
          (t.txt, t.status.word)) =
      [([0x41], 0x00), ([], 0x02), ([], 0x02)] := by decide

/-! ## Numerics (00_scope.md R14; 95_test_vectors.md section 6) -/

/-- The codes of R14 at 1270 Hz. -/
theorem test_q15_codes :
    (List.range 8).map (fun n => sinCode 32767 (1270 * n % 8000) 8000) =
        [0, 27527, 29864, 4872, -24579, -31537, -9635, 21084] ∧
      (List.range 8).map (fun n => cosCode 32767 (1270 * n % 8000) 8000) =
        [32767, 17774, -13484, -32403, -21669, 8894, 31318, 25083] ∧
      (List.range 8).map (fun n => sinCode 26214 (1270 * n % 8000) 8000) =
        [0, 22022, 23892, 3897, -19663, -25230, -7708, 16868] := by decide +kernel

/-- Section 6 (a): the corners of the tables. -/
theorem test_q15_corners :
    sinCode 26214 2000 8000 = 26214 ∧ sinCode 32767 2000 8000 = 32767 ∧ sinCode 32767 4000 8000 = 0 ∧
      cosCode 32767 0 44100 = 32767 ∧ cosCode 32767 2000 8000 = 0 ∧ cosCode 32767 4000 8000 = -32767 := by
  decide +kernel

/-! ## Waveform, detector, demodulator -/

/-- The two tone blocks of two samples between two guard bands of one sample, at 12 Hz and tones at a quarter and at
three quarters of the rate: by hand from 42_synth.md R163 and the corners above. -/
theorem test_synthesize :
    (after .synthesize { State.reset with cfg := ⟨12, 6, 3, 9, 2⟩, bit := [true, false] }).wav =
        rats [0, 0, 26214 / 32768, 0, -26214 / 32768, 0] ∧
      report .synthesize { (withCaps 0 2 1653 0) with bit := [true, false] } = some (0x50, 1654) := by decide +kernel

/-- Section 6 (d): two samples in `Q15`, and section 3 (a): the end of the waveform is inside, one further is not. -/
theorem test_score :
    (after (.score 0 2 1270 8000) { State.reset with wav := rats [1 / 2, -1 / 4] }).power =
        .rat (203927283885408256 / 1152921504606846976) ∧
      report (.score 1 0 1270 8000) { State.reset with wav := rats [1 / 2] } = some (0, 0) ∧
      report (.score 1 1 1270 8000) { State.reset with wav := rats [1 / 2] } = some (0x40, 1) ∧
      report (.score 0 1 1270 0) { State.reset with wav := rats [1 / 2] } = some (0x30, 0) := by decide +kernel

/-- Section 5 (l): 27 samples, one of them loud: one block, whose two powers in `Q15` are
288218129320902656 and 288216677621956608 units of `2^-60`. -/
theorem test_demodulate :
    (after .demodulate { State.reset with wav := rats (List.replicate 3 0 ++ [1 / 2] ++ List.replicate 23 0) }).bit = [false] ∧
      power numQ15 (rats (List.replicate 3 0 ++ [1 / 2] ++ List.replicate 23 0)) 1070 8000 =
        .rat (288218129320902656 / 1152921504606846976) ∧
      power numQ15 (rats (List.replicate 3 0 ++ [1 / 2] ++ List.replicate 23 0)) 1270 8000 =
        .rat (288216677621956608 / 1152921504606846976) := by decide +kernel

/-- 44_demod.md R196: the threshold is strict, the start a quarter bit period before the first loud sample. -/
theorem test_start :
    startIndex numQ15 27 (rats (List.replicate 20 (1 / 100) ++ [-1 / 50])) = 14 ∧
      startIndex numQ15 27 (rats (List.replicate 9 (1 / 100))) = 0 := by
  decide +kernel

/-- Section 5 (i): a rate tag of 100 at 300 baud; section 5 (f): 27 zeros give one zero bit. -/
theorem test_demodulate_rates :
    report .demodulate { State.reset with wavRate := 100, wav := rats [1 / 2] } = some (0x30, 100) ∧
      (after .demodulate { State.reset with wav := rats (List.replicate 27 0) }).bit = [false] := by decide +kernel

/-- 45_facade.md R215: the empty text is 48 tone blocks between the guard bands, here of 0 and 1 sample. -/
theorem test_encode :
    (after .encode (withCfg 9 9 1)).wav.length = 48 ∧ (after .encode (withCfg 9 9 1)).wavRate = 9 ∧
      (after .encode (withCfg 9 9 1)).bit.length = 48 ∧
      report .encode { State.reset with txt := [0x110000] } = some (0x10, 0) := by decide +kernel

/-- 95_test_vectors.md section 5 (f): silence decodes to the empty text with `INSUF`. -/
theorem test_decode :
    report .decode { State.reset with wav := rats (List.replicate 54 0), txt := [0x41] } = some (0x02, 0) ∧
      (after .decode { State.reset with wav := rats (List.replicate 54 0), txt := [0x41] }).txt = [] := by decide +kernel

/-! ## Audio boundary (95_test_vectors.md section 7) -/

theorem test_pcmNorm :
    (after .pcmNorm { State.reset with
        pcm := .i16 [0, 16384, -32768, 32767], pcmRate := 44100 }).wav = rats [0, 1 / 2, -1, 32767 / 32768] ∧
      (after .pcmNorm { State.reset with
        pcm := .i32 [1073741824, -2147483648, 65535], pcmFmt := 1 }).wav = rats [1 / 2, -1, 0] := by
  decide +kernel

theorem test_pcmNorm_real :
    (after .pcmNorm { State.reset with pcm := .f (rats [1 / 4, -3 / 2]), pcmFmt := 2 }).wav = rats [1 / 4, -1] ∧
      report .pcmNorm { State.reset with pcmFmt := 3 } = some (0x60, 0x60) := by decide +kernel

/-- Section 7 (b) in the approximation of `REF`, and section 6 (b) in `Q15`. -/
theorem test_pcmQuant :
    (after .pcmQuant { State.reset with
        par := { Params.default with numerics := .ref }
        wav := rats [1 / 2, -1 / 2, 1, -1, 5 / 4, 1 / 100000] }).pcm =
        .i16 [16383, -16383, 32767, -32767, 32767, 0] ∧
      (after .pcmQuant { State.reset with wav := rats [22022 / 32768, -25230 / 32768], pcmFmt := 2 }).pcm =
        .i16 [22022, -25230] := by decide +kernel

/-- The cell of half the square root of 2, by integers. Its `NORMF` in `Q15` by hand: 32768 · 0.70710678… = 23170.47…. -/
theorem test_pcmNorm_irrational :
    2 * 10685169467066981868801460 ^ 2 < cellUnit ^ 2 ∧ cellUnit ^ 2 < 2 * 10685169467066981868801461 ^ 2 ∧
      (after .pcmNorm { State.reset with
        pcmFmt := 2
        pcm := .f [.irr 10685169467066981868801460 0, .irr (-10685169467066981868801461) 0] }).wav =
        rats [23170 / 32768, -23170 / 32768] := by decide +kernel

/-- Section 4 (a): `REF` to ten digits. -/
theorem test_ref_tone :
    |(numRef.tone 1270 8000).toRat - 6720748431 / 10000000000| < 1 / 10000000000 ∧
      |(numRef.tone 1020 8000).toRat - 5745010382 / 10000000000| < 1 / 10000000000 := by decide +kernel

/-! ## Host moves (10_state.md R33, 20_memory.md R60) -/

theorem test_host_moves :
    (stepped { State.reset with inputs := [.writeReg 8 16000] }).map (·.wavRate) = some 16000 ∧
      (stepped { State.reset with inputs := [.loadTxt [0x48, 0x69]] }).map (·.txt) = some [0x48, 0x69] ∧
      State.reset.readRegister 4 = some (.word 27) := by decide

/-! ## Witnesses: the hypotheses of the statements can be met, clause by clause -/

theorem witness_IllegalDescriptorsRaiseIllegalCommand :
    LegalDescriptor ⟨0x30, 1, 2, 3, 4⟩ ∧ ¬ LegalDescriptor ⟨0x06, 5, 0, 0, 0⟩ ∧
      ({ State.reset with inputs := [.command ⟨0x06, 5, 0, 0, 0⟩] } : State).status.busy = false :=
  ⟨⟨by decide, by decide, by decide, by decide, by decide⟩, fun h => absurd (h.selector (by decide)) (by decide), rfl⟩

theorem witness_StepRunsTheDecodedCommand :
    ∃ s : State, s.inputs = [.command ⟨6, 4, 0, 0, 0⟩] ∧ s.status.busy = false ∧
      decoded ⟨6, 4, 0, 0, 0⟩ = some (.cfgGet 4) ∧ decodeTableWord 160 (6 + 4 * 2 ^ 32) = some (.cfgGet 4) :=
  ⟨{ State.reset with inputs := [.command ⟨6, 4, 0, 0, 0⟩] }, by decide⟩

/-- The first and last register numbers of every clause, and loads of exactly the capacity. -/
theorem witness_HostMovesChangeOnlyWhatTheyWrite :
    (stepped { State.reset with inputs := [.writeReg 10 3] }).map (·.pcmFmt) = some 3 ∧
      ([.writeReg 10 4, .writeReg 0 1, .writeReg 7 1, .writeReg 11 1, .writeReg 15 1, .writeReg 16 1, .readReg 15,
        .readReg 16, .loadWav [.rat 1, .irr 0 0]] : List Input).all (fun m => (stepped { State.reset with inputs := [m] }).isNone) = true ∧
      ([.readReg 0, .readReg 14, .readBuffers, .loadTxt [0x41], .loadBit [true, false], .loadWav (rats [1 / 2, 0, 1]),
        .loadPcm (.i16 [1, 2, 3, 4]), .loadPcm (.f [.irr 0 0])] : List Input).all
          (fun m => (stepped { (withCaps 1 2 3 4) with inputs := [m] }).isSome) = true ∧
      ([.loadTxt [0x41, 0x42], .loadBit [true, false, true], .loadWav (rats [0, 0, 0, 0]),
        .loadPcm (.i32 [1, 2, 3, 4, 5])] : List Input).all
          (fun m => (stepped { (withCaps 1 2 3 4) with inputs := [m] }).isNone) = true := by decide +kernel

theorem witness_HardwareResetRestoresEveryResetValue :
    ({ State.reset with inputs := [.hardwareReset], res0 := 1 } : State).inputs = [.hardwareReset] := rfl

theorem witness_StepKeepsTheInvariant : State.reset.Inv ∧ step State.reset = .next State.reset :=
  ⟨⟨default_config_inv _, completed_inv (by simp), by decide +kernel, rfl, by simp [State.reset], rfl, rfl, rfl, rfl⟩, rfl⟩

theorem utf8Enc_ascii (n i : Nat) : utf8EncFrom i (List.replicate n 0x41) = .ok (List.replicate n 0x41) := by
  induction n generalizing i with
  | zero => rfl
  | succ n ih =>
    have h : utf8EncPoint 0x41 = some [0x41] := by decide
    simp only [List.replicate_succ, utf8EncFrom, h, ih]; rfl

/-- A state for every fault code, and one for each soft outcome. -/
theorem witness_EachFaultComesOnlyFromItsCommands :
    report .serialize { State.reset with txt := [0xDFFF] } = some (0x10, 0) ∧
      report .decode { State.reset with wavRate := 0 } = some (0x30, 0) ∧
      report (.score 0 1 0 1) State.reset = some (0x40, 0) ∧
      report .pcmQuant { (withCaps 0 0 0 0) with wav := rats [0] } = some (0x50, 1) ∧
      report (.cfgGet 5) State.reset = some (0x60, 6) := by decide +kernel

theorem witness_OverlongPayloadRaisesLengthFault :
    utf8Enc (List.replicate 65536 0x41) = .ok (List.replicate 65536 0x41) ∧
      65535 < (List.replicate 65536 (0x41 : Byte)).length :=
  ⟨utf8Enc_ascii 65536 0, by rw [List.length_replicate]; decide⟩

theorem witness_OnlyTheParsersReportSoftOutcomes :
    report .deserialize State.reset = some (0x02, 0) ∧
      report .deserialize { State.reset with bit := bitsFrom [0xAA, 0x55, 0xAA, 0x55, 0x01, 0x00] [] } =
        some (0x04, 0) ∧
      writesTxt .serialize = false := by decide

/-- Every command answers a next state, here one that writes something in each of the registers' groups. -/
theorem witness_OnlyTheListedCommandsWriteEachRegister :
    exec .cfgReset State.reset = .next (after .cfgReset State.reset) ∧
      report (.score 0 1 1270 8000) { State.reset with wav := rats [1] } = some (0, 0) ∧
      report .decode State.reset = some (0x02, 0) ∧ report .pcmQuant State.reset = some (0, 0) :=
  ⟨rfl, by decide +kernel, by decide +kernel, by decide +kernel⟩

theorem witness_RepeatingACommandChangesNothing :
    report (.setSr 100) (after (.setSr 100) State.reset) = some (0x30, 100) ∧
      hostMove (.readReg 14) State.reset = .next State.reset ∧ hostMove .readBuffers State.reset = .next State.reset :=
  ⟨by decide, rfl, rfl⟩

/-- Accepted and refused values at the boundary. -/
theorem witness_SampleRateSetterChecksThenRecomputes :
    samplesPerBit .toEven 151 300 ≠ 0 ∧ samplesPerBit .toEven 150 300 = 0 := by decide

theorem witness_BaudRateSetterRefusesTwiceTheSampleRate :
    (15999 : Word).toNat = 2 * State.reset.cfg.sr.toNat - 1 ∧ samplesPerBit .toEven 8000 15999 = 1 ∧
      samplesPerBit .toEven 8000 16000 = 0 ∧ State.reset.par.roundTie = .toEven := by decide

theorem witness_FrequencySettersAcceptEveryValue : State.reset.cfg.Inv State.reset.par.roundTie :=
  default_config_inv _

theorem witness_CfgGetReadsTheSelectedRegister : 4 < (5 : Word).toNat := by decide

/-- An exact half. -/
theorem witness_SamplesPerBitIsTheNearestInteger :
    |(samplesPerBit .toEven 8000 3200 : Rat) - (8000 : Nat) / (3200 : Nat)| = 1 / 2 := by decide +kernel

/-- The ends of the ranges are those of `test_utf8_encode`; here the two clauses about sequences. -/
theorem witness_CodePointsEncodeAsTheTableSays :
    utf8EncPoint 0x20AC = some [0xE2, 0x82, 0xAC] ∧ utf8Enc [0x41] = .ok [0x41] ∧ utf8EncPoint 0xD800 = none :=
  ⟨by decide, rfl, by decide⟩

/-- Bits that fit exactly. -/
theorem witness_SerializeWritesTheFrameBits :
    utf8Enc [0x48, 0x69] = .ok [0x48, 0x69] ∧ fits (some 64) (48 + 8 * 2) = true := ⟨rfl, by decide⟩

theorem witness_UnencodableTextRaisesEncodingError :
    ([0x41, 0xD800] : List CodePoint)[1]? = some 0xD800 ∧ 0xD800 ≤ (0xD800 : CodePoint).toNat ∧
      ¬ 0xD800 ≤ (0x41 : CodePoint).toNat ∧ 0x10FFFF < (0x110000 : CodePoint).toNat := by decide

/-- A marker at the start, a late one, and none: four bytes short of one. -/
theorem witness_MarkerSearchFindsTheFirstWindow :
    findMarker [0xAA, 0x55, 0xAA, 0x55] = some 0 ∧ findMarker [0x55, 0xAA, 0x55, 0xAA, 0x55] = some 1 ∧
      findMarker [0x55, 0xAA, 0x55, 0xAA] = none := by decide

theorem witness_PackTakesEightBitsToAByte :
    pack (bitsFrom [0x80] [true, true, true, true, true, true, true]) = [0x80] := by decide

theorem witness_WellFormedSequencesAreTheEncodedOnes :
    utf8At [0xF4, 0x8F, 0xBF, 0xBF] = some (4, 0x10FFFF) ∧ utf8At [0xE0, 0x9F, 0xBF] = none ∧
      utf8At [0xED, 0xA0, 0x80] = none := by decide

theorem witness_Utf8DecodeReplacesByteByByte :
    utf8At [0xE2, 0x82, 0xAC, 0x41] = some (3, 0x20AC) ∧ utf8At [0xE2, 0x82] = none ∧
      utf8Enc [0x20AC] = .ok [0xE2, 0x82, 0xAC] := ⟨by decide, by decide, rfl⟩

/-- 47 bits, 48 without a marker, a marker with one byte after it; then a field that claims exactly the bytes that are
there, one that claims one more, and a text of one element with room for none. -/
theorem witness_DeserializeParsesTheFirstFrame :
    (List.replicate 47 false).length < 48 ∧ findMarker (pack (List.replicate 48 false)) = none ∧
      findMarker [0x00, 0xAA, 0x55, 0xAA, 0x55, 0x01] = some 1 ∧
      findMarker (pack (bitsFrom [0xAA, 0x55, 0xAA, 0x55, 0x01, 0x00, 0x41] [])) = some 0 ∧
      utf8Dec .perByte (slice [0xAA, 0x55, 0xAA, 0x55, 0x02, 0x00, 0x41] 6 (min 2 1)) = [0x41] ∧
      fits (some 1) 1 = true ∧ fits (some 0) 1 = false := by decide

theorem witness_SerializeThenDeserializeReturnsTheText :
    utf8Enc [0x48] = .ok [0x48] ∧ fits (some 56) (48 + 8 * 1) = true ∧ fits (some 1) 1 = true ∧
      findMarker ([0x12, 0x34] ++ frame [0x48]) = some 2 := ⟨rfl, by decide⟩

/-- Cuts at 47 and at 48 bits of a frame of two payload bytes. -/
theorem witness_TruncatedFrameDecodesItsWholeBytes :
    ((bitsOf (frame [0x48, 0x69])).take 47).length = 47 ∧ ((bitsOf (frame [0x48, 0x69])).take 48).length = 48 ∧
      48 < 48 + 8 * 2 ∧ Params.default.txtCap = none := by decide

/-- A waveform that fits exactly, and one sample too long. -/
theorem witness_SynthesizeLaysOutTheWaveform :
    fits (some 1654) (2 * (8000 / 10) + 2 * 27) = true ∧ fits (some 1653) (2 * (8000 / 10) + 2 * 27) = false := by decide

/-- A machine of which only the laws of its numerics are known. -/
theorem witness_SynthesizedSamplesStayWithinTheToneAmplitude :
    let s : State := { State.reset with par := { Params.default with numerics := .other 0 }, bit := [true, false] }
    (∃ val, NumLaws (numOf s.par.numerics) val) ∧ s.cfg.Inv s.par.roundTie ∧ report .synthesize s = some (0, 0) :=
  ⟨(@Config.otherNum ⟨⟨numSilent, numSilent_lawful⟩⟩ 0).2, default_config_inv _, by decide⟩

theorem witness_ComputedSineIsNearTheRealSine : (0 : Nat) < 1 ∧ (7999 : Nat) < 8000 := by decide

/-- The three clauses, at the end of the waveform and one sample beyond it. -/
theorem witness_ScoreSumsTheSquaredCorrelations :
    report (.score 1 1 1270 8000) { State.reset with wav := rats [1, 1] } = some (0, 0) ∧
      report (.score 1 2 1270 8000) { State.reset with wav := rats [1, 1] } = some (0x40, 1) ∧
      report (.score 9 9 9 0) State.reset = some (0x30, 0) := by decide +kernel

theorem witness_PowerScalesWithTheSquareOfTheAmplitude :
    ExactNum numQ15 (fun a => (a.toRat : ℝ)) ∧ power numQ15 (rats [0, 1 / 2]) 1 4 ≠ .rat 0 :=
  ⟨numQ15_exact, by decide +kernel⟩

/-- A loud sample after one that is exactly at the threshold, and a waveform without one. -/
theorem witness_StartIsAQuarterBitBeforeTheFirstLoudSample :
    ExactNum numQ15 (fun a => (a.toRat : ℝ)) ∧ (rats [1 / 100, 1 / 50])[1]? = some (.rat (1 / 50)) ∧
      (1 / 100 : Rat) < |(Amp.rat (1 / 50)).toRat| ∧ |(Amp.rat (1 / 100)).toRat| ≤ 1 / 100 :=
  ⟨numQ15_exact, by decide +kernel⟩

/-- Exactly one whole block, and room for exactly one bit. -/
theorem witness_DemodulateDecidesBlockByBlock :
    samplesPerBit .toEven 8000 300 = 27 ∧ startIndex numQ15 27 (rats (List.replicate 27 0)) = 0 ∧
      fits (some 1) ((27 - 0) / 27) = true := by decide +kernel

theorem witness_ZeroBlockSizeRaisesConfigFault :
    samplesPerBit .toEven 150 300 = 0 ∧ samplesPerBit .toEven 151 300 = 1 := by decide

theorem witness_EqualTonesDemodulateToZeros :
    report .demodulate { State.reset with cfg := ⟨8000, 300, 1270, 1270, 27⟩, wav := rats (List.replicate 27 (1 / 2)) } =
      some (0, 0) := by decide +kernel

theorem witness_SilenceDecodesToInsufficientData :
    samplesPerBit .toEven 8000 300 = 27 ∧ fits (some 1) (53 / 27) = true := by decide

/-- A first loud sample exactly a quarter bit period into the waveform. -/
theorem witness_LeadingSilenceDoesNotChangeTheBits :
    firstLoud numQ15 (rats [0, 1 / 2, 1 / 2, 1 / 2]) = some 1 ∧ samplesPerBit .toEven 8000 2000 / 4 = 1 ∧
      report .demodulate { (withCfg 8000 2000 4) with wav := rats [0, 1 / 2, 1 / 2, 1 / 2] } = some (0, 0) := by
  decide +kernel

/-- `REF` itself, and the exact tie in the approximation of `REF` that is none in `Q15`. -/
theorem witness_LoneSampleIsATieInRef :
    (∃ (num : Sys2Proof.Num) (val : Amp → ℝ), ExactNum num val ∧ NearReal num val 0) ∧
      decideBit numRef 1000 0 8000 (rats [0, 1 / 2, 0]) = false ∧
      decideBit numQ15 0 1000 8000 (rats [0, 1 / 2, 0]) = true :=
  ⟨⟨_, _, exactRef_exact fun _ => 0, exactRef_near fun _ => 0⟩, by decide +kernel, by decide +kernel⟩

theorem witness_DecodingIgnoresTheConfiguredSampleRate :
    report .demodulate State.reset = some (0, 0) ∧ report .decode State.reset = some (0x02, 0) := by decide +kernel

/-- Both complete; the first faults; the second faults. -/
theorem witness_EncodeIsSerializeThenSynthesize :
    report .synthesize (after .serialize (withCfg 9 9 1)) = some (0, 0) ∧
      report .serialize { State.reset with txt := [0xD800] } = some (0x10, 0) ∧
      report .synthesize (after .serialize (withCaps 0 48 2895 0)) = some (0x50, 2896) ∧
      utf8Enc [] = .ok [] ∧ fits (some 48) (48 + 8 * 0) = true ∧ fits (some 2896) (2 * (8000 / 10) + 48 * 27) = true :=
  ⟨by decide +kernel, by decide, by decide +kernel, rfl, by decide, by decide⟩

/-- A waveform at 8 Hz and 2 baud, four samples to a bit, that carries the text "A", and a machine with room for none
of its elements in `TXT`. -/
def smallSignal : State :=
  let c : ConfigRegs := ⟨8, 2, 2, 1, 4⟩
  { State.reset with
    par := { Params.default with txtCap := some 0 }
    cfg := c, wavRate := 8, wav := waveform numQ15 c (bitsOf (frame [0x41])) }

/-- Both complete; the first faults; the second faults; both fit exactly. -/
theorem witness_DecodeIsDemodulateThenDeserialize :
    report .deserialize (after .demodulate State.reset) = some (0x02, 0) ∧
      report .demodulate { State.reset with wavRate := 0 } = some (0x30, 0) ∧
      report .demodulate smallSignal = some (0, 0) ∧
      report .deserialize (after .demodulate smallSignal) = some (0x50, 1) ∧
      fits (some 56) (224 / 4) = true ∧ fits (some 7) (224 / 4 / 8) = true := by decide +kernel

/-- One element too many for each buffer. -/
theorem witness_OutputBeyondCapacityRaisesCapacityFault :
    report .serialize (withCaps 0 47 0 0) = some (0x50, 48) ∧ report .encode (withCaps 0 47 0 0) = some (0x50, 48) ∧
      report .encode (withCaps 0 48 2895 0) = some (0x50, 2896) ∧
      report .synthesize (withCaps 0 0 1599 0) = some (0x50, 1600) ∧
      report .deserialize { (withCaps 0 0 0 0) with bit := bitsFrom [0xAA, 0x55, 0xAA, 0x55, 1, 0, 0x41] [] } =
        some (0x50, 1) ∧
      report .demodulate { (withCaps 0 0 0 0) with wav := rats (List.replicate 27 0) } = some (0x50, 1) ∧
      report .decode { (withCaps 0 0 0 0) with wav := rats (List.replicate 27 0) } = some (0x50, 1) ∧
      report .decode smallSignal = some (0x50, 1) ∧
      report .pcmNorm { (withCaps 0 0 0 0) with pcm := .i16 [1] } = some (0x50, 1) := by decide +kernel

/-- The premises of both round-trip statements. -/
theorem witness_DefaultConfigurationRoundTrips :
    State.reset.cfg = ⟨8000, 300, 1270, 1070, 27⟩ ∧ State.reset.par.numerics = .q15 ∧
      State.reset.par.bitCap = none ∧ State.reset.par.wavCap = none ∧ State.reset.par.txtCap = none ∧
      utf8Enc [0x48, 0x69] = .ok [0x48, 0x69] := ⟨rfl, rfl, rfl, rfl, rfl, rfl⟩

theorem witness_TwelveHundredBaudLosesEveryText :
    (after (.setBaud 1200) State.reset).cfg = ⟨8000, 1200, 1270, 1070, 7⟩ ∧ utf8Enc [] = .ok [] := ⟨by decide, rfl⟩

theorem witness_PcmNormConvertsByFormat :
    (PcmBuffer.i32 [1]).length = 1 ∧ fits (some 1) 1 = true ∧ fits (some 0) 1 = false ∧
      (2 : BitVec 2) ≠ 3 := by decide +kernel

/-- Real numbers and 32-bit integers while `PCM_FMT` names 16-bit integers. -/
theorem witness_PcmNormCompletesOnMixedWidths :
    report .pcmNorm { State.reset with pcm := .f (rats [1, 1 / 2]) } = some (0, 0) ∧
      (after .pcmNorm { State.reset with pcm := .i32 [1, 2, 3] }).wav.length = 3 ∧ fits (some 2) 2 = true := by
  decide +kernel

theorem witness_PcmQuantWritesSixteenBitCodes :
    fits (some 1) 1 = true ∧ fits (some 0) 1 = false ∧ numQ15.quant16 (.rat (-1)) = -32768 ∧
      numQ15.quant16 (.rat 2) = 32767 := by
  decide +kernel

theorem witness_QuantiseThenNormaliseRestoresTheWaveform :
    IsCode (.rat (-1)) ∧ IsCode (.rat (32767 / 32768)) ∧ State.reset.par.numerics = .q15 :=
  ⟨⟨-32768, by norm_num⟩, ⟨32767, by norm_num⟩, rfl⟩

theorem witness_StoredSamplesAreCodes :
    report .synthesize State.reset = some (0, 0) ∧ report .encode (withCfg 9 9 1) = some (0, 0) ∧
      report .pcmNorm { State.reset with pcmFmt := 1, pcm := .i32 [65535] } = some (0, 0) ∧
      report .pcmNorm { State.reset with pcmFmt := 1, pcm := .f [.irr 0 0] } = some (0, 0) := by decide +kernel

/-- The square root of 2 in its cell, and a rational exactly half-way between two codes. -/
theorem witness_RealSamplesConvertExactly :
    (Amp.irr 21370338934133963737602920 0).Stands √2 ∧ (Amp.rat (-3 / 65536)).Stands (-3 / 65536) := by
  refine ⟨⟨irrational_sqrt_two, ?_, ?_⟩, by simp [Amp.Stands]⟩ <;> rw [← Real.sqrt_sq (Nat.cast_nonneg cellUnit),
    ← Real.sqrt_mul (by positivity)]
  · rw [Real.lt_sqrt (by norm_num)]; norm_num [cellUnit]
  · rw [Real.sqrt_lt' (by norm_num)]; norm_num [cellUnit]

end Sys2Proof.Tests
end

