-- ==== Sys2Proof/Proofs/Scope.lean ====
section
/-! PROOF. The integer functions of 00_scope.md: samples-per-bit as a rounding of the exact quotient. -/

namespace Sys2Proof.Machine

/-- The exact quotient of the two rates, as its integer part and its fraction. -/
theorem ratCast_div_eq_quotient_add_fraction (sr : Nat) {baud : Nat} (h : 1 ≤ baud) :
    (sr : Rat) / baud = (sr / baud : Nat) + (sr % baud : Nat) / baud := by
  have hpos : (baud : Rat) ≠ 0 := by positivity
  rw [div_eq_iff hpos, add_mul, div_mul_cancel₀ _ hpos]
  exact_mod_cast (Nat.div_add_mod' sr baud).symm

/-- Under either tie rule the distance of samples-per-bit to the exact quotient is the shorter of the ways from the
fraction `r / baud` down to 0 and up to 1, for the remainder `r` (00_scope.md R11). -/
theorem abs_samplesPerBit_sub_quotient (tie : RoundTie) (sr : Nat) {baud : Nat} (h : 1 ≤ baud) :
    |(samplesPerBit tie sr baud : Rat) - (sr : Rat) / baud| =
      (min (sr % baud) (baud - sr % baud) : Nat) / baud := by
  have hlt : sr % baud < baud := Nat.mod_lt _ h
  have hpos : (0 : Rat) < baud := by exact_mod_cast h
  rw [ratCast_div_eq_quotient_add_fraction sr h]
  rcases samplesPerBit_cases tie sr baud with ⟨hq, hr, -⟩ | ⟨hq, hr, -⟩
  · have hdown : (0 : Rat) ≤ (sr % baud : Nat) / baud := by positivity
    rw [hq, min_eq_left (by omega), sub_add_cancel_left, abs_neg, abs_of_nonneg hdown]
  · have hup : (0 : Rat) ≤ (baud - sr % baud : Nat) / baud := by positivity
    rw [hq, min_eq_right (by omega), Nat.cast_succ, add_sub_add_left_eq_sub, ← div_self hpos.ne', ← sub_div,
      ← Nat.cast_sub hlt.le, abs_of_nonneg hup]

end Sys2Proof.Machine

open Sys2Proof Sys2Proof.Machine

/-- Settles O21: the distance is the smaller of `r` and `baud - r` over `baud`, which is one half only at a tie. -/
theorem samplesPerBitIsTheNearestInteger : Obligations.SamplesPerBitIsTheNearestInteger := by
  unfold Obligations.SamplesPerBitIsTheNearestInteger
  intro sr baud h
  have hpos : (0 : Rat) < baud := by exact_mod_cast h
  rw [abs_samplesPerBit_sub_quotient .toEven sr h]
  constructor
  · have hmin : min (sr % baud) (baud - sr % baud) * 2 ≤ 1 * baud := by omega
    rw [div_le_div_iff₀ hpos two_pos]
    exact_mod_cast hmin
  · intro hhalf
    rw [div_eq_div_iff hpos.ne' two_ne_zero] at hhalf
    have hmin : min (sr % baud) (baud - sr % baud) * 2 = 1 * baud := by exact_mod_cast hhalf
    exact Nat.even_iff.mpr (samplesPerBit_tie_even sr baud (by omega))

end

