-- ==== Sys2Proof/Proofs/State.lean ====
section
/-! PROOF. The state rules of 10_state.md: hardware reset. -/

namespace Sys2Proof.Machine

/-- A step with a hardware reset next, whether the block is busy or not (70_reset_and_hazards.md R270). -/
theorem step_hardwareReset {s : State} {rest : List Input} (h : s.inputs = .hardwareReset :: rest) :
    step s = .next (hardwareReset { s with inputs := rest }) := by
  unfold step; rw [h]; rfl

end Sys2Proof.Machine

open Sys2Proof Sys2Proof.Machine

/-- Settles O8: the step is `hardwareReset`, which rebuilds the state from `State.reset` and keeps only the parameters
and the remaining inputs. -/
theorem hardwareResetRestoresEveryResetValue : Obligations.HardwareResetRestoresEveryResetValue := by
  unfold Obligations.HardwareResetRestoresEveryResetValue
  refine ⟨rfl, rfl, rfl, rfl, rfl, rfl, rfl, rfl, rfl, rfl, rfl, ?_⟩
  intro s rest h
  exact step_hardwareReset h

end

