-- ==== Sys2Proof/Proofs/Encoding.lean ====
section
/-! PROOF. The decoder rules of 30_encoding.md: which descriptors decode, and what the others raise. -/

namespace Sys2Proof.Machine

/-! ## Which descriptors decode -/

theorem formatN_ok_iff (d : Descriptor) (i : Instr) :
    (∃ j, formatN d i = .ok j) ↔ d.a0 = 0 ∧ d.a1 = 0 ∧ d.a2 = 0 ∧ d.a3 = 0 := by
  unfold formatN
  split_ifs with h
  · exact iff_of_true ⟨i, rfl⟩ h
  · exact iff_of_false (by simp) h

theorem formatV_ok_iff (d : Descriptor) (i : Word → Instr) :
    (∃ j, formatV d i = .ok j) ↔ d.a1 = 0 ∧ d.a2 = 0 ∧ d.a3 = 0 := by
  unfold formatV
  split_ifs with h
  · exact iff_of_true ⟨i d.a0, rfl⟩ h
  · exact iff_of_false (by simp) h

theorem formatS_ok (d : Descriptor) (i : Word → Word → Word → Word → Instr) : ∃ j, formatS d i = .ok j :=
  ⟨_, rfl⟩

theorem formatSelector_ok_iff (d : Descriptor) :
    (∃ j, formatSelector d = .ok j) ↔ (d.a1 = 0 ∧ d.a2 = 0 ∧ d.a3 = 0) ∧ d.a0.toNat ≤ 4 := by
  unfold formatSelector maxSelector
  split_ifs with h
  · simp [formatV_ok_iff, h]
  · simp [h]

/-- The conditions of 30_encoding.md R90 on an operation code and the operand words: the code has a row in the opcode
map, and the operand words meet what the row's format asks. -/
def SelectsRow (opc : Nat) (d : Descriptor) : Prop :=
  opc ∈ opcodesN ++ opcodesV ++ opcodesS ∧
    (opc ∈ opcodesN → d.a0 = 0 ∧ d.a1 = 0 ∧ d.a2 = 0 ∧ d.a3 = 0) ∧
    (opc ∈ opcodesV → d.a1 = 0 ∧ d.a2 = 0 ∧ d.a3 = 0) ∧
    (opc = 0x06 → d.a0.toNat ≤ 4)

theorem selectsRow_of_mem_opcodesN {opc : Nat} (h : opc ∈ opcodesN) (d : Descriptor) :
    SelectsRow opc d ↔ d.a0 = 0 ∧ d.a1 = 0 ∧ d.a2 = 0 ∧ d.a3 = 0 := by
  have hV : opc ∉ opcodesV ∧ opc ≠ 0x06 := by
    revert opc; decide
  simp [SelectsRow, h, hV]

theorem selectsRow_of_mem_opcodesV {opc : Nat} (h : opc ∈ opcodesV) (h6 : opc ≠ 0x06) (d : Descriptor) :
    SelectsRow opc d ↔ d.a1 = 0 ∧ d.a2 = 0 ∧ d.a3 = 0 := by
  have hN : opc ∉ opcodesN := by
    clear h6; revert opc; decide
  simp [SelectsRow, h, hN, h6]

theorem selectsRow_selector (d : Descriptor) :
    SelectsRow 0x06 d ↔ (d.a1 = 0 ∧ d.a2 = 0 ∧ d.a3 = 0) ∧ d.a0.toNat ≤ 4 := by
  simp [SelectsRow, opcodesN, opcodesV, opcodesS]

theorem selectsRow_score (d : Descriptor) : SelectsRow 0x30 d := by
  simp [SelectsRow, opcodesN, opcodesV, opcodesS]

/-- The opcode map has a row for exactly the codes and operand words that 30_encoding.md R90 does not call illegal. -/
theorem decodeOpcode_ok_iff (opc : Nat) (d : Descriptor) :
    (∃ i, decodeOpcode opc d = .ok i) ↔ SelectsRow opc d := by
  unfold decodeOpcode
  split
  case h_1 | h_2 | h_3 | h_4 => -- the four setters
    exact (formatV_ok_iff d _).trans (selectsRow_of_mem_opcodesV (by decide) (by decide) d).symm
  case h_6 => -- CFG.GET
    exact (formatSelector_ok_iff d).trans (selectsRow_selector d).symm
  case h_10 => -- SCORE
    exact iff_of_true (formatS_ok d _) (selectsRow_score d)
  case h_16 => -- no row has this code
    refine iff_of_false (by simp) fun ⟨hmem, _⟩ => ?_
    simp_all [opcodesN, opcodesV, opcodesS]
  -- the nine commands without operands
  all_goals exact (formatN_ok_iff d _).trans (selectsRow_of_mem_opcodesN (by decide) d).symm

theorem legalDescriptor_iff (d : Descriptor) :
    LegalDescriptor d ↔ d.w0.extractLsb' 8 24 = 0 ∧ SelectsRow (d.w0.extractLsb' 0 8).toNat d :=
  ⟨fun h => ⟨h.reserved, h.opcode, h.unusedN, h.unusedV, h.selector⟩,
    fun ⟨reserved, opcode, unusedN, unusedV, selector⟩ => ⟨opcode, reserved, unusedN, unusedV, selector⟩⟩

/-- The decoder accepts exactly the legal descriptors (30_encoding.md R90). -/
theorem decode_ok_iff_legalDescriptor (d : Descriptor) : (∃ i, decode d = .ok i) ↔ LegalDescriptor d := by
  rw [legalDescriptor_iff, ← decodeOpcode_ok_iff]
  unfold decode
  split_ifs with h
  · exact iff_of_false (by simp) fun hrow => h hrow.1
  · rw [not_not.mp h]
    exact (and_iff_right rfl).symm

theorem exists_decode_error_of_not_legal {d : Descriptor} (h : ¬ LegalDescriptor d) : ∃ e, decode d = .error e := by
  cases hd : decode d with
  | ok i => exact absurd ((decode_ok_iff_legalDescriptor d).mp ⟨i, hd⟩) h
  | error e => exact ⟨e, rfl⟩

/-! ## What the command port does with them -/

theorem runDescriptor_of_decode_ok {d : Descriptor} {i : Instr} (h : decode d = .ok i) (s : State) :
    runDescriptor d s = exec i s := by
  simp only [runDescriptor, h]

/-- The information word of `IllegalCommand` is `W0` itself: a register holds every value of it. -/
theorem runDescriptor_of_decode_error {d : Descriptor} {e : DecodeError} (h : decode d = .error e) (s : State) :
    runDescriptor d s = .next { s with status := ⟨false, false, false, 6⟩, res0 := d.w0 } := by
  simp [runDescriptor, h, raise, Status.faulted, CmdFault.code]

end Sys2Proof.Machine

open Sys2Proof Sys2Proof.Machine

/-- Settles O2: the decoder accepts exactly the legal descriptors, and the port raises `IllegalCommand` on a decoder
error. -/
theorem illegalDescriptorsRaiseIllegalCommand : Obligations.IllegalDescriptorsRaiseIllegalCommand := by
  unfold Obligations.IllegalDescriptorsRaiseIllegalCommand
  intro s d rest hinputs hidle
  rw [step_command hinputs hidle]
  constructor
  · intro hlegal
    obtain ⟨i, hi⟩ := (decode_ok_iff_legalDescriptor d).mpr hlegal
    exact ⟨i, hi, runDescriptor_of_decode_ok hi _⟩
  · intro hillegal
    obtain ⟨e, he⟩ := exists_decode_error_of_not_legal hillegal
    exact runDescriptor_of_decode_error he _

end

