-- ==== Sys2Proof/Proofs/ConfigCmds.lean ====
section
/-! PROOF. The configuration commands of 40_config.md: the setters, `CFG.RESET` and `CFG.GET`. -/

namespace Sys2Proof.Machine

/-! ## The setter check on register values -/

theorem toNat_ne_zero_iff (w : Word) : w.toNat ≠ 0 ↔ w ≠ 0 :=
  BitVec.toNat_injective.ne_iff' rfl

theorem setCheck_toNat_iff (tie : RoundTie) (sr baud : Word) :
    setCheck tie sr.toNat baud.toNat = true ↔ sr ≠ 0 ∧ baud ≠ 0 ∧ samplesPerBit tie sr.toNat baud.toNat ≠ 0 := by
  rw [setCheck_iff, toNat_ne_zero_iff, toNat_ne_zero_iff]

/-- With ties to even the check passes for exactly the baud rates from 1 to below twice the sample rate
(40_config.md R111). -/
theorem setCheck_toEven_iff (sr baud : Word) :
    setCheck .toEven sr.toNat baud.toNat = true ↔ baud ≠ 0 ∧ baud.toNat < 2 * sr.toNat := by
  rw [setCheck_iff, ← toNat_ne_zero_iff]
  rcases Nat.eq_zero_or_pos baud.toNat with hzero | hpos
  · simp [hzero]
  · rw [ne_eq (samplesPerBit _ _ _), samplesPerBit_toEven_eq_zero _ hpos]
    omega

/-- The largest baud rate below twice the sample rate gives one sample per bit, under either tie rule: the quotient is
above one half and at most 1. -/
theorem samplesPerBit_twice_sub_one (tie : RoundTie) {sr baud : Nat} (hsr : 1 ≤ sr) (h : baud = 2 * sr - 1) :
    samplesPerBit tie sr baud = 1 := by
  obtain ⟨hlower, hupper⟩ := samplesPerBit_nearest tie sr (baud := baud) (by omega)
  have hne : samplesPerBit tie sr baud ≠ 0 := by
    intro hzero
    rw [hzero] at hlower
    omega
  have hle : ¬ 2 ≤ samplesPerBit tie sr baud := by
    intro htwo
    have hfour : 2 * 2 * baud ≤ 2 * samplesPerBit tie sr baud * baud := by gcongr
    omega
  omega

/-! ## What each outcome writes -/

theorem raise_configFault (v : Word) (s : State) :
    raise .configFault v.toNat s = { s with status := ⟨false, false, false, 3⟩, res0 := v } := by
  simp [raise, Status.faulted, CmdFault.code]

theorem exec_setSr_of_setCheck {v : Word} {s : State}
    (h : setCheck s.par.roundTie v.toNat s.cfg.baud.toNat = true) :
    exec (.setSr v) s = .next (complete false false 0
      { s with cfg := { s.cfg with sr := v }.recompute s.par.roundTie }) := if_pos h

theorem exec_setSr_of_not_setCheck {v : Word} {s : State}
    (h : ¬ setCheck s.par.roundTie v.toNat s.cfg.baud.toNat = true) :
    exec (.setSr v) s = .next (raise .configFault v.toNat s) := if_neg h

theorem exec_setBaud_of_setCheck {v : Word} {s : State}
    (h : setCheck s.par.roundTie s.cfg.sr.toNat v.toNat = true) :
    exec (.setBaud v) s = .next (complete false false 0
      { s with cfg := { s.cfg with baud := v }.recompute s.par.roundTie }) := if_pos h

theorem exec_setBaud_of_not_setCheck {v : Word} {s : State}
    (h : ¬ setCheck s.par.roundTie s.cfg.sr.toNat v.toNat = true) :
    exec (.setBaud v) s = .next (raise .configFault v.toNat s) := if_neg h

theorem exec_setFmark (v : Word) (s : State) :
    exec (.setFmark v) s = .next (complete false false 0
      { s with cfg := { s.cfg with fmark := v }.recompute s.par.roundTie }) := rfl

/-- Recomputing samples-per-bit changes nothing under the invariant (10_state.md R22). -/
theorem ConfigRegs.Inv.recompute_eq {tie : RoundTie} {c : ConfigRegs} (h : c.Inv tie) : c.recompute tie = c := by
  rw [ConfigRegs.recompute, ← h.spb_eq, BitVec.ofNat_toNat, BitVec.setWidth_eq]

/-- The invariant is about the rates alone, so the mark frequency is free (40_config.md R117). -/
theorem ConfigRegs.Inv.withFmark {tie : RoundTie} {c : ConfigRegs} (h : c.Inv tie) (v : Word) :
    { c with fmark := v }.Inv tie :=
  ⟨h.sr_pos, h.baud_pos, h.spb_eq, h.spb_pos⟩

theorem ConfigRegs.select_of_four_lt (c : ConfigRegs) {sel : Nat} (h : 4 < sel) : c.select sel = none := by
  unfold ConfigRegs.select
  split
  case h_6 => rfl
  all_goals omega

theorem exec_cfgGet_of_select_some {s : State} {sel v : Word} (h : s.cfg.select sel.toNat = some v) :
    exec (.cfgGet sel) s = .next (complete false false v s) := by
  simp only [exec, execCfgGet, h]

theorem exec_cfgGet_of_select_none {s : State} {sel : Word} (h : s.cfg.select sel.toNat = none) :
    exec (.cfgGet sel) s = .next (raise .illegalCommand 0x06 s) := by
  simp only [exec, execCfgGet, h]

end Sys2Proof.Machine

open Sys2Proof Sys2Proof.Machine

/-- Settles O16: the condition is the setter check, which selects the arm. -/
theorem sampleRateSetterChecksThenRecomputes : Obligations.SampleRateSetterChecksThenRecomputes := by
  unfold Obligations.SampleRateSetterChecksThenRecomputes
  intro v s
  rw [← setCheck_toNat_iff, ← raise_configFault]
  exact ⟨exec_setSr_of_setCheck, exec_setSr_of_not_setCheck⟩

/-- Settles O17: the condition is the setter check, which selects the arm; with ties to even samples-per-bit is 0
exactly from twice the sample rate on. -/
theorem baudRateSetterRefusesTwiceTheSampleRate : Obligations.BaudRateSetterRefusesTwiceTheSampleRate := by
  unfold Obligations.BaudRateSetterRefusesTwiceTheSampleRate
  intro v s
  rw [and_left_comm (a := v ≠ 0), ← setCheck_toNat_iff, ← raise_configFault]
  refine ⟨exec_setBaud_of_setCheck, exec_setBaud_of_not_setCheck, fun htie => ⟨?_, ?_⟩⟩
  · rw [htie]
    exact setCheck_toEven_iff s.cfg.sr v
  · exact samplesPerBit_twice_sub_one s.par.roundTie

/-- Settles O18: neither setter has a check, and under the invariant the recomputed samples-per-bit is the old one. -/
theorem frequencySettersAcceptEveryValue : Obligations.FrequencySettersAcceptEveryValue := by
  unfold Obligations.FrequencySettersAcceptEveryValue
  intro v s
  refine ⟨exec_setFmark v s, fun hinv => ?_, rfl⟩
  rw [exec_setFmark, (hinv.withFmark v).recompute_eq]
  rfl

/-- Settles O19: the command replaces the configuration by the default one and completes. -/
theorem cfgResetRestoresTheDefaults : Obligations.CfgResetRestoresTheDefaults := by
  unfold Obligations.CfgResetRestoresTheDefaults
  intro s
  rfl

/-- Settles O20: the selectors 0 to 4 name a configuration register each, and a larger one names none. -/
theorem cfgGetReadsTheSelectedRegister : Obligations.CfgGetReadsTheSelectedRegister := by
  unfold Obligations.CfgGetReadsTheSelectedRegister
  intro s
  have hget : ∀ sel v : Word, s.cfg.select sel.toNat = some v →
      exec (.cfgGet sel) s = .next { s with status := ⟨false, false, false, 0⟩, res0 := v } :=
    fun _ _ => exec_cfgGet_of_select_some
  refine ⟨hget 0 _ rfl, hget 1 _ rfl, hget 2 _ rfl, hget 3 _ rfl, hget 4 _ rfl, fun sel hlarge => ?_⟩
  exact exec_cfgGet_of_select_none (s.cfg.select_of_four_lt hlarge)

end

