-- ==== Sys2Proof/Proofs/Frame.lean ====
section
/-! PROOF. The Frame Codec of 41_frame.md: UTF-8 both ways, the frame's bits, the marker search and the parse. -/

namespace Sys2Proof.Machine

/-! ## UTF-8 encoding -/

theorem utf8Enc_cons {c : CodePoint} {t : List CodePoint} {b bs : List Byte} (hc : utf8EncPoint c = some b)
    (ht : utf8Enc t = .ok bs) : utf8Enc (c :: t) = .ok (b ++ bs) := by
  have hshift : utf8EncFrom (0 + 1) t = .ok bs := by
    rw [encFrom_shift, show utf8EncFrom 0 t = .ok bs from ht]
  unfold utf8Enc utf8EncFrom
  simp only [hc, hshift]

theorem utf8Enc_append_cons_error {c : CodePoint} {u : List CodePoint} {bs : List Byte} (t : List CodePoint)
    (hc : utf8EncPoint c = none) (hu : utf8Enc u = .ok bs) : utf8Enc (u ++ c :: t) = .error u.length := by
  have hfail := encFrom_fail u c t 0 bs hc hu
  rwa [Nat.zero_add] at hfail

/-- The value of a word made of a fixed beginning and a bit field of `c`. -/
theorem toNat_append_extractLsb' {u v : Nat} (p : BitVec v) (c : BitVec u) (lo w : Nat) :
    (p ++ c.extractLsb' lo w).toNat = p.toNat * 2 ^ w + c.toNat / 2 ^ lo % 2 ^ w := by
  rw [BitVec.toNat_append, BitVec.extractLsb'_toNat, Nat.shiftRight_eq_div_pow,
    ← Nat.shiftLeft_add_eq_or_of_lt (Nat.mod_lt _ (Nat.two_pow_pos w)), Nat.shiftLeft_eq]

/-- A byte after the first: `10` and six bits of the code point from bit `lo` on (41_frame.md R130). -/
theorem byteOf_continuation (c : CodePoint) (lo : Nat) :
    byteOf (0x80 + c.toNat / 2 ^ lo % 64) = 0b10#2 ++ c.extractLsb' lo 6 :=
  byteOf_eq (by rw [toNat_append_extractLsb']; simp)

theorem byteOf_continuation_zero (c : CodePoint) :
    byteOf (0x80 + c.toNat % 64) = 0b10#2 ++ c.extractLsb' 0 6 := by
  rw [← byteOf_continuation, pow_zero, Nat.div_one]

theorem utf8EncPoint_one {c : CodePoint} (h : c.toNat ≤ 0x7F) :
    utf8EncPoint c = some [0b0#1 ++ c.extractLsb' 0 7] := by
  have hfirst : byteOf c.toNat = 0b0#1 ++ c.extractLsb' 0 7 :=
    byteOf_eq (by rw [toNat_append_extractLsb']; simp; omega)
  unfold utf8EncPoint
  rw [if_pos h, hfirst]

theorem utf8EncPoint_two {c : CodePoint} (hlo : 0x80 ≤ c.toNat) (hhi : c.toNat ≤ 0x7FF) :
    utf8EncPoint c = some [0b110#3 ++ c.extractLsb' 6 5, 0b10#2 ++ c.extractLsb' 0 6] := by
  have hfirst : byteOf (0xC0 + c.toNat / 64) = 0b110#3 ++ c.extractLsb' 6 5 :=
    byteOf_eq (by rw [toNat_append_extractLsb']; simp; omega)
  unfold utf8EncPoint
  rw [if_neg (by omega), if_pos hhi, hfirst, byteOf_continuation_zero]

theorem utf8EncPoint_three {c : CodePoint} (hlo : 0x800 ≤ c.toNat) (hhi : c.toNat ≤ 0xFFFF)
    (hsurrogate : ¬ (0xD800 ≤ c.toNat ∧ c.toNat ≤ 0xDFFF)) :
    utf8EncPoint c =
      some [0b1110#4 ++ c.extractLsb' 12 4, 0b10#2 ++ c.extractLsb' 6 6, 0b10#2 ++ c.extractLsb' 0 6] := by
  have hfirst : byteOf (0xE0 + c.toNat / 4096) = 0b1110#4 ++ c.extractLsb' 12 4 :=
    byteOf_eq (by rw [toNat_append_extractLsb']; simp; omega)
  unfold utf8EncPoint
  rw [if_neg (by omega), if_neg (by omega), if_neg hsurrogate, if_pos hhi, hfirst, byteOf_continuation_zero,
    ← byteOf_continuation c 6]
  rfl

theorem utf8EncPoint_four {c : CodePoint} (hlo : 0x10000 ≤ c.toNat) (hhi : c.toNat ≤ 0x10FFFF) :
    utf8EncPoint c = some [0b11110#5 ++ c.extractLsb' 18 3, 0b10#2 ++ c.extractLsb' 12 6,
      0b10#2 ++ c.extractLsb' 6 6, 0b10#2 ++ c.extractLsb' 0 6] := by
  have hfirst : byteOf (0xF0 + c.toNat / 262144) = 0b11110#5 ++ c.extractLsb' 18 3 :=
    byteOf_eq (by rw [toNat_append_extractLsb']; simp; omega)
  unfold utf8EncPoint
  rw [if_neg (by omega), if_neg (by omega), if_neg (by omega), if_neg (by omega), if_pos hhi, hfirst,
    byteOf_continuation_zero, ← byteOf_continuation c 6, ← byteOf_continuation c 12]
  rfl

/-! ## UTF-8 decoding -/

/-- The bound on the turns does not matter once it reaches the number of bytes (41_frame.md R137). -/
theorem utf8DecLoop_fuel (policy : Utf8Err) {fuel fuel' : Nat} {y : List Byte} (h : y.length ≤ fuel)
    (h' : y.length ≤ fuel') : utf8DecLoop policy fuel y = utf8DecLoop policy fuel' y := by
  induction fuel generalizing fuel' y with
  | zero =>
    obtain rfl : y = [] := List.length_eq_zero_iff.mp (Nat.le_zero.mp h)
    cases fuel' <;> rfl
  | succ fuel ih =>
    cases fuel' with
    | zero =>
      obtain rfl : y = [] := List.length_eq_zero_iff.mp (Nat.le_zero.mp h')
      rfl
    | succ fuel' =>
      have hrest : ∀ n, 1 ≤ n → utf8DecLoop policy fuel (y.drop n) = utf8DecLoop policy fuel' (y.drop n) := by
        intro n hn
        apply ih <;> rw [List.length_drop] <;> omega
      unfold utf8DecLoop
      split
      · rfl
      · split
        · next hat => rw [hrest _ (utf8At_length_pos hat)]
        · rw [hrest _ (onIllFormed_passes policy y)]

theorem utf8DecLoop_eq_utf8Dec (policy : Utf8Err) {fuel : Nat} {y : List Byte} (h : y.length ≤ fuel) :
    utf8DecLoop policy fuel y = utf8Dec policy y :=
  utf8DecLoop_fuel policy h le_rfl

/-- A turn of the loop at a well-formed sequence (41_frame.md R137). -/
theorem utf8Dec_of_utf8At_some (policy : Utf8Err) {y : List Byte} {n : Nat} {c : CodePoint}
    (h : utf8At y = some (n, c)) : utf8Dec policy y = c :: utf8Dec policy (y.drop n) := by
  cases y with
  | nil => cases h
  | cons b y =>
    have hrest : ((b :: y).drop n).length ≤ y.length := by
      have hn := utf8At_length_pos h
      rw [List.length_drop, List.length_cons]
      omega
    rw [← utf8DecLoop_eq_utf8Dec policy hrest]
    simp [utf8Dec, utf8DecLoop, h]

/-- A turn of the loop at any other byte (41_frame.md R137). -/
theorem utf8Dec_perByte_of_utf8At_none {b : Byte} {y : List Byte} (h : utf8At (b :: y) = none) :
    utf8Dec .perByte (b :: y) = replacement :: utf8Dec .perByte y := by
  simp [utf8Dec, utf8DecLoop, h, onIllFormed]

/-! ## Bits and bytes -/

theorem pack_cons_eight (b7 b6 b5 b4 b3 b2 b1 b0 : Bool) (rest : List Bool) :
    pack (b7 :: b6 :: b5 :: b4 :: b3 :: b2 :: b1 :: b0 :: rest) =
      byteOf (128 * b7.toNat + 64 * b6.toNat + 32 * b5.toNat + 16 * b4.toNat + 8 * b3.toNat + 4 * b2.toNat
        + 2 * b1.toNat + b0.toNat) :: pack rest := rfl

/-- The value of a byte is its eight bits weighted from the most significant (41_frame.md R134). -/
theorem pack_getD_toNat {s : List Bool} {m : Nat} (h : m < s.length / 8) :
    ((pack s).getD m 0).toNat = ∑ j ∈ Finset.range 8, (s.getD (8 * m + j) false).toNat * 2 ^ (7 - j) := by
  induction s using pack.induct generalizing m with
  | case1 b7 b6 b5 b4 b3 b2 b1 b0 rest ih =>
    rw [pack_cons_eight]
    cases m with
    | zero =>
      rw [List.getD_cons_zero, byteOf_toNat (by grind [Bool.toNat_le])]
      simp [Finset.sum_range_succ]
      omega
    | succ m =>
      have hrest := ih (m := m) (by simp only [List.length_cons] at h; omega)
      simpa [Nat.mul_succ, Nat.add_right_comm] using hrest
  | case2 s hshort =>
    rw [← pack_length, pack.eq_2 s hshort] at h
    cases h

/-! ## The marker -/

theorem marker_isPrefixOf_drop_iff (y : List Byte) (k : Nat) :
    marker.isPrefixOf (y.drop k) = true ↔ slice y k 4 = marker := by
  rw [List.isPrefixOf_iff_prefix, List.prefix_iff_eq_take, eq_comm]
  rfl

theorem findMarker_eq_some_iff (y : List Byte) (k : Nat) :
    findMarker y = some k ↔ slice y k 4 = marker ∧ ∀ m, m < k → slice y m 4 ≠ marker := by
  simp only [← marker_isPrefixOf_drop_iff, ne_eq]
  constructor
  · exact findMarker_some
  · rintro ⟨hat, hbefore⟩
    cases hfind : findMarker y with
    | none => exact absurd hat (findMarker_none hfind k)
    | some n =>
      obtain ⟨hatN, hbeforeN⟩ := findMarker_some hfind
      have hle : k ≤ n := not_lt.mp fun hlt => hbefore n hlt hatN
      have hge : n ≤ k := not_lt.mp fun hlt => hbeforeN k hlt hat
      rw [le_antisymm hge hle]

theorem findMarker_eq_none_iff (y : List Byte) : findMarker y = none ↔ ∀ m, slice y m 4 ≠ marker := by
  simp only [← marker_isPrefixOf_drop_iff, ne_eq]
  constructor
  · exact findMarker_none
  · intro hnowhere
    cases hfind : findMarker y with
    | none => rfl
    | some n => exact absurd (findMarker_some hfind).1 (hnowhere n)

/-! ## The commands -/

theorem exec_serialize_of_frameBits_ok {s : State} {bits : List Bool} (h : frameBits s.par.bitCap s.txt = .ok bits) :
    exec .serialize s = .next { s with bit := bits, status := ⟨false, false, false, 0⟩, res0 := 0 } := by
  simp only [exec, execSerialize, h]
  rfl

theorem exec_deserialize_of_fits {s : State} {p : Parsed} (hp : parseFrame s.par.utf8Err s.bit = p)
    (hfits : fits s.par.txtCap p.text.length = true) :
    exec .deserialize s = .next { s with txt := p.text, status := ⟨false, p.insuf, p.trunc, 0⟩, res0 := 0 } := by
  subst hp
  exact if_pos hfits

theorem exec_deserialize_of_not_fits {s : State} {p : Parsed} (hp : parseFrame s.par.utf8Err s.bit = p)
    (hfits : fits s.par.txtCap p.text.length = false) :
    exec .deserialize s =
      .next { s with status := ⟨false, false, false, 5⟩, res0 := BitVec.ofNat 32 p.text.length } := by
  subst hp
  exact if_neg (ne_true_of_eq_false hfits)

/-- Each of the three conditions of 41_frame.md R138 for an empty exit makes the parse take it. -/
theorem parseFrame_eq_insufficient (policy : Utf8Err) {bits : List Bool}
    (h : bits.length < 48 ∨ findMarker (pack bits) = none ∨
      ∃ k, findMarker (pack bits) = some k ∧ (pack bits).length < k + 6) :
    parseFrame policy bits = Parsed.insufficient := by
  rcases parseFrame_cases policy bits with ⟨hempty, -⟩ | ⟨k, hlong, hfind, hsix, -⟩
  · exact hempty
  · rcases h with hshort | hnone | ⟨n, hn, hcut⟩
    · omega
    · rw [hfind] at hnone; cases hnone
    · rw [hfind] at hn; cases hn; omega

theorem parseFrame_eq_payload (policy : Utf8Err) {bits : List Bool} {k avail : Nat} (hlong : 48 ≤ bits.length)
    (hfind : findMarker (pack bits) = some k) (havail : k + 6 + avail = (pack bits).length) :
    parseFrame policy bits =
      { text := utf8Dec policy (slice (pack bits) (k + 6) (min (lengthField (pack bits) k) avail))
        insuf := false
        trunc := decide (avail < lengthField (pack bits) k) } := by
  obtain rfl : avail = (pack bits).length - (k + 6) := by omega
  rcases parseFrame_cases policy bits with ⟨-, hshort | hnone | ⟨n, hn, hcut⟩⟩ | ⟨n, -, hn, -, hparse⟩
  · omega
  · rw [hfind] at hnone; cases hnone
  · rw [hfind] at hn; cases hn; omega
  · rw [hfind] at hn; cases hn; exact hparse

end Sys2Proof.Machine

open Sys2Proof Sys2Proof.Machine

/-- Settles O22: the five rows of the table, and a sequence by its first element or its first failing one. -/
theorem codePointsEncodeAsTheTableSays : Obligations.CodePointsEncodeAsTheTableSays := by
  unfold Obligations.CodePointsEncodeAsTheTableSays
  refine ⟨rfl, fun c => ⟨fun t b bs => utf8Enc_cons, fun u t bs => utf8Enc_append_cons_error t, utf8EncPoint_one,
    ?_, ?_, ?_, (encPoint_none c).mpr⟩⟩
  · rintro ⟨hlo, hhi⟩
    exact utf8EncPoint_two hlo hhi
  · rintro ⟨hlo, hhi, hsurrogate⟩
    exact utf8EncPoint_three hlo hhi hsurrogate
  · rintro ⟨hlo, hhi⟩
    exact utf8EncPoint_four hlo hhi

/-- Settles O23: the bits are `BITS_OF` of the frame, which are known bit by bit. -/
theorem serializeWritesTheFrameBits : Obligations.SerializeWritesTheFrameBits := by
  unfold Obligations.SerializeWritesTheFrameBits
  intro s b henc hlen hfits
  refine ⟨bitsOf (frame b), exec_serialize_of_frameBits_ok (frameBits_ok.mpr ⟨b, henc, hlen, hfits, rfl⟩),
    bitsOf_frame_length b, fun m j hm hj => ?_⟩
  rw [← frame_length] at hm
  rw [bitsOf_getElem? _ hm hj, ← List.getD_eq_getElem _ 0 hm]
  rfl

/-- Settles O26: a window is the marker exactly when the rest begins with the marker, which is what the scan tests. -/
theorem markerSearchFindsTheFirstWindow : Obligations.MarkerSearchFindsTheFirstWindow := by
  unfold Obligations.MarkerSearchFindsTheFirstWindow
  intro y k
  exact ⟨findMarker_eq_some_iff y k, findMarker_eq_none_iff y⟩

/-- Settles O27: the length, the value and the inverse of packing. -/
theorem packTakesEightBitsToAByte : Obligations.PackTakesEightBitsToAByte := by
  unfold Obligations.PackTakesEightBitsToAByte
  refine fun s => ⟨pack_length s, fun m => pack_getD_toNat, fun f => ?_⟩
  have hinv := pack_bitsOf_append f []
  rwa [List.append_nil, show pack [] = [] from rfl, List.append_nil] at hinv

/-- Settles O28: `utf8At_encPoint` and its converse `encPoint_utf8At`. -/
theorem wellFormedSequencesAreTheEncodedOnes : Obligations.WellFormedSequencesAreTheEncodedOnes := by
  unfold Obligations.WellFormedSequencesAreTheEncodedOnes
  intro y n c
  constructor
  · intro hat
    obtain ⟨b, z, henc, hlen, hy⟩ := encPoint_utf8At hat
    exact ⟨b, henc, hlen, z, hy⟩
  · rintro ⟨b, henc, rfl, z, rfl⟩
    exact utf8At_encPoint henc z

/-- Settles O29: the two turns of the loop, its bound, and the inverse of encoding. -/
theorem utf8DecodeReplacesByteByByte : Obligations.Utf8DecodeReplacesByteByByte := by
  unfold Obligations.Utf8DecodeReplacesByteByByte
  exact ⟨rfl, fun _ _ _ => utf8Dec_of_utf8At_some .perByte, fun _ _ => utf8Dec_perByte_of_utf8At_none,
    utf8Dec_length .perByte, fun _ _ => utf8Dec_enc .perByte⟩

/-- Settles O30: the parse takes the exit that the conditions name, and the command writes what the parse gives. -/
theorem deserializeParsesTheFirstFrame : Obligations.DeserializeParsesTheFirstFrame := by
  unfold Obligations.DeserializeParsesTheFirstFrame
  intro s
  constructor
  · intro hempty
    exact exec_deserialize_of_fits (parseFrame_eq_insufficient s.par.utf8Err hempty) (fits_zero _)
  · intro k l avail text hlong hfind havail hfield htext
    have hclaim : lengthField (pack s.bit) k = l := hfield.symm
    have hparse : parseFrame s.par.utf8Err s.bit = ⟨text, false, decide (avail < l)⟩ := by
      rw [parseFrame_eq_payload s.par.utf8Err hlong hfind havail, hclaim, htext]
    exact ⟨exec_deserialize_of_fits hparse, exec_deserialize_of_not_fits hparse⟩

end

