-- ==== Sys2Proof/Proofs/Synth.lean ====
section
/-! PROOF. The Waveform Synthesizer of 42_synth.md: the waveform by position, and `SYNTHESIZE`. -/

namespace Sys2Proof.Machine

/-! ## The waveform by position -/

theorem guardBand_getElem? (c : ConfigRegs) {m : Nat} (hm : m < guardLen c.sr.toNat) :
    (guardBand c)[m]? = some (.rat 0) :=
  List.getElem?_replicate_of_lt hm

/-- The guard band before the tone blocks (42_synth.md R160). -/
theorem waveform_getElem?_leadingGuard (num : Num) (c : ConfigRegs) (bits : List Bool) {m : Nat}
    (hm : m < guardLen c.sr.toNat) : (waveform num c bits)[m]? = some (.rat 0) := by
  have hband : m < (guardBand c).length := by rwa [guardBand_length]
  rw [waveform, List.append_assoc, List.getElem?_append_left hband, guardBand_getElem? c hm]

/-- The tone blocks start after one guard band (42_synth.md R163). -/
theorem waveform_getElem?_toneBlocks (num : Num) (c : ConfigRegs) (bits : List Bool) {k : Nat}
    (hk : k < bits.length * c.spb.toNat) :
    (waveform num c bits)[guardLen c.sr.toNat + k]? = (bits.flatMap (toneBlock num c))[k]? := by
  have hblocks : k < (bits.flatMap (toneBlock num c)).length := by rwa [toneBlocks_length]
  rw [waveform, List.append_assoc, ← guardBand_length c, List.getElem?_append_right (Nat.le_add_right _ _),
    Nat.add_sub_cancel_left, List.getElem?_append_left hblocks]

/-- The guard band after the tone blocks (42_synth.md R160). -/
theorem waveform_getElem?_trailingGuard (num : Num) (c : ConfigRegs) (bits : List Bool) {m : Nat}
    (hm : m < guardLen c.sr.toNat) :
    (waveform num c bits)[guardLen c.sr.toNat + bits.length * c.spb.toNat + m]? = some (.rat 0) := by
  have hbefore : guardLen c.sr.toNat + bits.length * c.spb.toNat =
      (guardBand c ++ bits.flatMap (toneBlock num c)).length := by
    rw [List.length_append, guardBand_length, toneBlocks_length]
  rw [waveform, hbefore, List.getElem?_append_right (Nat.le_add_right _ _), Nat.add_sub_cancel_left,
    guardBand_getElem? c hm]

/-- Position `n` of block `i` lies among the first `k` blocks when `i < k` (20_memory.md R68). -/
theorem blockPosition_lt {i k n spb : Nat} (hi : i < k) (hn : n < spb) : i * spb + n < k * spb :=
  calc i * spb + n < (i + 1) * spb := by rw [Nat.succ_mul]; omega
    _ ≤ k * spb := Nat.mul_le_mul_right spb hi

/-- Sample `n` of the tone block of bit `i`, in the waveform (42_synth.md R162, R163). -/
theorem waveform_getElem?_tone (num : Num) (c : ConfigRegs) {bits : List Bool} {i n : Nat} {b : Bool}
    (hb : bits[i]? = some b) (hn : n < c.spb.toNat) :
    (waveform num c bits)[guardLen c.sr.toNat + i * c.spb.toNat + n]? =
      some (num.tone (c.toneFreq b * n % c.sr.toNat) c.sr.toNat) := by
  obtain ⟨hi, rfl⟩ := List.getElem?_eq_some_iff.mp hb
  rw [Nat.add_assoc, waveform_getElem?_toneBlocks num c bits (blockPosition_lt hi hn),
    toneBlocks_getElem? num c bits hi hn]

/-! ## The command -/

theorem exec_synthesize_of_fits {s : State} (h : fits s.par.wavCap (waveLen s.cfg s.bit.length) = true) :
    exec .synthesize s = .next { s with
      wav := waveform (numOf s.par.numerics) s.cfg s.bit, wavRate := s.cfg.sr
      status := ⟨false, false, false, 0⟩, res0 := 0 } :=
  if_pos h

theorem exec_synthesize_of_not_fits {s : State} (h : fits s.par.wavCap (waveLen s.cfg s.bit.length) = false) :
    exec .synthesize s = .next { s with
      status := ⟨false, false, false, 5⟩, res0 := BitVec.ofNat 32 (waveLen s.cfg s.bit.length) } :=
  if_neg (ne_true_of_eq_false h)

end Sys2Proof.Machine

open Sys2Proof Sys2Proof.Machine

/-- Settles O33: the command writes `waveform`, whose length and samples are known by position. -/
theorem synthesizeLaysOutTheWaveform : Obligations.SynthesizeLaysOutTheWaveform := by
  unfold Obligations.SynthesizeLaysOutTheWaveform
  refine fun s => ⟨exec_synthesize_of_not_fits, fun hfits => ?_⟩
  let num := numOf s.par.numerics
  exact ⟨waveform num s.cfg s.bit, exec_synthesize_of_fits hfits, waveform_length num s.cfg s.bit,
    fun _ => waveform_getElem?_leadingGuard num s.cfg s.bit,
    fun _ _ _ => waveform_getElem?_tone num s.cfg,
    fun _ => waveform_getElem?_trailingGuard num s.cfg s.bit⟩

end

