-- ==== Sys2Proof/Proofs/Detect.lean ====
section
/-! PROOF. The Tone Detector of 43_detect.md: the power of a slice by position, and `SCORE`. -/

namespace Sys2Proof.Machine

/-! ## The power of a slice -/

theorem slice_length {α : Type} {l : List α} {off len : Nat} (h : off + len ≤ l.length) :
    (slice l off len).length = len := by
  rw [slice, List.length_take, List.length_drop]
  omega

theorem slice_getD {α : Type} (l : List α) (d : α) {off len n : Nat} (h : n < len) :
    (slice l off len).getD n d = l.getD (off + n) d := by
  simp only [slice, List.getD_eq_getElem?_getD, List.getElem?_take_of_lt h, List.getElem?_drop]

/-- A sum over the samples of a slice, read from the whole sequence (00_scope.md R8). -/
theorem sum_slice_eq (val : Amp → ℝ) (g : Nat → ℝ) {w : List Amp} {off len : Nat} (h : off + len ≤ w.length) :
    ∑ n ∈ Finset.range (slice w off len).length, val ((slice w off len).getD n (.rat 0)) * g n =
      ∑ n ∈ Finset.range len, val (w.getD (off + n) (.rat 0)) * g n := by
  rw [slice_length h]
  refine Finset.sum_congr rfl fun n hn => ?_
  rw [slice_getD w _ (Finset.mem_range.mp hn)]

/-! ## The command -/

theorem exec_score_of_rate_zero (off len freq : Word) (s : State) :
    exec (.score off len freq 0) s = .next { s with status := ⟨false, false, false, 3⟩, res0 := 0 } :=
  congrArg Host.Outcome.next (raise_configFault 0 s)

theorem raise_rangeFault (v : Word) (s : State) :
    raise .rangeFault v.toNat s = { s with status := ⟨false, false, false, 4⟩, res0 := v } := by
  simp [raise, Status.faulted, CmdFault.code]

theorem exec_score_of_length_lt {off len rate : Word} {s : State} (freq : Word) (hrate : rate ≠ 0)
    (h : s.wav.length < off.toNat + len.toNat) :
    exec (.score off len freq rate) s = .next { s with status := ⟨false, false, false, 4⟩, res0 := off } := by
  rw [← raise_rangeFault]
  exact (if_neg hrate).trans (if_pos h)

theorem exec_score_of_le_length {off len rate : Word} {s : State} (freq : Word) (hrate : rate ≠ 0)
    (h : off.toNat + len.toNat ≤ s.wav.length) :
    exec (.score off len freq rate) s = .next { s with
      power := power (numOf s.par.numerics) (slice s.wav off.toNat len.toNat) freq.toNat rate.toNat
      status := ⟨false, false, false, 0⟩, res0 := 0 } :=
  (if_neg hrate).trans (if_neg h.not_gt)

end Sys2Proof.Machine

open Sys2Proof Sys2Proof.Machine

/-- Settles O37: the command writes `power` of the slice, which `power_eq` gives as the two sums over its samples. -/
theorem scoreSumsTheSquaredCorrelations : Obligations.ScoreSumsTheSquaredCorrelations := by
  unfold Obligations.ScoreSumsTheSquaredCorrelations
  intro off len freq rate s
  refine ⟨?_, exec_score_of_length_lt freq, fun hrate hinside =>
    ⟨_, exec_score_of_le_length freq hrate hinside, fun val hval => ?_⟩⟩
  · rintro rfl
    exact exec_score_of_rate_zero off len freq s
  · rw [power_eq hval, sum_slice_eq val _ hinside, sum_slice_eq val _ hinside]

end

