-- ==== Sys2Proof/Proofs/Demod.lean ====
section
/-! PROOF. The Signal Demodulator of 44_demod.md: the start, the bit of each block, and the block-size check. -/

namespace Sys2Proof.Machine

/-! ## The start -/

theorem isLoud_eq_false_iff {num : Num} {val : Amp → ℝ} (h : ExactNum num val) (x : Amp) :
    isLoud num x = false ↔ |val x| ≤ 1 / 100 := by
  rw [← Bool.not_eq_true, isLoud_iff h, not_lt]

theorem firstLoud_eq_none {num : Num} {w : List Amp} (h : ∀ x ∈ w, isLoud num x = false) : firstLoud num w = none :=
  firstLoudFrom_quiet 0 h

/-- A loud sample with only quiet ones before it is the first loud sample (44_demod.md R196). -/
theorem firstLoud_eq_some {num : Num} {w : List Amp} {i0 : Nat} {x : Amp} (hx : w[i0]? = some x)
    (hloud : isLoud num x = true) (hquiet : ∀ m, m < i0 → ∀ y, w[m]? = some y → isLoud num y = false) :
    firstLoud num w = some i0 := by
  cases hfirst : firstLoud num w with
  | none =>
    have hxquiet := firstLoudFrom_none hfirst x (List.mem_of_getElem? hx)
    rw [hloud] at hxquiet
    cases hxquiet
  | some k =>
    obtain ⟨-, -, ⟨y, hy, hyloud⟩, hbefore⟩ := firstLoudFrom_some hfirst
    have hge : i0 ≤ k := not_lt.mp fun hlt => ne_true_of_eq_false (hquiet k hlt y hy) hyloud
    have hle : k ≤ i0 := not_lt.mp fun hlt => ne_true_of_eq_false (hbefore i0 hlt x hx) hloud
    rw [le_antisymm hle hge]

theorem startIndex_of_firstLoud_none {num : Num} {w : List Amp} (spb : Nat) (h : firstLoud num w = none) :
    startIndex num spb w = 0 := by
  rw [startIndex, h]

theorem startIndex_of_firstLoud_some {num : Num} {w : List Amp} {i0 : Nat} (spb : Nat)
    (h : firstLoud num w = some i0) : startIndex num spb w = i0 - spb / 4 := by
  rw [startIndex, h]

/-! ## The bits -/

/-- The bit of a block, with the powers read as real numbers (44_demod.md R198). -/
theorem decideBit_iff {num : Num} {val : Amp → ℝ} (h : ExactNum num val) (fspace fmark rate : Nat)
    (block : List Amp) :
    decideBit num fspace fmark rate block = true ↔
      val (power num block fspace rate) < val (power num block fmark rate) :=
  h.lt_iff _ _

/-- Block `j` of the walk over the samples from `start` on begins `j` blocks after the start (44_demod.md R197). -/
theorem blockWalk_drop_getElem? (d : List Amp → Bool) (spb start : Nat) {n j : Nat} (w : List Amp) (h : j < n) :
    (blockWalk d spb n (w.drop start))[j]? = some (d (slice w (start + j * spb) spb)) := by
  rw [blockWalk_getElem? d spb _ h, slice_drop]

theorem demodBits_of_blockSize_zero {par : Params} {c : ConfigRegs} {rate : Word} (w : List Amp)
    (h : rate = 0 ∨ samplesPerBit par.roundTie rate.toNat c.baud.toNat = 0) :
    demodBits par c rate w = .error (.configFault, rate.toNat) :=
  if_pos h

/-! ## The commands -/

theorem exec_demodulate_of_demodBits_ok {s : State} {bits : List Bool}
    (h : demodBits s.par s.cfg s.wavRate s.wav = .ok bits) :
    exec .demodulate s = .next { s with bit := bits, status := ⟨false, false, false, 0⟩, res0 := 0 } := by
  simp only [exec, execDemodulate, h]
  rfl

theorem exec_demodulate_of_demodBits_error {s : State} {f : CmdFault} {info : Nat}
    (h : demodBits s.par s.cfg s.wavRate s.wav = .error (f, info)) :
    exec .demodulate s = .next (raise f info s) := by
  simp only [exec, execDemodulate, h]

theorem exec_decode_of_demodBits_error {s : State} {f : CmdFault} {info : Nat}
    (h : demodBits s.par s.cfg s.wavRate s.wav = .error (f, info)) :
    exec .decode s = .next (raise f info s) := by
  simp only [exec, execDecode, h]

end Sys2Proof.Machine

open Sys2Proof Sys2Proof.Machine

/-- Settles O39: the scan stops at the first sample whose absolute value is above 1/100, and the cut-off difference of
natural numbers is the maximum with 0. -/
theorem startIsAQuarterBitBeforeTheFirstLoudSample : Obligations.StartIsAQuarterBitBeforeTheFirstLoudSample := by
  unfold Obligations.StartIsAQuarterBitBeforeTheFirstLoudSample
  intro num val spb w hval
  simp only [← isLoud_iff hval, ← isLoud_eq_false_iff hval]
  constructor
  · intro i0 x hx hloud hquiet
    rw [startIndex_of_firstLoud_some spb (firstLoud_eq_some hx hloud hquiet)]
    omega
  · intro hquiet
    exact startIndex_of_firstLoud_none spb (firstLoud_eq_none hquiet)

/-- Settles O40: the command writes the block walk, whose bit `j` is the decision about block `j`. -/
theorem demodulateDecidesBlockByBlock : Obligations.DemodulateDecidesBlockByBlock := by
  unfold Obligations.DemodulateDecidesBlockByBlock
  rintro s spb start rfl rfl hrate hspb hfits
  refine ⟨_, exec_demodulate_of_demodBits_ok (demodBits_ok.mpr ⟨⟨hrate, hspb⟩, hfits, rfl⟩),
    blockWalk_length _ _ _ _, fun j hj => ?_⟩
  rw [blockWalk_length] at hj
  refine ⟨?_, fun val hval => ?_⟩
  · have hwithin := block_within (numOf s.par.numerics) _ s.wav hj
    rwa [Nat.succ_mul, ← Nat.add_assoc]
  · rw [blockWalk_drop_getElem? _ _ _ s.wav hj, Option.some_inj, decideBit_iff hval]

/-- Settles O41: the check of the block size comes first in `demodBits`, which both decoders run. -/
theorem zeroBlockSizeRaisesConfigFault : Obligations.ZeroBlockSizeRaisesConfigFault := by
  unfold Obligations.ZeroBlockSizeRaisesConfigFault
  intro s hzero
  have hfault := demodBits_of_blockSize_zero s.wav hzero
  rw [← raise_configFault]
  exact ⟨exec_demodulate_of_demodBits_error hfault, exec_decode_of_demodBits_error hfault⟩

end

