-- ==== Sys2Proof/Proofs/Facade.lean ====
section
/-! PROOF. The Codec Facade of 45_facade.md: `ENCODE` and `DECODE` as two commands in a row, and when they complete. -/

namespace Sys2Proof.Machine

/-! ## A command that is two others in a row, checked before writing -/

/-- On `s`, the command `whole` ends as `first` and `second` run one after the other (45_facade.md R215, R216), with a
fault of either raised on `s` itself. -/
inductive RunsInSequence (first second whole : Instr) (s : State) : Prop where
  | firstFaults (f : CmdFault) (info : Nat) (hfirst : exec first s = .next (raise f info s))
      (hwhole : exec whole s = .next (raise f info s))
  | secondFaults (u : State) (hfirst : exec first s = .next u) (hu : u.status.err = 0) (f : CmdFault) (info : Nat)
      (hsecond : exec second u = .next (raise f info u)) (hwhole : exec whole s = .next (raise f info s))
  | bothComplete (u v : State) (hfirst : exec first s = .next u) (hu : u.status.err = 0)
      (hsecond : exec second u = .next v) (hv : v.status.err = 0) (hwhole : exec whole s = .next v)

theorem raise_err_ne_zero (f : CmdFault) (info : Nat) (s : State) : (raise f info s).status.err ≠ 0 :=
  f.code_ne_zero

/-- What the facade's rules say of the states that the two commands leave. -/
theorem RunsInSequence.outcome {first second whole : Instr} {s u v : State} (h : RunsInSequence first second whole s)
    (hfirst : exec first s = .next u) (hsecond : exec second u = .next v) :
    (u.status.err ≠ 0 → exec whole s = .next u) ∧
    (u.status.err = 0 → v.status.err ≠ 0 → exec whole s = .next { s with status := v.status, res0 := v.res0 }) ∧
    (u.status.err = 0 → v.status.err = 0 → exec whole s = .next v) := by
  cases h with
  | firstFaults f info hfirst' hwhole =>
    cases hfirst.symm.trans hfirst'
    have herr := raise_err_ne_zero f info s
    exact ⟨fun _ => hwhole, fun h0 => absurd h0 herr, fun h0 => absurd h0 herr⟩
  | secondFaults u' hfirst' hu f info hsecond' hwhole =>
    cases hfirst.symm.trans hfirst'
    cases hsecond.symm.trans hsecond'
    exact ⟨fun hne => absurd hu hne, fun _ _ => hwhole, fun _ h0 => absurd h0 (raise_err_ne_zero f info u)⟩
  | bothComplete u' v' hfirst' hu hsecond' hv hwhole =>
    cases hfirst.symm.trans hfirst'
    cases hsecond.symm.trans hsecond'
    exact ⟨fun hne => absurd hu hne, fun _ hne => absurd hv hne, fun _ _ => hwhole⟩

/-! ## `ENCODE` -/

theorem exec_serialize_of_frameBits_error {s : State} {f : CmdFault} {info : Nat}
    (h : frameBits s.par.bitCap s.txt = .error (f, info)) : exec .serialize s = .next (raise f info s) := by
  simp only [exec, execSerialize, h]

theorem exec_encode_of_frameBits_error {s : State} {f : CmdFault} {info : Nat}
    (h : frameBits s.par.bitCap s.txt = .error (f, info)) : exec .encode s = .next (raise f info s) := by
  simp only [exec, execEncode, h]

theorem exec_encode_of_fits {s : State} {bits : List Bool} (h : frameBits s.par.bitCap s.txt = .ok bits)
    (hfits : fits s.par.wavCap (waveLen s.cfg bits.length) = true) :
    exec .encode s = .next { s with
      bit := bits, wav := waveform (numOf s.par.numerics) s.cfg bits, wavRate := s.cfg.sr
      status := ⟨false, false, false, 0⟩, res0 := 0 } := by
  simp only [exec, execEncode, h, if_pos hfits]
  rfl

theorem exec_encode_of_not_fits {s : State} {bits : List Bool} (h : frameBits s.par.bitCap s.txt = .ok bits)
    (hfits : fits s.par.wavCap (waveLen s.cfg bits.length) = false) :
    exec .encode s = .next (raise .capacityFault (waveLen s.cfg bits.length) s) := by
  simp only [exec, execEncode, h, if_neg (ne_true_of_eq_false hfits)]

theorem encode_runsInSequence (s : State) : RunsInSequence .serialize .synthesize .encode s := by
  cases hbits : frameBits s.par.bitCap s.txt with
  | error fault =>
    exact .firstFaults fault.1 fault.2 (exec_serialize_of_frameBits_error hbits)
      (exec_encode_of_frameBits_error hbits)
  | ok bits =>
    have hfirst := exec_serialize_of_frameBits_ok hbits
    cases hfits : fits s.par.wavCap (waveLen s.cfg bits.length) with
    | false =>
      exact .secondFaults _ hfirst rfl .capacityFault _ (exec_synthesize_of_not_fits hfits)
        (exec_encode_of_not_fits hbits hfits)
    | true =>
      exact .bothComplete _ _ hfirst rfl (exec_synthesize_of_fits hfits) rfl (exec_encode_of_fits hbits hfits)

/-! ## `DECODE` -/

theorem exec_decode_of_fits {s : State} {bits : List Bool} (h : demodBits s.par s.cfg s.wavRate s.wav = .ok bits)
    (hfits : fits s.par.txtCap (parseFrame s.par.utf8Err bits).text.length = true) :
    exec .decode s = .next { s with
      bit := bits, txt := (parseFrame s.par.utf8Err bits).text
      status := ⟨false, (parseFrame s.par.utf8Err bits).insuf, (parseFrame s.par.utf8Err bits).trunc, 0⟩
      res0 := 0 } := by
  simp only [exec, execDecode, h, if_pos hfits]
  rfl

theorem exec_decode_of_not_fits {s : State} {bits : List Bool} (h : demodBits s.par s.cfg s.wavRate s.wav = .ok bits)
    (hfits : fits s.par.txtCap (parseFrame s.par.utf8Err bits).text.length = false) :
    exec .decode s = .next (raise .capacityFault (parseFrame s.par.utf8Err bits).text.length s) := by
  simp only [exec, execDecode, h, if_neg (ne_true_of_eq_false hfits)]

theorem decode_runsInSequence (s : State) : RunsInSequence .demodulate .deserialize .decode s := by
  cases hbits : demodBits s.par s.cfg s.wavRate s.wav with
  | error fault =>
    exact .firstFaults fault.1 fault.2 (exec_demodulate_of_demodBits_error hbits)
      (exec_decode_of_demodBits_error hbits)
  | ok bits =>
    have hfirst := exec_demodulate_of_demodBits_ok hbits
    cases hfits : fits s.par.txtCap (parseFrame s.par.utf8Err bits).text.length with
    | false =>
      exact .secondFaults _ hfirst rfl .capacityFault _ (exec_deserialize_of_not_fits rfl hfits)
        (exec_decode_of_not_fits hbits hfits)
    | true =>
      exact .bothComplete _ _ hfirst rfl (exec_deserialize_of_fits rfl hfits) rfl (exec_decode_of_fits hbits hfits)

theorem length_of_demodBits_ok {par : Params} {c : ConfigRegs} {rate : Word} {w : List Amp} {bits : List Bool}
    (h : demodBits par c rate w = .ok bits) :
    bits.length =
      blockCount (numOf par.numerics) (samplesPerBit par.roundTie rate.toNat c.baud.toNat) w := by
  obtain ⟨-, -, rfl⟩ := demodBits_ok.mp h
  exact blockWalk_length _ _ _ _

/-- Room for one code point per whole byte of bits is room for the text (41_frame.md R137, R138). -/
theorem fits_parseFrame_text {cap : Option Nat} (policy : Utf8Err) {bits : List Bool}
    (h : fits cap (bits.length / 8) = true) : fits cap (parseFrame policy bits).text.length = true :=
  fits_mono (parseFrame_text_length policy bits) h

end Sys2Proof.Machine

open Sys2Proof Sys2Proof.Machine

/-- Settles O47: `ENCODE` makes the two commands' checks in their order, and the frame of `b` has `48 + 8 * b.length`
bits. -/
theorem encodeIsSerializeThenSynthesize : Obligations.EncodeIsSerializeThenSynthesize := by
  unfold Obligations.EncodeIsSerializeThenSynthesize
  refine ⟨fun s _ _ => (encode_runsInSequence s).outcome, fun s b henc hlen hbit hwav => ?_⟩
  have hbits := frameBits_ok.mpr ⟨b, henc, hlen, hbit, rfl⟩
  rw [← bitsOf_frame_length] at hwav
  exact exec_encode_of_fits hbits hwav

/-- Settles O48: `DECODE` makes the two commands' checks in their order, and the parse gives at most one code point
per whole byte of the demodulated bits. -/
theorem decodeIsDemodulateThenDeserialize : Obligations.DecodeIsDemodulateThenDeserialize := by
  unfold Obligations.DecodeIsDemodulateThenDeserialize
  refine ⟨fun s _ _ => (decode_runsInSequence s).outcome, ?_⟩
  rintro s spb rfl hrate hspb hbit htxt
  have hbits := demodBits_ok.mpr ⟨⟨hrate, hspb⟩, hbit, rfl⟩
  refine ⟨_, exec_demodulate_of_demodBits_ok hbits, exec_decode_of_fits hbits (fits_parseFrame_text _ ?_)⟩
  rwa [length_of_demodBits_ok hbits]

end

