-- ==== Sys2Proof/Proofs/Pcm.lean ====
section
/-! PROOF. The audio boundary of 46_pcm.md: each outcome of `PCM.NORM` and `PCM.QUANT`, and the range of `QUANT16`. -/

namespace Sys2Proof.Machine

/-! ## The elements that `PCM_FMT` names -/

theorem readPcm_of_fmt_zero {s : State} (h : s.pcmFmt = 0) : s.readPcm = .i16 (codes16 s.pcm) := by
  simp [State.readPcm, h]

theorem readPcm_of_fmt_one {s : State} (h : s.pcmFmt = 1) : s.readPcm = .i32 (codes32 s.pcm) := by
  simp [State.readPcm, h]

theorem readPcm_of_fmt_two {s : State} (h : s.pcmFmt = 2) : s.readPcm = .f (reals s.pcm) := by
  simp [State.readPcm, h]

/-! ## `PCM.NORM` -/

theorem exec_pcmNorm_of_reserved {s : State} (h : s.pcmFmt = 3) :
    exec .pcmNorm s = .next { s with status := ⟨false, false, false, 6⟩, res0 := 0x60 } :=
  if_pos h

theorem exec_pcmNorm_of_not_fits {s : State} (hfmt : s.pcmFmt ≠ 3)
    (hfits : fits s.par.wavCap s.pcm.length = false) :
    exec .pcmNorm s = .next { s with status := ⟨false, false, false, 5⟩, res0 := BitVec.ofNat 32 s.pcm.length } :=
  (if_neg hfmt).trans (if_neg (ne_true_of_eq_false hfits))

/-- Where the format is not reserved and the samples fit, they are normalised by the type they are read at. -/
theorem exec_pcmNorm_of_fits {s : State} (hfmt : s.pcmFmt ≠ 3) (hfits : fits s.par.wavCap s.pcm.length = true) :
    exec .pcmNorm s = .next { s with
      wav := normalise (numOf s.par.numerics) s.readPcm, wavRate := s.pcmRate
      status := ⟨false, false, false, 0⟩, res0 := 0 } :=
  (if_neg hfmt).trans (if_pos hfits)

/-! ## `PCM.QUANT` -/

/-- The 16-bit codes of a waveform (46_pcm.md R231). -/
def quantCodes (num : Num) (w : List Amp) : List (BitVec 16) :=
  w.map fun a => BitVec.ofInt 16 (num.quant16 a)

@[simp] theorem quantCodes_length (num : Num) (w : List Amp) : (quantCodes num w).length = w.length :=
  List.length_map _

/-- A value of `QUANT16` within 16 bits is kept by its code. -/
theorem quantCodes_getElem?_toInt {num : Num} {w : List Amp} {n : Nat} {a : Amp} (ha : w[n]? = some a)
    (hlo : -32768 ≤ num.quant16 a) (hhi : num.quant16 a ≤ 32767) :
    (quantCodes num w)[n]?.map BitVec.toInt = some (num.quant16 a) := by
  have hcode : (BitVec.ofInt 16 (num.quant16 a)).toInt = num.quant16 a :=
    BitVec.toInt_ofInt_eq_self (by omega) (by omega) (by omega)
  rw [quantCodes, List.getElem?_map, ha, Option.map_some, Option.map_some, hcode]

theorem exec_pcmQuant_of_fits {s : State} (h : fits s.par.pcmCap s.wav.length = true) :
    exec .pcmQuant s = .next { s with
      pcm := .i16 (quantCodes (numOf s.par.numerics) s.wav), pcmFmt := 0, pcmRate := s.wavRate
      status := ⟨false, false, false, 0⟩, res0 := 0 } :=
  if_pos h

theorem exec_pcmQuant_of_not_fits {s : State} (h : fits s.par.pcmCap s.wav.length = false) :
    exec .pcmQuant s = .next { s with status := ⟨false, false, false, 5⟩, res0 := BitVec.ofNat 32 s.wav.length } :=
  if_neg (ne_true_of_eq_false h)

/-! ## The range of `QUANT16` -/

theorem numQ15_quant16_range (a : Amp) : -32768 ≤ numQ15.quant16 a ∧ numQ15.quant16 a ≤ 32767 :=
  clamp_range _

/-- `REF` clamps symmetrically and never gives the code -32768 (00_scope.md R13). -/
theorem numRef_quant16_range (a : Amp) : -32767 ≤ numRef.quant16 a ∧ numRef.quant16 a ≤ 32767 := by
  simp only [numRef, clampInt]
  split_ifs <;> omega

/-- Both computed numerics clamp, so `QUANT16` is a 16-bit code for every amplitude (00_scope.md R13, R14). -/
theorem computed_quant16_range {n : Numerics} (h : n = .q15 ∨ n = .ref) (a : Amp) :
    -32768 ≤ (numOf n).quant16 a ∧ (numOf n).quant16 a ≤ 32767 := by
  rcases h with rfl | rfl
  · exact numQ15_quant16_range a
  · exact (numRef_quant16_range a).imp_left (le_trans (by decide))

end Sys2Proof.Machine

open Sys2Proof Sys2Proof.Machine

/-- Settles O52: the command checks the format and then the room for the samples, and it reads samples of the type
that the format names as they are. -/
theorem pcmNormConvertsByFormat : Obligations.PcmNormConvertsByFormat := by
  unfold Obligations.PcmNormConvertsByFormat
  refine fun s => ⟨exec_pcmNorm_of_reserved, exec_pcmNorm_of_not_fits, fun hfits => ⟨?_, ?_, ?_⟩⟩
  · intro cs hfmt hpcm
    rw [exec_pcmNorm_of_fits (by simp [hfmt]) hfits, readPcm_of_fmt_zero hfmt, hpcm, codes16, normalise]
  · intro cs hfmt hpcm
    rw [exec_pcmNorm_of_fits (by simp [hfmt]) hfits, readPcm_of_fmt_one hfmt, hpcm, codes32, normalise]
  · intro xs hfmt hpcm
    rw [exec_pcmNorm_of_fits (by simp [hfmt]) hfits, readPcm_of_fmt_two hfmt, hpcm, reals, normalise]

/-- Settles O54: the command writes `quantCodes`, whose length and elements are known; the computed numerics clamp, and
the range within [-1, 1] is a law of every numerics. -/
theorem pcmQuantWritesSixteenBitCodes : Obligations.PcmQuantWritesSixteenBitCodes := by
  unfold Obligations.PcmQuantWritesSixteenBitCodes
  refine fun s => ⟨fun hfits => ?_, exec_pcmQuant_of_not_fits, computed_quant16_range,
    fun _ hlaws => hlaws.quant16_range⟩
  exact ⟨quantCodes (numOf s.par.numerics) s.wav, exec_pcmQuant_of_fits hfits, quantCodes_length _ _,
    fun _ _ => quantCodes_getElem?_toInt⟩

end

