-- ==== Sys2Proof/Proofs/Exceptions.lean ====
section
/-! PROOF. The faults of 60_exceptions.md: what makes the frame and the demodulator fault, and what a fault leaves. -/

namespace Sys2Proof.Machine

/-! ## How a command ends -/

/-- A command that ends has completed with no fault, or it wrote the fault and nothing else (60_exceptions.md R251). -/
theorem Ends.completed_or_faulted {i : Instr} {s t : State} (h : Ends i s t) :
    (t.status.err = 0 ∧ t.status.busy = false) ∨ ∃ f info, t = raise f info s := by
  cases h with
  | faulted f info => exact .inr ⟨f, info, rfl⟩
  | completed insuf trunc res u => exact .inl ⟨completed_err insuf trunc, completed_busy insuf trunc⟩

/-! ## The faults of the frame -/

theorem exists_utf8Enc_ok {t : List CodePoint} (h : ∀ c ∈ t, utf8EncPoint c ≠ none) : ∃ bs, utf8Enc t = .ok bs := by
  induction t with
  | nil => exact ⟨[], rfl⟩
  | cons c t ih =>
    obtain ⟨b, hb⟩ := Option.ne_none_iff_exists'.mp (h c List.mem_cons_self)
    obtain ⟨bs, hbs⟩ := ih fun d hd => h d (List.mem_cons_of_mem c hd)
    exact ⟨b ++ bs, utf8Enc_cons hb hbs⟩

/-- The first element without an encoding is the one whose index `UTF8ENC` reports (60_exceptions.md R241). -/
theorem utf8Enc_of_first_unencodable {t : List CodePoint} {i : Nat} {c : CodePoint} (hi : t[i]? = some c)
    (hc : utf8EncPoint c = none) (hfirst : ∀ j, j < i → ∀ d, t[j]? = some d → utf8EncPoint d ≠ none) :
    utf8Enc t = .error i := by
  obtain ⟨hlt, rfl⟩ := List.getElem?_eq_some_iff.mp hi
  have hbefore : ∀ d ∈ t.take i, utf8EncPoint d ≠ none := by
    intro d hd
    obtain ⟨j, hj, rfl⟩ := List.mem_take_iff_getElem.mp hd
    exact hfirst j (by omega) _ (List.getElem?_eq_getElem (by omega))
  obtain ⟨bs, hbs⟩ := exists_utf8Enc_ok hbefore
  have herror := utf8Enc_append_cons_error (t.drop (i + 1)) hc hbs
  rwa [← List.drop_eq_getElem_cons hlt, List.take_append_drop, List.length_take_of_le hlt.le] at herror

theorem frameBits_of_unencodable (cap : Option Nat) {t : List CodePoint} {i : Nat} (h : utf8Enc t = .error i) :
    frameBits cap t = .error (.encodingError, i) := by
  simp only [frameBits, h]

theorem frameBits_of_overlong (cap : Option Nat) {t : List CodePoint} {b : List Byte} (h : utf8Enc t = .ok b)
    (hlen : lenMax < b.length) : frameBits cap t = .error (.lengthFault, b.length) := by
  simp only [frameBits, h, if_pos hlen]

theorem frameBits_of_not_fits {cap : Option Nat} {t : List CodePoint} {b : List Byte} (h : utf8Enc t = .ok b)
    (hlen : b.length ≤ lenMax) (hfits : fits cap (48 + 8 * b.length) = false) :
    frameBits cap t = .error (.capacityFault, 48 + 8 * b.length) := by
  simp only [frameBits, h, if_neg hlen.not_gt, if_neg (ne_true_of_eq_false hfits)]

/-- `SERIALIZE` and `ENCODE` make the checks of the frame first, so they share its faults. -/
theorem exec_serialize_and_encode_of_frameBits_error {s : State} {f : CmdFault} {info : Nat}
    (h : frameBits s.par.bitCap s.txt = .error (f, info)) :
    exec .serialize s = .next (raise f info s) ∧ exec .encode s = .next (raise f info s) :=
  ⟨exec_serialize_of_frameBits_error h, exec_encode_of_frameBits_error h⟩

/-- The waveform of `ENCODE` is as long as the frame of the payload makes it (45_facade.md R215). -/
theorem exec_encode_of_waveform_not_fits {s : State} {b : List Byte} (henc : utf8Enc s.txt = .ok b)
    (hlen : b.length ≤ lenMax) (hbit : fits s.par.bitCap (48 + 8 * b.length) = true)
    (hwav : fits s.par.wavCap (waveLen s.cfg (48 + 8 * b.length)) = false) :
    exec .encode s = .next (raise .capacityFault (waveLen s.cfg (48 + 8 * b.length)) s) := by
  have hbits := frameBits_ok.mpr ⟨b, henc, hlen, hbit, rfl⟩
  rw [← bitsOf_frame_length] at hwav ⊢
  exact exec_encode_of_not_fits hbits hwav

/-! ## The faults of the demodulator -/

theorem demodBits_of_not_fits {par : Params} {c : ConfigRegs} {rate : Word} {w : List Amp} {spb : Nat}
    (hspb : spb = samplesPerBit par.roundTie rate.toNat c.baud.toNat) (hrate : rate ≠ 0) (hpos : spb ≠ 0)
    (hfits : fits par.bitCap (blockCount (numOf par.numerics) spb w) = false) :
    demodBits par c rate w = .error (.capacityFault, blockCount (numOf par.numerics) spb w) := by
  subst hspb
  exact (if_neg (not_or.mpr ⟨hrate, hpos⟩)).trans (if_neg (ne_true_of_eq_false hfits))

end Sys2Proof.Machine

open Sys2Proof Sys2Proof.Machine

/-- Settles O11: every command ends, in a completion or in a fault raised on the old state. -/
theorem everyCommandCompletesOrRaisesOneListedFault : Obligations.EveryCommandCompletesOrRaisesOneListedFault := by
  unfold Obligations.EveryCommandCompletesOrRaisesOneListedFault
  intro i s
  obtain ⟨t, hexec, hends⟩ := exec_ends i s
  exact ⟨t, hexec, hends.completed_or_faulted⟩

/-- Settles O24: the elements before the first offending one encode, so `UTF8ENC` fails at its index, and that is the
first check of both commands. -/
theorem unencodableTextRaisesEncodingError : Obligations.UnencodableTextRaisesEncodingError := by
  unfold Obligations.UnencodableTextRaisesEncodingError
  intro s i c hi hc hfirst
  simp only [← encPoint_none] at hc hfirst
  have hfault := frameBits_of_unencodable s.par.bitCap (utf8Enc_of_first_unencodable hi hc hfirst)
  exact exec_serialize_and_encode_of_frameBits_error hfault

/-- Settles O25: the check of the payload's length follows that of the text, in both commands. -/
theorem overlongPayloadRaisesLengthFault : Obligations.OverlongPayloadRaisesLengthFault := by
  unfold Obligations.OverlongPayloadRaisesLengthFault
  intro s b henc hlen
  exact exec_serialize_and_encode_of_frameBits_error (frameBits_of_overlong s.par.bitCap henc hlen)

/-- Settles O49: the length that did not fit is that of the frame's bits, of the waveform, of the parsed text, of the
block walk, or of the buffer that is converted. -/
theorem outputBeyondCapacityRaisesCapacityFault : Obligations.OutputBeyondCapacityRaisesCapacityFault := by
  unfold Obligations.OutputBeyondCapacityRaisesCapacityFault
  refine fun s => ⟨fun b henc hlen hbit => ?serializeEncode, fun b => exec_encode_of_waveform_not_fits,
    exec_synthesize_of_not_fits, exec_deserialize_of_not_fits rfl,
    fun spb hspb hrate hpos hbit => ?demodulateDecode, fun bits => exec_decode_of_not_fits,
    exec_pcmNorm_of_not_fits, exec_pcmQuant_of_not_fits⟩
  case serializeEncode =>
    exact exec_serialize_and_encode_of_frameBits_error (frameBits_of_not_fits henc hlen hbit)
  case demodulateDecode =>
    have hfault := demodBits_of_not_fits hspb hrate hpos hbit
    exact ⟨exec_demodulate_of_demodBits_error hfault, exec_decode_of_demodBits_error hfault⟩

end

