-- ==== Sys2Proof/Proofs/Decoding.lean ====
section
/-! PROOF. The decoder and the encoder of 30_encoding.md as inverses of each other. -/

namespace Sys2Proof.Machine

/-! ## What a format accepts, and as what -/

theorem formatN_eq_ok {d : Descriptor} {i j : Instr} (h : formatN d i = .ok j) : j = i ∧ d = ⟨d.w0, 0, 0, 0, 0⟩ := by
  obtain ⟨w0, a0, a1, a2, a3⟩ := d
  unfold formatN at h
  split_ifs at h with hzero
  obtain ⟨h0, h1, h2, h3⟩ := hzero
  cases h
  exact ⟨rfl, by simp_all⟩

theorem formatV_eq_ok {d : Descriptor} {i : Word → Instr} {j : Instr} (h : formatV d i = .ok j) :
    j = i d.a0 ∧ d = ⟨d.w0, d.a0, 0, 0, 0⟩ := by
  obtain ⟨w0, a0, a1, a2, a3⟩ := d
  unfold formatV at h
  split_ifs at h with hzero
  obtain ⟨h1, h2, h3⟩ := hzero
  cases h
  exact ⟨rfl, by simp_all⟩

theorem formatSelector_eq_ok {d : Descriptor} {j : Instr} (h : formatSelector d = .ok j) :
    d.a0.toNat ≤ maxSelector ∧ j = .cfgGet d.a0 ∧ d = ⟨d.w0, d.a0, 0, 0, 0⟩ := by
  unfold formatSelector at h
  split_ifs at h with hsel
  exact ⟨hsel, formatV_eq_ok h⟩

/-! ## Both directions -/

/-- What a row of the opcode map gives is well-formed and encodes to the descriptor, if `W0` is the row's code. -/
theorem encode_of_decodeOpcode {opc : Nat} {d : Descriptor} {i : Instr} (hw0 : d.w0 = BitVec.ofNat 32 opc)
    (h : decodeOpcode opc d = .ok i) : i.wf = true ∧ encode i = d := by
  unfold decodeOpcode at h
  split at h
  case h_1 | h_2 | h_3 | h_4 => -- the four setters
    obtain ⟨rfl, hd⟩ := formatV_eq_ok h
    exact ⟨rfl, by rw [hd, hw0]; rfl⟩
  case h_6 => -- CFG.GET
    obtain ⟨hsel, rfl, hd⟩ := formatSelector_eq_ok h
    exact ⟨decide_eq_true hsel, by rw [hd, hw0]; rfl⟩
  case h_10 => -- SCORE
    cases h
    exact ⟨rfl, by rw [encode]; exact congrArg (Descriptor.mk · d.a0 d.a1 d.a2 d.a3) hw0.symm⟩
  case h_16 => cases h -- no row has this code
  all_goals -- the nine commands without operands
    obtain ⟨rfl, hd⟩ := formatN_eq_ok h
    exact ⟨rfl, by rw [hd, hw0]; rfl⟩

/-- A word with no reserved bit set is its operation code. -/
theorem word_eq_opcode {w : Word} (h : w.extractLsb' 8 24 = 0) : w = BitVec.ofNat 32 (w.extractLsb' 0 8).toNat := by
  have hhigh : w.toNat / 2 ^ 8 % 2 ^ 24 = 0 := by
    simpa [BitVec.extractLsb'_toNat, Nat.shiftRight_eq_div_pow] using congrArg BitVec.toNat h
  apply BitVec.eq_of_toNat_eq
  simp only [BitVec.extractLsb'_toNat, Nat.shiftRight_zero, BitVec.toNat_ofNat]
  omega

theorem encode_of_decode {d : Descriptor} {i : Instr} (h : decode d = .ok i) : i.wf = true ∧ encode i = d := by
  unfold decode at h
  split_ifs at h with hreserved
  exact encode_of_decodeOpcode (word_eq_opcode (not_not.mp hreserved)) h

theorem decode_encode {i : Instr} (h : i.wf = true) : decode (encode i) = .ok i := by
  cases i with
  | setSr v => exact Laws.RoundTrip.setSr v h
  | setBaud v => exact Laws.RoundTrip.setBaud v h
  | setFmark v => exact Laws.RoundTrip.setFmark v h
  | setFspace v => exact Laws.RoundTrip.setFspace v h
  | cfgReset => exact Laws.RoundTrip.cfgReset h
  | cfgGet sel => exact Laws.RoundTrip.cfgGet sel h
  | serialize => exact Laws.RoundTrip.serialize h
  | deserialize => exact Laws.RoundTrip.deserialize h
  | synthesize => exact Laws.RoundTrip.synthesize h
  | score off len freq rate => exact Laws.RoundTrip.score off len freq rate h
  | demodulate => exact Laws.RoundTrip.demodulate h
  | encode => exact Laws.RoundTrip.encode h
  | decode => exact Laws.RoundTrip.decode h
  | pcmNorm => exact Laws.RoundTrip.pcmNorm h
  | pcmQuant => exact Laws.RoundTrip.pcmQuant h

theorem decode_ne_ok_of_error {d : Descriptor} {e : DecodeError} (h : decode d = .error e) (i : Instr) :
    decode d ≠ .ok i := by
  rw [h]; exact nofun

theorem decode_of_decodeTableWord {nbits w : Nat} {i : Instr} (h : decodeTableWord nbits w = some i) :
    decode (descriptorOfBits nbits w) = .ok i := by
  unfold decodeTableWord at h
  split at h
  · next hdecode => rw [hdecode, Option.some.inj h]
  · cases h

end Sys2Proof.Machine

open Sys2Proof Sys2Proof.Machine

/-- Settles O1: row by row, what the decoder accepts is the encoding of what it answers; the converse is the round trip
of each command. -/
theorem decodeAndEncodeAgree : Obligations.DecodeAndEncodeAgree := by
  unfold Obligations.DecodeAndEncodeAgree
  intro d i
  constructor
  · exact encode_of_decode
  · rintro ⟨hwf, rfl⟩
    exact decode_encode hwf

/-- Settles O3: the nine legal descriptors are encodings, and the three others are decoder errors. -/
theorem specifiedWordsDecode : Obligations.SpecifiedWordsDecode := by
  unfold Obligations.SpecifiedWordsDecode
  exact ⟨decode_encode (i := .setBaud 600) rfl, decode_encode (i := .setSr 44100) rfl,
    decode_encode (i := .cfgGet 4) rfl, decode_encode (i := .serialize) rfl, decode_encode (i := .synthesize) rfl,
    decode_encode (i := .score 800 27 1270 8000) rfl, decode_encode (i := .demodulate) rfl,
    decode_encode (i := .decode) rfl, decode_encode (i := .pcmNorm) rfl,
    decode_ne_ok_of_error (e := .unusedOperand) rfl, decode_ne_ok_of_error (e := .reservedBits) rfl,
    decode_ne_ok_of_error (e := .selectorAboveFour) rfl⟩

/-- Settles O4: the port runs the decoded command, and `withFetchWord` puts the word's descriptor at the port of a block
that is not busy. -/
theorem stepRunsTheDecodedCommand : Obligations.StepRunsTheDecodedCommand := by
  unfold Obligations.StepRunsTheDecodedCommand
  constructor
  · intro s d rest i hinputs hidle hdecode
    rw [step_command hinputs hidle, runDescriptor_of_decode_ok hdecode]
  · intro s nbits w i hword
    rw [step_command (s := s.withFetchWord nbits w) rfl rfl,
      runDescriptor_of_decode_ok (decode_of_decodeTableWord hword)]
    rfl

end

