-- ==== Sys2Proof/Proofs/Commands.lean ====
section
/-! PROOF. How each command ends, said once: the fault it raises, or what it writes. From it follow the table of faults
of 60_exceptions.md R240, the soft outcomes and the idempotence of 20_memory.md R59. -/

namespace Sys2Proof.Machine

/-! ## How each command ends -/

/-- The table of 60_exceptions.md R240: the commands that can raise a fault. -/
def CanRaise (i : Instr) : CmdFault → Prop
  | .encodingError => i = .serialize ∨ i = .encode
  | .lengthFault => i = .serialize ∨ i = .encode
  | .configFault => (∃ v, i = .setSr v) ∨ (∃ v, i = .setBaud v) ∨ i = .demodulate ∨ i = .decode ∨
      ∃ off len freq, i = .score off len freq 0
  | .rangeFault => ∃ off len freq rate, i = .score off len freq rate
  | .capacityFault => i = .serialize ∨ i = .deserialize ∨ i = .synthesize ∨ i = .demodulate ∨ i = .encode ∨
      i = .decode ∨ i = .pcmNorm ∨ i = .pcmQuant
  | .illegalCommand => i = .pcmNorm ∨ ∃ sel, i = .cfgGet sel ∧ 4 < sel.toNat

/-- The state that a command leaves when it completes on `s`, with what was checked before. -/
inductive Completed (s : State) : Instr → State → Prop where
  | setSr (v : Word) (h : setCheck s.par.roundTie v.toNat s.cfg.baud.toNat = true) :
      Completed s (.setSr v) (complete false false 0 { s with cfg := { s.cfg with sr := v }.recompute s.par.roundTie })
  | setBaud (v : Word) (h : setCheck s.par.roundTie s.cfg.sr.toNat v.toNat = true) :
      Completed s (.setBaud v)
        (complete false false 0 { s with cfg := { s.cfg with baud := v }.recompute s.par.roundTie })
  | setFmark (v : Word) :
      Completed s (.setFmark v)
        (complete false false 0 { s with cfg := { s.cfg with fmark := v }.recompute s.par.roundTie })
  | setFspace (v : Word) :
      Completed s (.setFspace v) (complete false false 0 { s with cfg := { s.cfg with fspace := v } })
  | cfgReset : Completed s .cfgReset (complete false false 0 { s with cfg := ConfigRegs.default })
  | cfgGet (sel v : Word) (h : s.cfg.select sel.toNat = some v) :
      Completed s (.cfgGet sel) (complete false false v s)
  | serialize (bits : List Bool) (h : frameBits s.par.bitCap s.txt = .ok bits) :
      Completed s .serialize (complete false false 0 (s.writeBit bits))
  | deserialize (p : Parsed) (h : parseFrame s.par.utf8Err s.bit = p)
      (hfits : fits s.par.txtCap p.text.length = true) :
      Completed s .deserialize (complete p.insuf p.trunc 0 (s.writeTxt p.text))
  | synthesize (hfits : fits s.par.wavCap (waveLen s.cfg s.bit.length) = true) :
      Completed s .synthesize
        (complete false false 0 (s.writeWav (waveform (numOf s.par.numerics) s.cfg s.bit) s.cfg.sr))
  | score (off len freq rate : Word) (hrate : rate ≠ 0) (hinside : off.toNat + len.toNat ≤ s.wav.length) :
      Completed s (.score off len freq rate) (complete false false 0 { s with
        power := power (numOf s.par.numerics) (slice s.wav off.toNat len.toNat) freq.toNat rate.toNat })
  | demodulate (bits : List Bool) (h : demodBits s.par s.cfg s.wavRate s.wav = .ok bits) :
      Completed s .demodulate (complete false false 0 (s.writeBit bits))
  | encode (bits : List Bool) (h : frameBits s.par.bitCap s.txt = .ok bits)
      (hfits : fits s.par.wavCap (waveLen s.cfg bits.length) = true) :
      Completed s .encode (complete false false 0
        ((s.writeBit bits).writeWav (waveform (numOf s.par.numerics) s.cfg bits) s.cfg.sr))
  | decode (bits : List Bool) (p : Parsed) (h : demodBits s.par s.cfg s.wavRate s.wav = .ok bits)
      (hp : parseFrame s.par.utf8Err bits = p) (hfits : fits s.par.txtCap p.text.length = true) :
      Completed s .decode (complete p.insuf p.trunc 0 ((s.writeBit bits).writeTxt p.text))
  | pcmNorm (hfmt : s.pcmFmt ≠ 3) (hfits : fits s.par.wavCap s.pcm.length = true) :
      Completed s .pcmNorm
        (complete false false 0 (s.writeWav (normalise (numOf s.par.numerics) s.readPcm) s.pcmRate))
  | pcmQuant (hfits : fits s.par.pcmCap s.wav.length = true) :
      Completed s .pcmQuant
        (complete false false 0 (s.writePcm (.i16 (quantCodes (numOf s.par.numerics) s.wav)) 0 s.wavRate))

/-- A command that ends has completed, or it raised a fault that is listed for it. -/
inductive EndsAs (i : Instr) (s : State) : State → Prop where
  | faulted (f : CmdFault) (info : Nat) (listed : CanRaise i f) : EndsAs i s (raise f info s)
  | completed (t : State) (h : Completed s i t) : EndsAs i s t

theorem canRaise_serialize_encode_of_frameBits_error {cap : Option Nat} {t : List CodePoint} {f : CmdFault} {info : Nat}
    (h : frameBits cap t = .error (f, info)) : CanRaise .serialize f ∧ CanRaise .encode f := by
  unfold frameBits at h
  split at h
  · cases h; simp [CanRaise]
  · split_ifs at h <;> cases h <;> simp [CanRaise]

theorem canRaise_demodulate_decode_of_demodBits_error {par : Params} {c : ConfigRegs} {rate : Word} {w : List Amp}
    {f : CmdFault} {info : Nat} (h : demodBits par c rate w = .error (f, info)) :
    CanRaise .demodulate f ∧ CanRaise .decode f := by
  unfold demodBits at h
  simp only at h
  split_ifs at h <;> cases h <;> simp [CanRaise]

theorem four_lt_of_select_eq_none {c : ConfigRegs} {sel : Nat} (h : c.select sel = none) : 4 < sel := by
  by_contra hle
  interval_cases sel <;> cases h

/-- Every command, on every state, by its own checks. -/
theorem exec_endsAs (i : Instr) (s : State) : ∃ t, exec i s = .next t ∧ EndsAs i s t := by
  cases i with
  | setSr v =>
    by_cases h : setCheck s.par.roundTie v.toNat s.cfg.baud.toNat = true
    · exact ⟨_, exec_setSr_of_setCheck h, .completed _ (.setSr v h)⟩
    · exact ⟨_, exec_setSr_of_not_setCheck h, .faulted _ _ (by simp [CanRaise])⟩
  | setBaud v =>
    by_cases h : setCheck s.par.roundTie s.cfg.sr.toNat v.toNat = true
    · exact ⟨_, exec_setBaud_of_setCheck h, .completed _ (.setBaud v h)⟩
    · exact ⟨_, exec_setBaud_of_not_setCheck h, .faulted _ _ (by simp [CanRaise])⟩
  | setFmark v => exact ⟨_, rfl, .completed _ (.setFmark v)⟩
  | setFspace v => exact ⟨_, rfl, .completed _ (.setFspace v)⟩
  | cfgReset => exact ⟨_, rfl, .completed _ .cfgReset⟩
  | cfgGet sel =>
    cases h : s.cfg.select sel.toNat with
    | some v => exact ⟨_, exec_cfgGet_of_select_some h, .completed _ (.cfgGet sel v h)⟩
    | none =>
      exact ⟨_, exec_cfgGet_of_select_none h, .faulted _ _ (.inr ⟨sel, rfl, four_lt_of_select_eq_none h⟩)⟩
  | serialize =>
    cases h : frameBits s.par.bitCap s.txt with
    | ok bits => exact ⟨_, exec_serialize_of_frameBits_ok h, .completed _ (.serialize bits h)⟩
    | error fault =>
      exact ⟨_, exec_serialize_of_frameBits_error h,
        .faulted _ _ (canRaise_serialize_encode_of_frameBits_error h).1⟩
  | deserialize =>
    cases h : fits s.par.txtCap (parseFrame s.par.utf8Err s.bit).text.length with
    | true => exact ⟨_, exec_deserialize_of_fits rfl h, .completed _ (.deserialize _ rfl h)⟩
    | false => exact ⟨_, exec_deserialize_of_not_fits rfl h, .faulted .capacityFault _ (by simp [CanRaise])⟩
  | synthesize =>
    cases h : fits s.par.wavCap (waveLen s.cfg s.bit.length) with
    | true => exact ⟨_, exec_synthesize_of_fits h, .completed _ (.synthesize h)⟩
    | false => exact ⟨_, exec_synthesize_of_not_fits h, .faulted .capacityFault _ (by simp [CanRaise])⟩
  | score off len freq rate =>
    by_cases hrate : rate = 0
    · subst hrate
      exact ⟨_, exec_score_of_rate_zero off len freq s, .faulted .configFault 0 (by simp [CanRaise])⟩
    · rcases Nat.lt_or_ge s.wav.length (off.toNat + len.toNat) with hout | hinside
      · refine ⟨raise .rangeFault off.toNat s, ?_, .faulted _ _ ⟨off, len, freq, rate, rfl⟩⟩
        rw [raise_rangeFault]
        exact exec_score_of_length_lt freq hrate hout
      · exact ⟨_, exec_score_of_le_length freq hrate hinside, .completed _ (.score off len freq rate hrate hinside)⟩
  | demodulate =>
    cases h : demodBits s.par s.cfg s.wavRate s.wav with
    | ok bits => exact ⟨_, exec_demodulate_of_demodBits_ok h, .completed _ (.demodulate bits h)⟩
    | error fault =>
      exact ⟨_, exec_demodulate_of_demodBits_error h,
        .faulted _ _ (canRaise_demodulate_decode_of_demodBits_error h).1⟩
  | encode =>
    cases h : frameBits s.par.bitCap s.txt with
    | ok bits =>
      cases hfits : fits s.par.wavCap (waveLen s.cfg bits.length) with
      | true => exact ⟨_, exec_encode_of_fits h hfits, .completed _ (.encode bits h hfits)⟩
      | false => exact ⟨_, exec_encode_of_not_fits h hfits, .faulted _ _ (by simp [CanRaise])⟩
    | error fault =>
      exact ⟨_, exec_encode_of_frameBits_error h, .faulted _ _ (canRaise_serialize_encode_of_frameBits_error h).2⟩
  | decode =>
    cases h : demodBits s.par s.cfg s.wavRate s.wav with
    | ok bits =>
      cases hfits : fits s.par.txtCap (parseFrame s.par.utf8Err bits).text.length with
      | true => exact ⟨_, exec_decode_of_fits h hfits, .completed _ (.decode bits _ h rfl hfits)⟩
      | false => exact ⟨_, exec_decode_of_not_fits h hfits, .faulted _ _ (by simp [CanRaise])⟩
    | error fault =>
      exact ⟨_, exec_decode_of_demodBits_error h, .faulted _ _ (canRaise_demodulate_decode_of_demodBits_error h).2⟩
  | pcmNorm =>
    by_cases hfmt : s.pcmFmt = 3
    · exact ⟨_, exec_pcmNorm_of_reserved hfmt, .faulted .illegalCommand 0x60 (.inl rfl)⟩
    · cases hfits : fits s.par.wavCap s.pcm.length with
      | true => exact ⟨_, exec_pcmNorm_of_fits hfmt hfits, .completed _ (.pcmNorm hfmt hfits)⟩
      | false => exact ⟨_, exec_pcmNorm_of_not_fits hfmt hfits, .faulted .capacityFault _ (by simp [CanRaise])⟩
  | pcmQuant =>
    cases hfits : fits s.par.pcmCap s.wav.length with
    | true => exact ⟨_, exec_pcmQuant_of_fits hfits, .completed _ (.pcmQuant hfits)⟩
    | false => exact ⟨_, exec_pcmQuant_of_not_fits hfits, .faulted .capacityFault _ (by simp [CanRaise])⟩

theorem endsAs_of_exec {i : Instr} {s t : State} (h : exec i s = .next t) : EndsAs i s t := by
  obtain ⟨u, hu, hends⟩ := exec_endsAs i s
  cases h.symm.trans hu
  exact hends

/-- Without a fault the command has completed. -/
theorem completed_of_exec {i : Instr} {s t : State} (h : exec i s = .next t) (herr : t.status.err = 0) :
    Completed s i t := by
  cases endsAs_of_exec h with
  | faulted f info => exact absurd herr (raise_err_ne_zero f info s)
  | completed _ hdone => exact hdone

theorem Completed.err_eq_zero {i : Instr} {s t : State} (h : Completed s i t) : t.status.err = 0 := by
  cases h <;> rfl

/-! ## Faults -/

theorem CmdFault.code_injective : Function.Injective CmdFault.code := by
  intro f g h
  revert h
  cases f <;> cases g <;> simp [CmdFault.code]

/-- A code in `STATUS.ERR` after a command is that of a fault listed for the command. -/
theorem EndsAs.canRaise_of_err {i : Instr} {s t : State} (h : EndsAs i s t) (f : CmdFault)
    (herr : t.status.err = f.code) : CanRaise i f := by
  cases h with
  | faulted g info listed =>
    cases CmdFault.code_injective herr
    exact listed
  | completed _ hdone => exact absurd (herr.symm.trans hdone.err_eq_zero) f.code_ne_zero

theorem EndsAs.err_le_six {i : Instr} {s t : State} (h : EndsAs i s t) : t.status.err.toNat ≤ 6 := by
  cases h with
  | faulted f info => exact f.code_le
  | completed _ hdone => rw [hdone.err_eq_zero]; decide

theorem frameOf_of_ends {i : Instr} {s t : State} (h : Ends i s t) : FrameOf i s t := by
  cases h with
  | faulted f info => exact frameOf_raise i f info s
  | completed insuf trunc res u hframe => exact frameOf_complete insuf trunc res hframe

/-! ## Soft outcomes -/

/-- `INSUF` comes with an empty exit of the parse, so with the empty text (60_exceptions.md R247). -/
theorem text_eq_nil_of_insuf {policy : Utf8Err} {bits : List Bool} {p : Parsed} (hp : parseFrame policy bits = p)
    (h : p.insuf = true) : p.text = [] := by
  subst hp
  rw [parseFrame_insuf h]; rfl

theorem Completed.txt_eq_nil_of_insuf {i : Instr} {s t : State} (h : Completed s i t)
    (hinsuf : t.status.insuf = true) : t.txt = [] := by
  cases h
  case deserialize p hp _ => exact text_eq_nil_of_insuf hp hinsuf
  case decode bits p _ hp _ => exact text_eq_nil_of_insuf hp hinsuf
  all_goals cases hinsuf

theorem Ends.flags_false_of_not_parser {i : Instr} {s t : State} (h : Ends i s t) (hi : writesTxt i = false) :
    t.status.insuf = false ∧ t.status.trunc = false := by
  cases h with
  | faulted f info => exact ⟨rfl, rfl⟩
  | completed insuf trunc res u _ _ parser => exact parser hi

theorem Ends.trunc_false_of_insuf {i : Instr} {s t : State} (h : Ends i s t) (hinsuf : t.status.insuf = true) :
    t.status.trunc = false := by
  cases h with
  | faulted f info => rfl
  | completed insuf trunc res u _ one => exact one hinsuf

theorem EndsAs.txt_eq_nil_of_insuf {i : Instr} {s t : State} (h : EndsAs i s t) (hinsuf : t.status.insuf = true) :
    t.txt = [] := by
  cases h with
  | faulted f info => cases hinsuf
  | completed _ hdone => exact hdone.txt_eq_nil_of_insuf hinsuf

theorem EndsAs.flags_false_of_fault {i : Instr} {s t : State} (h : EndsAs i s t) (herr : t.status.err ≠ 0) :
    t.status.insuf = false ∧ t.status.trunc = false := by
  cases h with
  | faulted f info => exact ⟨rfl, rfl⟩
  | completed _ hdone => exact absurd hdone.err_eq_zero herr

/-! ## Idempotence -/

/-- No command reads `STATUS` or `RES0`, and every command writes both. -/
theorem exec_of_status_res0 (i : Instr) (s : State) (st : Status) (res : Word) :
    exec i { s with status := st, res0 := res } = exec i s := by
  cases i <;> rfl

/-- What a command checks and reads it does not write, so on the state it left it does the same again. -/
theorem Completed.exec_again {i : Instr} {s t : State} (h : Completed s i t) : exec i t = .next t := by
  cases h with
  | setSr v hcheck => exact exec_setSr_of_setCheck (s := complete false false 0 _) hcheck
  | setBaud v hcheck => exact exec_setBaud_of_setCheck (s := complete false false 0 _) hcheck
  | setFmark v => rfl
  | setFspace v => rfl
  | cfgReset => rfl
  | cfgGet sel v hsel => exact exec_cfgGet_of_select_some (s := complete false false v s) hsel
  | serialize bits hbits => exact exec_serialize_of_frameBits_ok (s := complete false false 0 (s.writeBit bits)) hbits
  | deserialize p hp hfits =>
    exact exec_deserialize_of_fits (s := complete p.insuf p.trunc 0 (s.writeTxt p.text)) hp hfits
  | synthesize hfits => exact exec_synthesize_of_fits (s := complete false false 0 (s.writeWav _ _)) hfits
  | score off len freq rate hrate hinside =>
    exact exec_score_of_le_length (s := complete false false 0 { s with power := _ }) freq hrate hinside
  | demodulate bits hbits =>
    exact exec_demodulate_of_demodBits_ok (s := complete false false 0 (s.writeBit bits)) hbits
  | encode bits hbits hfits =>
    exact exec_encode_of_fits (s := complete false false 0 ((s.writeBit bits).writeWav _ _)) hbits hfits
  | decode bits p hbits hp hfits =>
    subst hp
    exact exec_decode_of_fits (s := complete _ _ 0 ((s.writeBit bits).writeTxt _)) hbits hfits
  | pcmNorm hfmt hfits => exact exec_pcmNorm_of_fits (s := complete false false 0 (s.writeWav _ _)) hfmt hfits
  | pcmQuant hfits => exact exec_pcmQuant_of_fits (s := complete false false 0 (s.writePcm _ _ _)) hfits

theorem eq_of_hostReadReg {n : Nat} {s t : State} (h : hostReadReg n s = .next t) : t = s := by
  unfold hostReadReg at h
  split at h
  · cases h; rfl
  · split_ifs at h

end Sys2Proof.Machine

open Sys2Proof Sys2Proof.Machine

/-- Settles O12: each clause is a row of the table `CanRaise`, which `exec_endsAs` finds command by command. -/
theorem eachFaultComesOnlyFromItsCommands : Obligations.EachFaultComesOnlyFromItsCommands := by
  unfold Obligations.EachFaultComesOnlyFromItsCommands
  intro i s t hexec
  have hends := endsAs_of_exec hexec
  exact ⟨hends.err_le_six, hends.canRaise_of_err .encodingError, hends.canRaise_of_err .lengthFault,
    hends.canRaise_of_err .configFault, hends.canRaise_of_err .rangeFault, hends.canRaise_of_err .capacityFault,
    hends.canRaise_of_err .illegalCommand⟩

/-- Settles O13: a fault keeps the frame, and so does completing after a write within it. -/
theorem onlyTheListedCommandsWriteEachRegister : Obligations.OnlyTheListedCommandsWriteEachRegister := by
  unfold Obligations.OnlyTheListedCommandsWriteEachRegister
  intro i s t hexec
  exact frameOf_of_ends (exec_next hexec)

/-- Settles O14: the flags are those of the parse or false, and the parse reports `INSUF` only at its empty exits. -/
theorem onlyTheParsersReportSoftOutcomes : Obligations.OnlyTheParsersReportSoftOutcomes := by
  unfold Obligations.OnlyTheParsersReportSoftOutcomes
  intro i s t hexec
  have hends := exec_next hexec
  have hendsAs := endsAs_of_exec hexec
  exact ⟨hends.flags_false_of_not_parser,
    fun hinsuf => ⟨hends.trunc_false_of_insuf hinsuf, hendsAs.txt_eq_nil_of_insuf hinsuf⟩,
    hendsAs.flags_false_of_fault⟩

/-- Settles O15: a fault changes only `STATUS` and `RES0`, which no command reads, and a completed command does not
write what it reads. -/
theorem repeatingACommandChangesNothing : Obligations.RepeatingACommandChangesNothing := by
  unfold Obligations.RepeatingACommandChangesNothing
  constructor
  · intro i s t hexec
    cases endsAs_of_exec hexec with
    | faulted f info => exact (exec_of_status_res0 i s _ _).trans hexec
    | completed _ hdone => exact hdone.exec_again
  · rintro n s t (hread | hread)
    · exact eq_of_hostReadReg hread
    · cases hread; rfl

end

