-- ==== Sys2Proof/Proofs/Invariant.lean ====
section
/-! PROOF. The invariant of the machine, write by write, command by command and move by move. -/

namespace Sys2Proof.Machine

/-! ## What one write needs -/

theorem State.Inv.complete {s : State} (h : s.Inv) {insuf trunc : Bool} (res : Word)
    (hone : insuf = true → trunc = false) : (complete insuf trunc res s).Inv :=
  ⟨h.cfg, completed_inv hone, h.power_nonneg, h.power_amp, h.wav_amp, h.txt_fits, h.bit_fits, h.wav_fits, h.pcm_fits⟩

theorem State.Inv.completeClear {s : State} (h : s.Inv) (res : Word) :
    (Machine.complete false false res s).Inv :=
  h.complete res nofun

theorem State.Inv.raise {s : State} (h : s.Inv) (f : CmdFault) (info : Nat) : (raise f info s).Inv :=
  ⟨h.cfg, faulted_inv f, h.power_nonneg, h.power_amp, h.wav_amp, h.txt_fits, h.bit_fits, h.wav_fits, h.pcm_fits⟩

theorem State.Inv.withCfg {s : State} (h : s.Inv) {c : ConfigRegs} (hc : c.Inv s.par.roundTie) :
    { s with cfg := c }.Inv :=
  ⟨hc, h.status, h.power_nonneg, h.power_amp, h.wav_amp, h.txt_fits, h.bit_fits, h.wav_fits, h.pcm_fits⟩

theorem State.Inv.withPower {s : State} (h : s.Inv) {a : Amp} (hnonneg : (numOf s.par.numerics).lt a (.rat 0) = false)
    (hamp : (numOf s.par.numerics).amp a = true) : { s with power := a }.Inv :=
  ⟨h.cfg, h.status, hnonneg, hamp, h.wav_amp, h.txt_fits, h.bit_fits, h.wav_fits, h.pcm_fits⟩

theorem State.Inv.writeTxt {s : State} (h : s.Inv) {t : List CodePoint} (ht : fits s.par.txtCap t.length = true) :
    (s.writeTxt t).Inv :=
  ⟨h.cfg, h.status, h.power_nonneg, h.power_amp, h.wav_amp, ht, h.bit_fits, h.wav_fits, h.pcm_fits⟩

theorem State.Inv.writeBit {s : State} (h : s.Inv) {b : List Bool} (hb : fits s.par.bitCap b.length = true) :
    (s.writeBit b).Inv :=
  ⟨h.cfg, h.status, h.power_nonneg, h.power_amp, h.wav_amp, h.txt_fits, hb, h.wav_fits, h.pcm_fits⟩

theorem State.Inv.writeWav {s : State} (h : s.Inv) {w : List Amp} (rate : Word)
    (hamp : ∀ x ∈ w, (numOf s.par.numerics).amp x = true) (hw : fits s.par.wavCap w.length = true) :
    (s.writeWav w rate).Inv :=
  ⟨h.cfg, h.status, h.power_nonneg, h.power_amp, hamp, h.txt_fits, h.bit_fits, hw, h.pcm_fits⟩

theorem State.Inv.writePcm {s : State} (h : s.Inv) {p : PcmBuffer} (fmt : BitVec 2) (rate : Word)
    (hp : fits s.par.pcmCap p.length = true) : (s.writePcm p fmt rate).Inv :=
  ⟨h.cfg, h.status, h.power_nonneg, h.power_amp, h.wav_amp, h.txt_fits, h.bit_fits, h.wav_fits, hp⟩

/-- The invariant does not speak of the moves to come nor of the three tags. -/
theorem State.Inv.withInputsAndTags {s : State} (h : s.Inv) (inputs : List Input) (wavRate pcmRate : Word)
    (fmt : BitVec 2) : { s with inputs, wavRate, pcmRate, pcmFmt := fmt }.Inv :=
  ⟨h.cfg, h.status, h.power_nonneg, h.power_amp, h.wav_amp, h.txt_fits, h.bit_fits, h.wav_fits, h.pcm_fits⟩

/-! ## What the commands write -/

theorem ConfigRegs.Inv.withFspace {tie : RoundTie} {c : ConfigRegs} (h : c.Inv tie) (v : Word) :
    { c with fspace := v }.Inv tie :=
  ⟨h.sr_pos, h.baud_pos, h.spb_eq, h.spb_pos⟩

theorem fits_of_frameBits_ok {cap : Option Nat} {t : List CodePoint} {bits : List Bool}
    (h : frameBits cap t = .ok bits) : fits cap bits.length = true := by
  obtain ⟨b, -, -, hfits, rfl⟩ := frameBits_ok.mp h
  rwa [bitsOf_frame_length]

theorem fits_of_demodBits_ok {par : Params} {c : ConfigRegs} {rate : Word} {w : List Amp} {bits : List Bool}
    (h : demodBits par c rate w = .ok bits) : fits par.bitCap bits.length = true := by
  obtain ⟨-, hfits, -⟩ := demodBits_ok.mp h
  rwa [length_of_demodBits_ok h]

/-- The waveform of any bits can be stored under the invariant (42_synth.md R163). -/
theorem State.Inv.amp_waveform {s : State} (h : s.Inv) (bits : List Bool) :
    ∀ x ∈ waveform (numOf s.par.numerics) s.cfg bits, (numOf s.par.numerics).amp x = true := by
  obtain ⟨val, hval⟩ := numOf_exact s.par.numerics
  exact fun x hx => Machine.amp_waveform hval hx h.cfg.sr_pos

theorem State.Inv.amp_slice {s : State} (h : s.Inv) (off len : Nat) :
    ∀ x ∈ slice s.wav off len, (numOf s.par.numerics).amp x = true :=
  fun x hx => h.wav_amp x (List.mem_of_mem_drop (List.mem_of_mem_take hx))

/-- `POWER` is an amplitude and not negative (10_state.md R27, 43_detect.md R181). -/
theorem inv_of_score {s : State} (h : s.Inv) {off len freq rate : Word} (hrate : rate ≠ 0) :
    { s with
      power := power (numOf s.par.numerics) (slice s.wav off.toNat len.toNat) freq.toNat rate.toNat }.Inv := by
  obtain ⟨val, hval⟩ := numOf_exact s.par.numerics
  refine h.withPower ?_ (amp_power hval _ (Nat.pos_of_ne_zero ((toNat_ne_zero_iff rate).mpr hrate)) (h.amp_slice _ _))
  rw [lt_false_iff hval, hval.val_rat, Rat.cast_zero]
  exact power_nonneg hval _ _ _

theorem Completed.inv {i : Instr} {s t : State} (hdone : Completed s i t) (h : s.Inv) : t.Inv := by
  obtain ⟨val, hval⟩ := numOf_exact s.par.numerics
  cases hdone with
  | setSr v hcheck => exact (h.withCfg (recompute_inv (c := { s.cfg with sr := v }) hcheck)).completeClear 0
  | setBaud v hcheck => exact (h.withCfg (recompute_inv (c := { s.cfg with baud := v }) hcheck)).completeClear 0
  | setFmark v =>
    rw [(h.cfg.withFmark v).recompute_eq]
    exact (h.withCfg (h.cfg.withFmark v)).completeClear 0
  | setFspace v => exact (h.withCfg (h.cfg.withFspace v)).completeClear 0
  | cfgReset => exact (h.withCfg (default_config_inv _)).completeClear 0
  | cfgGet sel v _ => exact h.completeClear v
  | serialize bits hbits => exact (h.writeBit (fits_of_frameBits_ok hbits)).completeClear 0
  | deserialize p hp hfits =>
    subst hp
    exact (h.writeTxt hfits).complete 0 (parseFrame_one_flag _ _)
  | synthesize hfits =>
    exact (h.writeWav _ (h.amp_waveform _) (by rwa [waveform_length])).completeClear 0
  | score off len freq rate hrate _ => exact (inv_of_score h hrate).completeClear 0
  | demodulate bits hbits => exact (h.writeBit (fits_of_demodBits_ok hbits)).completeClear 0
  | encode bits hbits hfits =>
    have hbit := h.writeBit (fits_of_frameBits_ok hbits)
    exact (hbit.writeWav _ (hbit.amp_waveform bits) (by rwa [waveform_length])).completeClear 0
  | decode bits p hbits hp hfits =>
    subst hp
    exact ((h.writeBit (fits_of_demodBits_ok hbits)).writeTxt hfits).complete 0 (parseFrame_one_flag _ _)
  | pcmNorm _ hfits =>
    exact (h.writeWav _ (fun _ => amp_normalise hval) (by rwa [normalise_length, readPcm_length])).completeClear 0
  | pcmQuant hfits => exact (h.writePcm _ _ (by rwa [PcmBuffer.length, quantCodes_length])).completeClear 0

theorem exec_inv {i : Instr} {s t : State} (hexec : exec i s = .next t) (h : s.Inv) : t.Inv := by
  cases endsAs_of_exec hexec with
  | faulted f info => exact h.raise f info
  | completed _ hdone => exact hdone.inv h

/-! ## The moves of the outside world -/

theorem runDescriptor_inv {d : Descriptor} {s t : State} (hrun : runDescriptor d s = .next t) (h : s.Inv) : t.Inv := by
  unfold runDescriptor at hrun
  split at hrun
  · exact exec_inv hrun h
  · cases hrun
    exact h.raise .illegalCommand d.w0.toNat

/-- The state after a reset, with any parameters and any moves to come (10_state.md R32). -/
theorem reset_inv (par : Params) (inputs : List Input) : { State.reset with par, inputs }.Inv := by
  obtain ⟨val, hval⟩ := numOf_exact par.numerics
  exact ⟨default_config_inv _, completed_inv nofun, lt_irrefl hval _, hval.amp_zero, nofun,
    fits_zero _, fits_zero _, fits_zero _, fits_zero _⟩

theorem hostMove_inv {m : Input} {s t : State} (hmove : hostMove m s = .next t) (h : s.Inv) : t.Inv := by
  rcases hostMove_next hmove with ⟨d, -, hrun⟩ | rfl | rfl | ⟨v, rfl⟩ | ⟨v, rfl⟩ | ⟨v, rfl⟩ | ⟨x, rfl, hfits⟩ |
    ⟨x, rfl, hfits⟩ | ⟨x, rfl, hfits, hamp⟩ | ⟨x, rfl, hfits⟩
  · exact runDescriptor_inv hrun h
  · exact h
  · exact reset_inv s.par s.inputs
  · exact h.withInputsAndTags s.inputs v s.pcmRate s.pcmFmt
  · exact h.withInputsAndTags s.inputs s.wavRate v s.pcmFmt
  · exact h.withInputsAndTags s.inputs s.wavRate s.pcmRate v
  · exact h.writeTxt hfits
  · exact h.writeBit hfits
  · exact h.writeWav s.wavRate hamp hfits
  · exact h.writePcm s.pcmFmt s.pcmRate hfits

/-- A step that answers a next state was idle or carried out the first move. -/
theorem step_next {s t : State} (h : step s = .next t) :
    t = s ∨ ∃ m rest, s.inputs = m :: rest ∧ hostMove m { s with inputs := rest } = .next t := by
  unfold step at h
  split at h
  · cases h; exact .inl rfl
  · next rest hinputs => exact .inr ⟨_, rest, hinputs, h⟩
  · next m rest _ hinputs =>
    split_ifs at h
    exact .inr ⟨m, rest, hinputs, h⟩

end Sys2Proof.Machine

open Sys2Proof Sys2Proof.Machine

/-- Settles O9: a step is idle or one move, a move is a command, a reset or one write, and each of these keeps the
invariant. -/
theorem stepKeepsTheInvariant : Obligations.StepKeepsTheInvariant := by
  unfold Obligations.StepKeepsTheInvariant
  intro s t hinv hstep
  rcases step_next hstep with rfl | ⟨m, rest, -, hmove⟩
  · exact hinv
  · exact hostMove_inv hmove (hinv.withInputsAndTags rest s.wavRate s.pcmRate s.pcmFmt)

/-- Settles O10: the default configuration has its samples-per-bit, the power is zero and the buffers are empty. -/
theorem resetMeetsTheInvariant : Obligations.ResetMeetsTheInvariant := by
  unfold Obligations.ResetMeetsTheInvariant
  exact fun par => reset_inv par []

end

