-- ==== Sys2Proof/Proofs/HostMoves.lean ====
section
/-! PROOF. The host's moves besides commands, and the registers it reads (10_state.md R25, R33; 20_memory.md R60). -/

namespace Sys2Proof.Machine

/-! ## Writes, reads and loads -/

theorem step_move {s : State} {m : Input} {rest : List Input} (h : s.inputs = m :: rest)
    (hidle : s.status.busy = false) : step s = hostMove m { s with inputs := rest } := by
  unfold step
  rw [h]
  cases m <;> simp [hidle]

theorem hostWriteReg_pcmFmt (v : BitVec 2) (s : State) :
    hostWriteReg 10 (v.setWidth 32) s = .next { s with pcmFmt := v } := by
  have hvalue : (v.setWidth 32).toNat < 4 := by rw [BitVec.toNat_setWidth_of_le (by decide)]; exact v.isLt
  have hback : (v.setWidth 32).setWidth 2 = v := BitVec.setWidth_setWidth_of_le v (by decide)
  exact (if_pos hvalue).trans (by rw [hback])

theorem hostWriteReg_too_wide {v : Word} (h : 4 ≤ v.toNat) (s : State) :
    hostWriteReg 10 v s = .refused (.valueTooWide 10) :=
  if_neg h.not_gt

/-- The register numbers that are no tag (20_memory.md R60). -/
theorem hostWriteReg_no_tag {n : Nat} (h8 : n ≠ 8) (h9 : n ≠ 9) (h10 : n ≠ 10) (v : Word) (s : State) :
    hostWriteReg n v s = if n < 16 then .refused (.registerAccessDenied n) else .fault (.noSuchRegister n) := by
  unfold hostWriteReg
  split
  case h_4 => rfl
  all_goals contradiction

theorem readRegister_eq_none {n : Nat} (h : 15 ≤ n) (s : State) : s.readRegister n = none := by
  unfold State.readRegister
  split
  case h_16 => rfl
  all_goals omega

theorem exists_readRegister {n : Nat} (h : n ≤ 14) (s : State) : ∃ v, s.readRegister n = some v := by
  interval_cases n <;> exact ⟨_, rfl⟩

theorem hostReadReg_readable {n : Nat} (h : n ≤ 14) (s : State) : hostReadReg n s = .next s := by
  obtain ⟨v, hv⟩ := exists_readRegister h s
  simp only [hostReadReg, hv]

theorem hostReadReg_unreadable {n : Nat} (h : 15 ≤ n) (s : State) :
    hostReadReg n s = if n < 16 then .refused (.registerAccessDenied n) else .fault (.noSuchRegister n) := by
  simp only [hostReadReg, readRegister_eq_none h]

theorem hostLoad_of_fits {cap : Option Nat} {n : Nat} (h : fits cap n = true) (s : State) :
    hostLoad cap n s = .next s :=
  if_pos h

theorem hostLoad_of_not_fits {cap : Option Nat} {n : Nat} (h : fits cap n = false) (s : State) :
    hostLoad cap n s = .refused .loadOverCapacity :=
  if_neg (ne_true_of_eq_false h)

theorem hostMove_loadWav_of_amp {s : State} {w : List Amp} (h : ∀ x ∈ w, (numOf s.par.numerics).amp x = true) :
    hostMove (.loadWav w) s = hostLoad s.par.wavCap w.length (s.writeWav w s.wavRate) :=
  if_pos (List.all_eq_true.mpr h)

theorem hostMove_loadWav_of_not_amp {s : State} {w : List Amp} {x : Amp} (hx : x ∈ w)
    (h : (numOf s.par.numerics).amp x = false) : hostMove (.loadWav w) s = .refused .noSuchAmplitude :=
  if_neg fun hall => ne_true_of_eq_false h (List.all_eq_true.mp hall x hx)

/-! ## `STATUS` -/

/-- Two bits, bit 3, the four bits of `ERR` and the rest, from the sum that makes the word: all 128 values. -/
theorem statusWord_bits : ∀ (busy insuf trunc : Bool) (err : BitVec 4),
    let w := (Status.mk busy insuf trunc err).word
    w.getLsbD 0 = busy ∧ w.getLsbD 1 = insuf ∧ w.getLsbD 2 = trunc ∧ w.getLsbD 3 = false ∧
      w.extractLsb' 4 4 = err ∧ w.extractLsb' 8 24 = 0 := by
  decide

end Sys2Proof.Machine

open Sys2Proof Sys2Proof.Machine

/-- Settles O5: each move by itself, on the state without it. -/
theorem hostMovesChangeOnlyWhatTheyWrite : Obligations.HostMovesChangeOnlyWhatTheyWrite := by
  unfold Obligations.HostMovesChangeOnlyWhatTheyWrite
  refine fun s m rest hidle => ⟨step_idle, fun hinputs => ?_⟩
  rw [step_move hinputs hidle]
  refine ⟨?writeWavRate, ?writePcmRate, ?writePcmFmt, ?writeTooWide, ?writeDenied, ?writeNoRegister, ?read,
    ?readCmd, ?readNoRegister, ?readBuffers, ?loadTxt, ?loadBit, ?loadWav, ?loadPcm, ?noSuchAmplitude,
    ?txtOver, ?bitOver, ?wavOver, ?pcmOver⟩
  case writeWavRate => rintro v rfl; rfl
  case writePcmRate => rintro v rfl; rfl
  case writePcmFmt => rintro v rfl; exact hostWriteReg_pcmFmt v _
  case writeTooWide => rintro v hwide rfl; exact hostWriteReg_too_wide hwide _
  case writeDenied =>
    rintro n v hn h8 h9 h10 rfl
    exact (hostWriteReg_no_tag h8 h9 h10 v _).trans (if_pos hn)
  case writeNoRegister =>
    rintro n v hn rfl
    exact (hostWriteReg_no_tag (by omega) (by omega) (by omega) v _).trans (if_neg hn.not_gt)
  case read => rintro n hn rfl; exact hostReadReg_readable hn _
  case readCmd => rintro rfl; exact hostReadReg_unreadable le_rfl { s with inputs := rest }
  case readNoRegister =>
    rintro n hn rfl
    exact (hostReadReg_unreadable (by omega) _).trans (if_neg hn.not_gt)
  case readBuffers => rintro rfl; rfl
  case loadTxt => rintro t rfl hfits; exact hostLoad_of_fits hfits _
  case loadBit => rintro b rfl hfits; exact hostLoad_of_fits hfits _
  case loadWav =>
    rintro w rfl hamp hfits
    exact (hostMove_loadWav_of_amp (s := { s with inputs := rest }) hamp).trans (hostLoad_of_fits hfits _)
  case loadPcm => rintro p rfl hfits; exact hostLoad_of_fits hfits _
  case noSuchAmplitude => rintro w x rfl hx hamp; exact hostMove_loadWav_of_not_amp hx hamp
  case txtOver => rintro t rfl hfits; exact hostLoad_of_not_fits hfits _
  case bitOver => rintro b rfl hfits; exact hostLoad_of_not_fits hfits _
  case wavOver =>
    rintro w rfl hamp hfits
    exact (hostMove_loadWav_of_amp (s := { s with inputs := rest }) hamp).trans (hostLoad_of_not_fits hfits _)
  case pcmOver => rintro p rfl hfits; exact hostLoad_of_not_fits hfits _

/-- Settles O6: the map is read off number by number, and it ends at 14. -/
theorem registerMapNamesTheRegisters : Obligations.RegisterMapNamesTheRegisters := by
  unfold Obligations.RegisterMapNamesTheRegisters
  exact fun s => ⟨rfl, fun n hn => readRegister_eq_none hn s⟩

/-- Settles O7: the fields determine the word, and there are 128 values of them. -/
theorem statusWordHasTheFieldsInPlace : Obligations.StatusWordHasTheFieldsInPlace := by
  unfold Obligations.StatusWordHasTheFieldsInPlace
  rintro ⟨busy, insuf, trunc, err⟩
  exact statusWord_bits busy insuf trunc err

end

