-- ==== Sys2Proof/Proofs/FrameTrips.lean ====
section
/-! PROOF. The round trip of the Frame Codec and its truncation (41_frame.md R139). -/

namespace Sys2Proof.Machine

/-- The six bytes of a frame before its payload: the marker and the length `l` (41_frame.md R131). -/
def frameHeader (l : Nat) : List Byte := marker ++ [byteOf (l % 256), byteOf (l / 256)]

@[simp] theorem frameHeader_length (l : Nat) : (frameHeader l).length = 6 := rfl

theorem frame_eq_header_append (b : List Byte) : frame b = frameHeader b.length ++ b := rfl

theorem findMarker_header_append (l : Nat) (z : List Byte) : findMarker (frameHeader l ++ z) = some 0 :=
  (findMarker_eq_some_iff _ 0).mpr ⟨rfl, nofun⟩

theorem lengthField_header_append {l : Nat} (h : l ≤ 65535) (z : List Byte) :
    lengthField (frameHeader l ++ z) 0 = l := by
  have hfield : lengthField (frameHeader l ++ z) 0 = (byteOf (l % 256)).toNat + 256 * (byteOf (l / 256)).toNat := rfl
  rw [hfield, byteOf_toNat (by omega), byteOf_toNat (by omega)]
  omega

/-- The whole bytes of a cut frame that keeps its header. -/
theorem pack_take_frame (b : List Byte) {n : Nat} (h : 48 ≤ n) :
    pack ((bitsOf (frame b)).take n) = frameHeader b.length ++ b.take ((n - 48) / 8) := by
  have hbytes : n / 8 = (frameHeader b.length).length + (n - 48) / 8 := by rw [frameHeader_length]; omega
  rw [pack_take, hbytes, frame_eq_header_append, List.take_length_add_append]

/-- The parse of a cut frame that keeps its header (41_frame.md R139). -/
theorem parseFrame_take_frame (policy : Utf8Err) {b : List Byte} {n : Nat} (hlen : b.length ≤ 65535) (hlong : 48 ≤ n)
    (hcut : n < 48 + 8 * b.length) :
    parseFrame policy ((bitsOf (frame b)).take n) =
      { text := utf8Dec policy (b.take ((n - 48) / 8)), insuf := false, trunc := true } := by
  have hbits : 48 ≤ ((bitsOf (frame b)).take n).length := by
    rw [List.length_take, bitsOf_frame_length]; omega
  have hfewer : (n - 48) / 8 < b.length := by omega
  have hpack := pack_take_frame b hlong
  have hfind : findMarker (pack ((bitsOf (frame b)).take n)) = some 0 := by
    rw [hpack, findMarker_header_append]
  have havail : 0 + 6 + (n - 48) / 8 = (pack ((bitsOf (frame b)).take n)).length := by
    rw [hpack, List.length_append, frameHeader_length, List.length_take_of_le hfewer.le, Nat.zero_add]
  have hpayload : slice (frameHeader b.length ++ b.take ((n - 48) / 8)) (0 + 6) ((n - 48) / 8) =
      b.take ((n - 48) / 8) := by
    rw [slice, Nat.zero_add, ← frameHeader_length b.length, List.drop_left, List.take_take, min_self]
  rw [parseFrame_eq_payload policy hbits hfind havail, hpack, lengthField_header_append hlen,
    min_eq_right hfewer.le, hpayload, decide_eq_true hfewer]

end Sys2Proof.Machine

open Sys2Proof Sys2Proof.Machine

/-- Settles O31: `SERIALIZE` writes the frame's bits, and the parse finds that frame and decodes its payload. -/
theorem serializeThenDeserializeReturnsTheText : Obligations.SerializeThenDeserializeReturnsTheText := by
  unfold Obligations.SerializeThenDeserializeReturnsTheText
  intro s b pre tail henc hlen hbit htxt hmarker
  have hbits := frameBits_ok.mpr ⟨b, henc, hlen, hbit, rfl⟩
  refine ⟨_, exec_serialize_of_frameBits_ok hbits, rfl, fun other => ?_⟩
  have hparse := parseFrame_prefixed s.par.utf8Err hlen hmarker tail
  rw [utf8Dec_enc _ henc] at hparse
  exact exec_deserialize_of_fits (s := { s with
    bit := bitsOf pre ++ bitsOf (frame b) ++ tail, txt := other, status := _, res0 := _ }) hparse htxt

/-- Settles O32: a cut that keeps the header leaves its length field, which claims more bytes than are there. -/
theorem truncatedFrameDecodesItsWholeBytes : Obligations.TruncatedFrameDecodesItsWholeBytes := by
  unfold Obligations.TruncatedFrameDecodesItsWholeBytes
  intro s b n hlen hcut hbit hcap
  constructor
  · intro hshort
    refine exec_deserialize_of_fits (parseFrame_eq_insufficient s.par.utf8Err (.inl ?_)) (fits_zero _)
    rw [hbit, List.length_take]
    omega
  · intro hlong
    have hparse := parseFrame_take_frame s.par.utf8Err hlen hlong hcut
    rw [← hbit] at hparse
    exact exec_deserialize_of_fits hparse (by rw [hcap, fits_none])

end

