-- ==== Sys2Proof/Proofs/Robustness.lean ====
section
/-! PROOF. What the demodulator makes of ties and of silence, and what it does not read (44_demod.md R195, R198,
R200). -/

namespace Sys2Proof.Machine

/-! ## Silence -/

theorem firstLoud_silence_append {num : Num} {val : Amp → ℝ} (h : ExactNum num val) (d : Nat) (w : List Amp) :
    firstLoud num (List.replicate d (.rat 0) ++ w) = (firstLoud num w).map (· + d) := by
  rw [firstLoud, firstLoudFrom_append 0 w (quiet_zeros h d), Nat.zero_add, List.length_replicate, firstLoudFrom_shift]
  rfl

theorem startIndex_silence {num : Num} {val : Amp → ℝ} (h : ExactNum num val) (spb n : Nat) :
    startIndex num spb (List.replicate n (.rat 0)) = 0 :=
  startIndex_of_firstLoud_none spb (firstLoud_eq_none (quiet_zeros h n))

/-- Zeros in front move the start along, where it is not cut off at 0 (44_demod.md R200). -/
theorem startIndex_silence_append {num : Num} {val : Amp → ℝ} (h : ExactNum num val) {w : List Amp} {i0 spb : Nat}
    (d : Nat) (hfirst : firstLoud num w = some i0) (hquarter : spb / 4 ≤ i0) :
    startIndex num spb (List.replicate d (.rat 0) ++ w) = d + startIndex num spb w := by
  have hshifted : firstLoud num (List.replicate d (.rat 0) ++ w) = some (i0 + d) := by
    rw [firstLoud_silence_append h, hfirst, Option.map_some]
  rw [startIndex_of_firstLoud_some spb hshifted, startIndex_of_firstLoud_some spb hfirst]
  omega

theorem blockCount_silence_append {num : Num} {val : Amp → ℝ} (h : ExactNum num val) {w : List Amp} {i0 spb : Nat}
    (d : Nat) (hfirst : firstLoud num w = some i0) (hquarter : spb / 4 ≤ i0) :
    blockCount num spb (List.replicate d (.rat 0) ++ w) = blockCount num spb w := by
  rw [blockCount, startIndex_silence_append h d hfirst hquarter, List.length_append, List.length_replicate,
    Nat.add_sub_add_left, blockCount]

/-- Zeros in front change neither the number of blocks nor their samples. -/
theorem demodBits_silence_append {par : Params} {c : ConfigRegs} {rate : Word} {w : List Amp} {bits : List Bool}
    {i0 : Nat} (d : Nat) (hfirst : firstLoud (numOf par.numerics) w = some i0)
    (hquarter : samplesPerBit par.roundTie rate.toNat c.baud.toNat / 4 ≤ i0)
    (h : demodBits par c rate w = .ok bits) :
    demodBits par c rate (List.replicate d (.rat 0) ++ w) = .ok bits := by
  obtain ⟨val, hval⟩ := numOf_exact par.numerics
  obtain ⟨hcheck, hfits, rfl⟩ := demodBits_ok.mp h
  have hcount := blockCount_silence_append hval d hfirst hquarter
  refine demodBits_ok.mpr ⟨hcheck, by rwa [hcount], ?_⟩
  rw [hcount, startIndex_silence_append hval d hfirst hquarter, ← List.drop_drop,
    List.drop_left' List.length_replicate]

theorem blockCount_silence {num : Num} {val : Amp → ℝ} (h : ExactNum num val) (spb n : Nat) :
    blockCount num spb (List.replicate n (.rat 0)) = n / spb := by
  rw [blockCount, startIndex_silence h, List.length_replicate, Nat.sub_zero]

theorem demodBits_silence {par : Params} {c : ConfigRegs} {rate : Word} {n spb : Nat}
    (hspb : spb = samplesPerBit par.roundTie rate.toNat c.baud.toNat) (hrate : rate ≠ 0) (hpos : spb ≠ 0)
    (hfits : fits par.bitCap (n / spb) = true) :
    demodBits par c rate (List.replicate n (.rat 0)) = .ok (List.replicate (n / spb) false) := by
  obtain ⟨val, hval⟩ := numOf_exact par.numerics
  subst hspb
  refine demodBits_ok.mpr ⟨⟨hrate, hpos⟩, by rwa [blockCount_silence hval], ?_⟩
  rw [startIndex_silence hval, blockCount_silence hval, List.drop_zero, blockWalk_silence hval]

/-! ## Ties -/

theorem demodBits_equal_tones {par : Params} {c : ConfigRegs} {rate : Word} {w : List Amp} {spb : Nat}
    (hspb : spb = samplesPerBit par.roundTie rate.toNat c.baud.toNat) (hrate : rate ≠ 0) (hpos : spb ≠ 0)
    (htones : c.fmark = c.fspace) (hfits : fits par.bitCap (blockCount (numOf par.numerics) spb w) = true) :
    demodBits par c rate w = .ok (List.replicate (blockCount (numOf par.numerics) spb w) false) := by
  obtain ⟨val, hval⟩ := numOf_exact par.numerics
  subst hspb
  refine demodBits_ok.mpr ⟨⟨hrate, hpos⟩, hfits, (blockWalk_const_false _ _ _ fun block => ?_).symm⟩
  rw [htones]
  exact decideBit_equal_tones hval _ _ block

/-- Sine and cosine of every phase of a turn are on the unit circle. -/
def OnUnitCircle (num : Num) (val : Amp → ℝ) : Prop :=
  ∀ p q : Nat, p < q → val (num.sin p q) ^ 2 + val (num.cos p q) ^ 2 = 1

theorem onUnitCircle_of_nearReal_zero {num : Num} {val : Amp → ℝ} (h : NearReal num val 0) : OnUnitCircle num val := by
  intro p q hpq
  have hsin := sub_eq_zero.mp (abs_nonpos_iff.mp (h.sin_near p q hpq))
  have hcos := sub_eq_zero.mp (abs_nonpos_iff.mp (h.cos_near p q hpq))
  rw [hsin, hcos, Real.sin_sq_add_cos_sq]

theorem numRef_onUnitCircle : OnUnitCircle numRef (fun a => (a.toRat : ℝ)) := by
  intro p q _
  have hcircle : (refPoint p q).2 ^ 2 + (refPoint p q).1 ^ 2 = 1 := by rw [add_comm]; exact onCircle_sq _ _
  simp only [numRef, toRat_rat]
  exact_mod_cast hcircle

/-- The power of a lone sample is its square, whatever the frequency (70_reset_and_hazards.md R278). -/
theorem power_lone_of_onUnitCircle {num : Num} {val : Amp → ℝ} (h : ExactNum num val) (hcircle : OnUnitCircle num val)
    {rate : Nat} (hrate : 1 ≤ rate) (m n f : Nat) (x : Amp) :
    val (power num (List.replicate m (.rat 0) ++ x :: List.replicate n (.rat 0)) f rate) = val x ^ 2 := by
  rw [power_lone h, hcircle _ _ (Nat.mod_lt _ hrate), mul_one]

/-! ## What the decoders do not read -/

/-- The state with other values of `CFG.SR` and `CFG.SPB`. -/
def State.withRate (s : State) (sr spb : Word) : State := { s with cfg := { s.cfg with sr := sr, spb := spb } }

theorem demodBits_withRate (s : State) (sr spb : Word) :
    demodBits (s.withRate sr spb).par (s.withRate sr spb).cfg (s.withRate sr spb).wavRate (s.withRate sr spb).wav =
      demodBits s.par s.cfg s.wavRate s.wav := rfl

theorem exec_demodulate_withRate {s t : State} (sr spb : Word) (h : exec .demodulate s = .next t) :
    exec .demodulate (s.withRate sr spb) = .next (t.withRate sr spb) := by
  cases hbits : demodBits s.par s.cfg s.wavRate s.wav with
  | error fault =>
    cases h.symm.trans (exec_demodulate_of_demodBits_error hbits)
    exact exec_demodulate_of_demodBits_error ((demodBits_withRate s sr spb).trans hbits)
  | ok bits =>
    cases h.symm.trans (exec_demodulate_of_demodBits_ok hbits)
    exact exec_demodulate_of_demodBits_ok ((demodBits_withRate s sr spb).trans hbits)

theorem exec_decode_withRate {s t : State} (sr spb : Word) (h : exec .decode s = .next t) :
    exec .decode (s.withRate sr spb) = .next (t.withRate sr spb) := by
  cases hbits : demodBits s.par s.cfg s.wavRate s.wav with
  | error fault =>
    cases h.symm.trans (exec_decode_of_demodBits_error hbits)
    exact exec_decode_of_demodBits_error ((demodBits_withRate s sr spb).trans hbits)
  | ok bits =>
    cases hfits : fits s.par.txtCap (parseFrame s.par.utf8Err bits).text.length with
    | true =>
      cases h.symm.trans (exec_decode_of_fits hbits hfits)
      exact exec_decode_of_fits ((demodBits_withRate s sr spb).trans hbits) hfits
    | false =>
      cases h.symm.trans (exec_decode_of_not_fits hbits hfits)
      exact exec_decode_of_not_fits ((demodBits_withRate s sr spb).trans hbits) hfits

end Sys2Proof.Machine

open Sys2Proof Sys2Proof.Machine

/-- Settles O42: with one frequency for both tones the two powers of a block are the same amplitude. -/
theorem equalTonesDemodulateToZeros : Obligations.EqualTonesDemodulateToZeros := by
  unfold Obligations.EqualTonesDemodulateToZeros
  intro s spb hspb hrate hpos htones hfits
  exact exec_demodulate_of_demodBits_ok (demodBits_equal_tones hspb hrate hpos htones hfits)

/-- Settles O43: silence is walked from its first sample, gives zeros only, and zeros hold no marker. -/
theorem silenceDecodesToInsufficientData : Obligations.SilenceDecodesToInsufficientData := by
  unfold Obligations.SilenceDecodesToInsufficientData
  intro s n spb hwav hspb hrate hpos hfits
  have hbits := demodBits_silence hspb hrate hpos hfits
  rw [← hwav] at hbits
  have hparse := parseFrame_zeros s.par.utf8Err (n / spb)
  rw [exec_decode_of_fits hbits (by rw [hparse]; exact fits_zero _), hparse]
  rfl

/-- Settles O44: the start moves with the signal, so the blocks hold the same samples. -/
theorem leadingSilenceDoesNotChangeTheBits : Obligations.LeadingSilenceDoesNotChangeTheBits := by
  unfold Obligations.LeadingSilenceDoesNotChangeTheBits
  intro s t d i0 hfirst hquarter hexec herr
  cases completed_of_exec hexec herr with
  | demodulate bits hbits =>
    exact exec_demodulate_of_demodBits_ok (s := { s with wav := List.replicate d (.rat 0) ++ s.wav })
      (demodBits_silence_append d hfirst hquarter hbits)

/-- Settles O45: both numerics have sine and cosine on the unit circle, so both powers are the square of the sample. -/
theorem loneSampleIsATieInRef : Obligations.LoneSampleIsATieInRef := by
  unfold Obligations.LoneSampleIsATieInRef
  intro num val x m n fspace fmark rate hrate hnum
  obtain ⟨hval, hcircle⟩ : ExactNum num val ∧ OnUnitCircle num val := by
    rcases hnum with ⟨hval, hnear⟩ | ⟨rfl, rfl⟩
    · exact ⟨hval, onUnitCircle_of_nearReal_zero hnear⟩
    · exact ⟨numRef_exact, numRef_onUnitCircle⟩
  have hpower := fun f => power_lone_of_onUnitCircle hval hcircle hrate m n f x
  refine ⟨hpower, (lt_false_iff hval _ _).mpr ?_⟩
  rw [hpower, hpower]

/-- Settles O46: `demodBits` takes the baud rate and the two tones of the configuration, and no other register of it. -/
theorem decodingIgnoresTheConfiguredSampleRate : Obligations.DecodingIgnoresTheConfiguredSampleRate := by
  unfold Obligations.DecodingIgnoresTheConfiguredSampleRate
  rintro i s t sr spb (rfl | rfl) hexec
  · exact exec_demodulate_withRate sr spb hexec
  · exact exec_decode_withRate sr spb hexec

end

