-- ==== Sys2Proof/Proofs/NumLaws.lean ====
section
/-! PROOF. The laws of the computed numerics (00_scope.md R12 to R15). -/

namespace Sys2Proof.Machine

/-! ## The tables and the real functions -/

theorem sineError_scaled_le {scale : Nat} (h : scale ≤ 32767) : (scale : ℝ) * sineError ≤ 1 / 10 ^ 15 := by
  have hscale : (scale : ℝ) ≤ 32767 := by exact_mod_cast h
  have hmax : (32767 : ℝ) * sineError ≤ 1 / 10 ^ 15 := by norm_num [sineError]
  exact (mul_le_mul_of_nonneg_right hscale sineError_pos).trans hmax

theorem sinCode_near_tenPow {scale p q : Nat} (hscale : scale ≤ 32767) (h : p < q) :
    |(sinCode scale p q : ℝ) - scale * Real.sin (2 * Real.pi * p / q)| ≤ 1 / 2 + 1 / 10 ^ 15 :=
  (sinCode_near scale h).trans (by gcongr; exact sineError_scaled_le hscale)

theorem cosCode_near_tenPow {scale p q : Nat} (hscale : scale ≤ 32767) (h : p < q) :
    |(cosCode scale p q : ℝ) - scale * Real.cos (2 * Real.pi * p / q)| ≤ 1 / 2 + 1 / 10 ^ 15 :=
  (cosCode_near scale h).trans (by gcongr; exact sineError_scaled_le hscale)

/-- A code near `scale * x` is, as an amplitude, near `gain * x`, where `scale` is the code of `gain` up to 1. -/
theorem ofCode_near {c : Int} {scale gain x : ℝ} (hc : |(c : ℝ) - scale * x| ≤ 1 / 2 + 1 / 10 ^ 15)
    (hgain : |scale - 32768 * gain| ≤ 1) (hx : |x| ≤ 1) : |((ofCode c : Rat) : ℝ) - gain * x| ≤ (2 : ℝ)⁻¹ ^ 14 := by
  have hsplit : ((ofCode c : Rat) : ℝ) - gain * x = ((c - scale * x) + (scale - 32768 * gain) * x) / 32768 := by
    rw [ofCode]; push_cast; ring
  have hgainx : |(scale - 32768 * gain) * x| ≤ 1 := by
    rw [abs_mul]
    exact mul_le_one₀ hgain (abs_nonneg x) hx
  have hsum := abs_add_le ((c : ℝ) - scale * x) ((scale - 32768 * gain) * x)
  rw [hsplit, abs_div, abs_of_pos (by norm_num : (0 : ℝ) < 32768), div_le_iff₀ (by norm_num)]
  norm_num at *
  linarith

theorem numQ15_nearReal : NearReal numQ15 (fun a => (a.toRat : ℝ)) ((2 : ℝ)⁻¹ ^ 14) where
  sin_near p q h := by
    have hcode := ofCode_near (gain := 1) (sinCode_near_tenPow le_rfl h) (by norm_num) (Real.abs_sin_le_one _)
    rwa [one_mul] at hcode
  cos_near p q h := by
    have hcode := ofCode_near (gain := 1) (cosCode_near_tenPow le_rfl h) (by norm_num) (Real.abs_cos_le_one _)
    rwa [one_mul] at hcode
  tone_near p q h :=
    ofCode_near (sinCode_near_tenPow (scale := 26214) (by norm_num) h) (by norm_num) (Real.abs_sin_le_one _)

theorem numRef_nearReal : NearReal numRef (fun a => (a.toRat : ℝ)) ((2 : ℝ)⁻¹ ^ 60) where
  sin_near p q h := (refPoint_near h).2
  cos_near p q h := (refPoint_near h).1
  tone_near p q h := by
    have hsin := (refPoint_near h).2
    have hscaled : ((numRef.tone p q).toRat : ℝ) - 4 / 5 * Real.sin (2 * Real.pi * p / q) =
        4 / 5 * ((refPoint p q).2 - Real.sin (2 * Real.pi * p / q)) := by
      simp only [numRef, toRat_rat, toneAmplitude]; push_cast; ring
    rw [hscaled, abs_mul, abs_of_pos (by norm_num : (0 : ℝ) < 4 / 5)]
    linarith [abs_nonneg (((refPoint p q).2 : ℝ) - Real.sin (2 * Real.pi * p / q))]

/-! ## The laws of the hardware numerics -/

theorem abs_ofCode_le {c : Int} {n : Nat} (h : |c| ≤ n) : |((ofCode c : Rat) : ℝ)| ≤ (n : ℝ) / 32768 := by
  have hcast := (Rat.cast_le (K := ℝ)).mpr (code_abs h)
  push_cast at hcast
  exact hcast

theorem abs_ofCode_le_one {c : Int} (hlo : -32768 ≤ c) (hhi : c ≤ 32767) : |((ofCode c : Rat) : ℝ)| ≤ 1 := by
  exact_mod_cast code_le_one hlo hhi

theorem ofCode_cast_mono {c d : Int} (h : c ≤ d) : ((ofCode c : Rat) : ℝ) ≤ (ofCode d : Rat) := by
  exact_mod_cast ofCode_mono h

@[simp] theorem ofCode_zero : ofCode 0 = 0 := by rw [ofCode, Int.cast_zero, zero_div]

theorem roundHalfAway_zero : roundHalfAway 0 = 0 := by decide +kernel

theorem truncToZero_zero : truncToZero 0 = 0 := by decide +kernel

theorem numQ15_laws : NumLaws numQ15 (fun a => (a.toRat : ℝ)) where
  toExactNum := numQ15_exact
  sin_zero q hq := by simp [numQ15, sinCode_zero _ q hq]
  tone_zero q hq := by simp [numQ15, sinCode_zero _ q hq]
  cos_zero_pos q hq := by simp [numQ15, cosCode_zero _ q hq, ofCode]
  sin_le p q _ := (abs_ofCode_le (sinCode_abs_le 32767 p q)).trans (by norm_num)
  cos_le p q _ := (abs_ofCode_le (cosCode_abs_le 32767 p q)).trans (by norm_num)
  tone_le p q _ := (abs_ofCode_le (sinCode_abs_le 26214 p q)).trans (by norm_num [toneAmplitude])
  near := ⟨_, numQ15_nearReal⟩
  norm16_range c hlo hhi := abs_ofCode_le_one hlo hhi
  norm32_range c hlo hhi := abs_ofCode_le_one (by omega) (by omega)
  normF_range x _ := abs_ofCode_le_one (clamp_range _).1 (clamp_range _).2
  norm_zero := by simp [numQ15, roundHalfAway_zero, clampInt]
  norm16_mono c d _ h _ := ofCode_cast_mono h
  norm32_mono c d _ h _ := ofCode_cast_mono (Int.ediv_le_ediv (by norm_num) h)
  normF_mono x y h := by
    have hxy : x.toRat ≤ y.toRat := by exact_mod_cast h
    exact ofCode_cast_mono (clamp_mono (by norm_num) (rha_mono (by linarith)))
  quant16_range a _ := numQ15_quant16_range a
  quant16_zero := by decide +kernel
  quant16_mono a b h := by
    have hab : a.toRat ≤ b.toRat := by exact_mod_cast h
    exact clamp_mono (by norm_num) (Rat.floor_monotone (by linarith))

/-! ## The laws of the approximation of `REF` -/

/-- Phase 0 is the point `(1, 0)` exactly. -/
theorem refPoint_zero {q : Nat} (hq : 1 ≤ q) : refPoint 0 q = (1, 0) := by
  have hunit : (refUnit : Rat) / refUnit = 1 := div_self (by norm_num [refUnit])
  rw [refPoint, cosCode_zero _ q hq, sinCode_zero _ q hq, Int.cast_natCast, hunit, Int.cast_zero, zero_div]
  norm_num [onCircle]

theorem abs_code_div_le_one {c unit : Int} (hunit : 0 < unit) (hlo : -unit ≤ c) (hhi : c ≤ unit) :
    |(((c : Rat) / unit : Rat) : ℝ)| ≤ 1 := by
  have hpos : (0 : Rat) < unit := by exact_mod_cast hunit
  have hcode : |(c : Rat)| ≤ unit := by exact_mod_cast abs_le.mpr ⟨hlo, hhi⟩
  have hratio : |(c : Rat) / unit| ≤ 1 := by rwa [abs_div, abs_of_pos hpos, div_le_one hpos]
  exact_mod_cast hratio

theorem code_div_mono {c d unit : Int} (hunit : 0 < unit) (h : c ≤ d) :
    (((c : Rat) / unit : Rat) : ℝ) ≤ ((d : Rat) / unit : Rat) := by
  have hpos : (0 : Rat) < unit := by exact_mod_cast hunit
  have hratio : (c : Rat) / unit ≤ d / unit := by gcongr
  exact_mod_cast hratio

theorem abs_refPoint_le_one (p q : Nat) : |((refPoint p q).1 : ℝ)| ≤ 1 ∧ |((refPoint p q).2 : ℝ)| ≤ 1 := by
  have hpoint : |(refPoint p q).1| ≤ 1 ∧ |(refPoint p q).2| ≤ 1 := onCircle_abs_le _ _
  exact_mod_cast hpoint

theorem numRef_laws : NumLaws numRef (fun a => (a.toRat : ℝ)) where
  toExactNum := numRef_exact
  sin_zero q hq := by simp [numRef, refPoint_zero hq]
  tone_zero q hq := by simp [numRef, refPoint_zero hq]
  cos_zero_pos q hq := by simp [numRef, refPoint_zero hq]
  sin_le p q _ := (abs_refPoint_le_one p q).2
  cos_le p q _ := (abs_refPoint_le_one p q).1
  tone_le p q _ := by
    have hsin := (abs_refPoint_le_one p q).2
    simp only [numRef, toRat_rat, toneAmplitude]
    push_cast
    rw [abs_mul, abs_of_pos (by norm_num)]
    linarith
  near := ⟨_, numRef_nearReal⟩
  norm16_range c hlo hhi := abs_code_div_le_one (unit := 32768) (by norm_num) hlo (by omega)
  norm32_range c hlo hhi := abs_code_div_le_one (unit := 2147483648) (by norm_num) hlo (by omega)
  normF_range x h := h
  norm_zero := by simp [numRef]
  norm16_mono c d _ h _ := code_div_mono (unit := 32768) (by norm_num) h
  norm32_mono c d _ h _ := code_div_mono (unit := 2147483648) (by norm_num) h
  normF_mono x y h := h
  quant16_range a _ := (numRef_quant16_range a).imp_left (le_trans (by decide))
  quant16_zero := by simp [numRef, truncToZero_zero, clampInt]
  quant16_mono a b h := by
    have hab : a.toRat ≤ b.toRat := by exact_mod_cast h
    exact clamp_mono (by norm_num) (trunc_mono (by linarith))

/-- The other numerics are drawn from the lawful ones (assumption 4). -/
theorem numOf_lawful (n : Numerics) : LawfulNum (numOf n) := by
  cases n with
  | q15 => exact ⟨_, numQ15_laws⟩
  | ref => exact ⟨_, numRef_laws⟩
  | other k => exact (@Config.otherNum ⟨⟨numSilent, numSilent_lawful⟩⟩ k).2

end Sys2Proof.Machine

open Sys2Proof Sys2Proof.Machine

/-- Settles O35: the two computed numerics law by law, the others by their type. -/
theorem everyNumericsIsLawful : Obligations.EveryNumericsIsLawful := by
  unfold Obligations.EveryNumericsIsLawful
  exact ⟨numOf_lawful, numQ15_laws, numRef_laws⟩

/-- Settles O36: the codes are within one half and the error of the series of the scaled real values. -/
theorem computedSineIsNearTheRealSine : Obligations.ComputedSineIsNearTheRealSine := by
  unfold Obligations.ComputedSineIsNearTheRealSine
  refine ⟨numQ15_nearReal, numRef_nearReal, fun p q h => ?_⟩
  exact ⟨sinCode_near_tenPow le_rfl h, cosCode_near_tenPow le_rfl h,
    sinCode_near_tenPow (scale := 26214) (by norm_num) h⟩

end

