-- ==== Sys2Proof/Proofs/Samples.lean ====
section
/-! PROOF. Samples: what the commands store, how they scale in the detector, and how real numbers convert
(00_scope.md R12 to R15, 42_synth.md R165, 43_detect.md R181, 46_pcm.md R230 to R233). -/

namespace Sys2Proof.Machine

/-! ## Scaling in the detector -/

theorem map_mul_getD {num : Num} {val : Amp → ℝ} (h : ExactNum num val) (a : Amp) (seg : List Amp) (n : Nat) :
    val ((seg.map (num.mul a)).getD n (.rat 0)) = val a * val (seg.getD n (.rat 0)) := by
  simp only [List.getD_eq_getElem?_getD, List.getElem?_map]
  cases seg[n]? with
  | none => simp [h.val_rat]
  | some x => exact h.val_mul a x

/-- Scaling the samples scales either correlation sum (43_detect.md R181). -/
theorem sum_map_mul {num : Num} {val : Amp → ℝ} (h : ExactNum num val) (a : Amp) (seg : List Amp) (g : Nat → ℝ) :
    ∑ n ∈ Finset.range (seg.map (num.mul a)).length, val ((seg.map (num.mul a)).getD n (.rat 0)) * g n =
      val a * ∑ n ∈ Finset.range seg.length, val (seg.getD n (.rat 0)) * g n := by
  rw [List.length_map, Finset.mul_sum]
  refine Finset.sum_congr rfl fun n _ => ?_
  rw [map_mul_getD h, mul_assoc]

theorem power_map_mul {num : Num} {val : Amp → ℝ} (h : ExactNum num val) (a : Amp) (seg : List Amp) (f rate : Nat) :
    val (power num (seg.map (num.mul a)) f rate) = val a ^ 2 * val (power num seg f rate) := by
  rw [power_eq h, power_eq h, sum_map_mul h, sum_map_mul h]
  ring

/-! ## Synthesized samples -/

theorem abs_val_waveform_le {num : Num} {val : Amp → ℝ} (h : NumLaws num val) {c : ConfigRegs} {bits : List Bool}
    {x : Amp} (hsr : 1 ≤ c.sr.toNat) (hx : x ∈ waveform num c bits) : |val x| ≤ 4 / 5 := by
  rcases mem_waveform hx with rfl | ⟨q, hq, rfl⟩
  · rw [h.val_rat, Rat.cast_zero, abs_zero]
    norm_num
  · have htone := h.tone_le q c.sr.toNat (hq hsr)
    rw [toneAmplitude] at htone
    push_cast at htone
    exact htone

/-- A tone block begins at phase 0 (42_synth.md R164). -/
theorem waveform_getElem?_blockStart (num : Num) (c : ConfigRegs) {bits : List Bool} {i : Nat} (hi : i < bits.length)
    (hspb : 1 ≤ c.spb.toNat) :
    (waveform num c bits)[guardLen c.sr.toNat + i * c.spb.toNat]? = some (num.tone 0 c.sr.toNat) := by
  have hfirst := waveform_getElem?_tone num c (List.getElem?_eq_getElem hi) hspb
  rwa [Nat.mul_zero, Nat.zero_mod, Nat.add_zero] at hfirst

/-! ## Stored codes -/

theorem Completed.isCode_of_mem_wav {i : Instr} {s t : State} (h : Completed s i t) (hnum : s.par.numerics = .q15)
    (hi : writesWav i = true) {x : Amp} (hx : x ∈ t.wav) : IsCode x := by
  have hq15 : numOf s.par.numerics = numQ15 := by rw [hnum]; rfl
  cases h
  case synthesize | encode =>
    rw [complete_wav, writeWav_wav, hq15] at hx
    exact isCode_waveform hx
  case pcmNorm =>
    rw [complete_wav, writeWav_wav, hq15] at hx
    exact isCode_normalise hx
  all_goals cases hi

theorem map_norm16_quantCodes {w : List Amp} (h : ∀ x ∈ w, IsCode x) :
    (quantCodes numQ15 w).map (fun c => numQ15.norm16 c.toInt) = w := by
  rw [quantCodes, List.map_map]
  exact (List.map_congr_left fun x hx => quant_code (h x hx)).trans (List.map_id' w)

/-! ## The start threshold in codes -/

/-- A code over 32768 is above 1/100 from code 328 on: 327.68 is the threshold in codes (46_pcm.md R233). -/
theorem isLoud_code_iff {num : Num} (h : ExactNum num (fun a => (a.toRat : ℝ))) (c : Int) :
    isLoud num (.rat ((c : Rat) / 32768)) = true ↔ 328 ≤ |c| := by
  have habs : |(((c : Rat) / 32768 : Rat) : ℝ)| = (|c| : Int) / 32768 := by
    push_cast
    rw [abs_div, abs_of_pos (by norm_num : (0 : ℝ) < 32768)]
  rw [isLoud_iff h, toRat_rat, habs, div_lt_div_iff₀ (by norm_num) (by norm_num)]
  constructor
  · intro hlt
    have hcodes : (32768 : Int) < |c| * 100 := by exact_mod_cast (by linarith : (32768 : ℝ) < (|c| : Int) * 100)
    omega
  · intro hle
    have hcodes : (328 : ℝ) ≤ (|c| : Int) := by exact_mod_cast hle
    linarith

/-! ## Real numbers and their cells -/

/-- Two real numbers that no multiple of the cells' width separates: they are equal, or strictly inside one cell. -/
def CellMates (x y : ℝ) : Prop :=
  x = y ∨ ∃ n : Int, ((n : ℝ) < cellUnit * x ∧ cellUnit * x < n + 1) ∧ (n : ℝ) < cellUnit * y ∧ cellUnit * y < n + 1

/-- The rational that an amplitude is taken for, and a number it stands for. -/
theorem cellMates_of_stands {a : Amp} {x : ℝ} (h : a.Stands x) : CellMates a.toRat x := by
  cases a with
  | rat q => exact .inl h.symm
  | irr n k =>
    obtain ⟨-, hlo, hhi⟩ := h
    exact .inr ⟨n, toRat_irr n k, hlo, hhi⟩

theorem CellMates.neg {x y : ℝ} (h : CellMates x y) : CellMates (-x) (-y) := by
  rcases h with rfl | ⟨n, ⟨hx1, hx2⟩, hy1, hy2⟩
  · exact .inl rfl
  · refine .inr ⟨-n - 1, ⟨?_, ?_⟩, ?_, ?_⟩ <;> push_cast <;> linarith

/-- Cell mates round alike in every unit that the cells divide. -/
theorem CellMates.floor_eq {x y : ℝ} (h : CellMates x y) {d m : Nat} (hm : cellUnit = m * d) :
    ⌊d * x⌋ = ⌊d * y⌋ := by
  rcases h with rfl | ⟨n, ⟨hx1, hx2⟩, hy1, hy2⟩
  · rfl
  · rw [floor_cell hm hx1 hx2, floor_cell hm hy1 hy2]

theorem CellMates.neg_iff {x y : ℝ} (h : CellMates x y) : x < 0 ↔ y < 0 := by
  have hfloor := h.floor_eq (d := 1) (m := cellUnit) (mul_one _).symm
  have hsign : ∀ z : ℝ, z < 0 ↔ ⌊((1 : Nat) : ℝ) * z⌋ < 0 := by
    intro z
    rw [Int.floor_lt, Nat.cast_one, one_mul, Int.cast_zero]
  rw [hsign, hsign, hfloor]

theorem CellMates.scaled_neg_iff {q k : Rat} {x : ℝ} (h : CellMates q x) (hk : 0 < k) :
    ((k * q : Rat) : ℝ) < 0 ↔ x < 0 := by
  rw [← h.neg_iff, Rat.cast_lt_zero, Rat.cast_lt_zero]
  simp [mul_neg_iff, hk, hk.not_gt]

/-- Rounding to a multiple of a half is rounding in half units. -/
theorem floor_add_half (z : ℝ) : ⌊z + 1 / 2⌋ = (⌊2 * z⌋ + 1) / 2 := by
  have hhalf : z + 1 / 2 = (2 * z + 1) / (2 : Nat) := by push_cast; ring
  rw [hhalf, Int.floor_div_natCast, Int.floor_add_one]
  rfl

/-- Rounding to the nearest code is the same for cell mates (00_scope.md R14). -/
theorem CellMates.floor_code_eq {x y : ℝ} (h : CellMates x y) : ⌊32768 * x + 1 / 2⌋ = ⌊32768 * y + 1 / 2⌋ := by
  have hfloor := h.floor_eq (d := 65536) (m := 2 ^ 48 * 25 * 32767) (by decide)
  have hunit : ∀ z : ℝ, 2 * (32768 * z) = (65536 : Nat) * z := by intro z; push_cast; ring
  rw [floor_add_half, floor_add_half, hunit, hunit, hfloor]

/-- The start threshold does not separate cell mates (44_demod.md R196). -/
theorem CellMates.abs_threshold_iff {x y : ℝ} (h : CellMates x y) : 1 / 100 < |x| ↔ 1 / 100 < |y| := by
  have hm : cellUnit = 2 ^ 62 * 32767 * 100 := by decide
  have hpos := h.floor_eq hm
  have hneg := h.neg.floor_eq hm
  have hloud : ∀ z : ℝ, 1 / 100 < |z| ↔ ⌊((100 : Nat) : ℝ) * -z⌋ < -1 ∨ ⌊((100 : Nat) : ℝ) * z⌋ < -1 := by
    intro z
    rw [lt_abs, Int.floor_lt, Int.floor_lt]
    push_cast
    constructor <;> rintro (hz | hz)
    · exact .inl (by linarith)
    · exact .inr (by linarith)
    · exact .inl (by linarith)
    · exact .inr (by linarith)
  rw [hloud, hloud, hneg, hpos]

theorem CellMates.abs_sub_le {x y : ℝ} (h : CellMates x y) : |x - y| ≤ (2 : ℝ)⁻¹ ^ 64 := by
  rcases h with rfl | ⟨n, ⟨hx1, hx2⟩, hy1, hy2⟩
  · rw [sub_self, abs_zero]; positivity
  · have hunit : (2 : ℝ) ^ 64 ≤ cellUnit := by norm_num [cellUnit]
    have hcell : cellUnit * |x - y| ≤ 1 := by
      rw [← abs_of_nonneg (Nat.cast_nonneg (α := ℝ) cellUnit), ← abs_mul, mul_sub]
      exact abs_le.mpr ⟨by linarith, by linarith⟩
    rw [inv_pow, ← one_div, le_div_iff₀ (by positivity), mul_comm]
    exact (mul_le_mul_of_nonneg_right hunit (abs_nonneg _)).trans hcell

theorem exists_stands (x : ℝ) : ∃ a : Amp, a.Stands x := by
  by_cases h : Irrational x
  · exact ⟨_, floor_stands h 0⟩
  · obtain ⟨q, hq⟩ := not_not.mp h
    exact ⟨.rat q, hq.symm⟩

/-! ## The conversions of a real number -/

theorem rat_floor_eq (q : Rat) : q.floor = ⌊(q : ℝ)⌋ := (Rat.floor_cast q).symm

theorem roundHalfAway_cast (q : Rat) :
    roundHalfAway q = if (q : ℝ) < 0 then -⌊-(q : ℝ) + 1 / 2⌋ else ⌊(q : ℝ) + 1 / 2⌋ := by
  simp only [roundHalfAway, rat_floor_eq, Rat.cast_lt_zero]
  push_cast
  rfl

theorem truncToZero_cast (q : Rat) : truncToZero q = if (q : ℝ) < 0 then -⌊-(q : ℝ)⌋ else ⌊(q : ℝ)⌋ := by
  simp only [truncToZero, rat_floor_eq, Rat.cast_lt_zero]
  push_cast
  rfl

theorem clampInt_eq_max_min {lo hi : Int} (h : lo ≤ hi) (x : Int) : clampInt lo hi x = max lo (min hi x) := by
  unfold clampInt
  split_ifs <;> omega

theorem roundHalfAway_of_stands {a : Amp} {x : ℝ} (h : a.Stands x) {c : Int}
    (hnonneg : 0 ≤ x → c = ⌊32768 * x + 1 / 2⌋) (hneg : x < 0 → c = -⌊-(32768 * x) + 1 / 2⌋) :
    roundHalfAway (32768 * a.toRat) = c := by
  have hmates := cellMates_of_stands h
  have hsign := hmates.scaled_neg_iff (k := 32768) (by norm_num)
  rw [roundHalfAway_cast]
  rcases lt_or_ge x 0 with hx | hx
  · rw [if_pos (hsign.mpr hx), hneg hx]
    have hround := hmates.neg.floor_code_eq
    push_cast
    rw [← mul_neg, ← mul_neg, hround]
  · rw [if_neg (fun hlt => hx.not_gt (hsign.mp hlt)), hnonneg hx]
    have hround := hmates.floor_code_eq
    push_cast
    exact hround

theorem truncToZero_of_stands {a : Amp} {x : ℝ} (h : a.Stands x) {c : Int}
    (hnonneg : 0 ≤ x → c = ⌊32767 * x⌋) (hneg : x < 0 → c = -⌊-(32767 * x)⌋) :
    truncToZero (32767 * a.toRat) = c := by
  have hmates := cellMates_of_stands h
  have hm : cellUnit = 2 ^ 64 * 25 * 32767 := rfl
  have hsign := hmates.scaled_neg_iff (k := 32767) (by norm_num)
  rw [truncToZero_cast]
  rcases lt_or_ge x 0 with hx | hx
  · rw [if_pos (hsign.mpr hx), hneg hx]
    have hround := hmates.neg.floor_eq hm
    push_cast at hround ⊢
    rw [← mul_neg, ← mul_neg, hround]
  · rw [if_neg (fun hlt => hx.not_gt (hsign.mp hlt)), hnonneg hx]
    have hround := hmates.floor_eq hm
    push_cast at hround ⊢
    exact hround

end Sys2Proof.Machine

open Sys2Proof Sys2Proof.Machine

/-- Settles O34: a sample is 0 or a tone, and a tone block begins with the tone at phase 0. -/
theorem synthesizedSamplesStayWithinTheToneAmplitude : Obligations.SynthesizedSamplesStayWithinTheToneAmplitude := by
  unfold Obligations.SynthesizedSamplesStayWithinTheToneAmplitude
  intro s t val hlaws hinv hexec herr
  cases completed_of_exec hexec herr with
  | synthesize =>
    rw [complete_wav, writeWav_wav]
    refine ⟨fun x => abs_val_waveform_le hlaws hinv.sr_pos, fun i hi => ?_⟩
    have hfirst := waveform_getElem?_blockStart (numOf s.par.numerics) s.cfg hi hinv.spb_pos
    rw [guardLen] at hfirst
    rw [hfirst, Option.map_some, hlaws.tone_zero _ hinv.sr_pos]

/-- Settles O38: both sums scale with the samples, their squares are not negative and vanish on zeros, and the phase is
kept modulo the rate. -/
theorem powerScalesWithTheSquareOfTheAmplitude : Obligations.PowerScalesWithTheSquareOfTheAmplitude := by
  unfold Obligations.PowerScalesWithTheSquareOfTheAmplitude
  intro num val seg a f rate n hval
  exact ⟨power_map_mul hval a seg f rate, power_nonneg hval seg f rate, power_silence hval n f rate,
    (power_mod num seg f rate).symm⟩

/-- Settles O53: reading at another width gives as many elements as there are. -/
theorem pcmNormCompletesOnMixedWidths : Obligations.PcmNormCompletesOnMixedWidths := by
  unfold Obligations.PcmNormCompletesOnMixedWidths
  refine fun s hfits => ⟨fun hfmt => ⟨codes16 s.pcm, codes16_length _, ?_⟩,
    fun hfmt => ⟨codes32 s.pcm, codes32_length _, ?_⟩, fun hfmt => ⟨reals s.pcm, reals_length _, ?_⟩⟩
  · rw [exec_pcmNorm_of_fits (by simp [hfmt]) hfits, readPcm_of_fmt_zero hfmt, normalise]
  · rw [exec_pcmNorm_of_fits (by simp [hfmt]) hfits, readPcm_of_fmt_one hfmt, normalise]
  · rw [exec_pcmNorm_of_fits (by simp [hfmt]) hfits, readPcm_of_fmt_two hfmt, normalise]

/-- Settles O55: quantising a stored sample gives its code, and the code normalises to the sample. -/
theorem quantiseThenNormaliseRestoresTheWaveform : Obligations.QuantiseThenNormaliseRestoresTheWaveform := by
  unfold Obligations.QuantiseThenNormaliseRestoresTheWaveform
  intro s hnum hcodes hpcm hwav
  refine ⟨_, exec_pcmQuant_of_fits hpcm, rfl, fun other rate => ?_⟩
  rw [exec_pcmNorm_of_fits (by simp) (by simpa [PcmBuffer.length] using hwav), readPcm_of_fmt_zero rfl]
  simp only [hnum, numOf, codes16, normalise, map_norm16_quantCodes hcodes]

/-- Settles O56: what the three commands store is a waveform of tone codes or normalised elements. -/
theorem storedSamplesAreCodes : Obligations.StoredSamplesAreCodes := by
  unfold Obligations.StoredSamplesAreCodes
  intro i s t hnum hi hexec herr x hx
  exact (completed_of_exec hexec herr).isCode_of_mem_wav hnum hi hx

/-- Settles O57: both numerics normalise a 16-bit code to the code over 32768. -/
theorem startThresholdInCodes : Obligations.StartThresholdInCodes := by
  unfold Obligations.StartThresholdInCodes
  exact fun c => ⟨isLoud_code_iff numQ15_exact c, isLoud_code_iff numRef_exact c⟩

/-- Settles O58: an amplitude is taken for a rational that no rounding and no comparison separates from the number it
stands for. -/
theorem realSamplesConvertExactly : Obligations.RealSamplesConvertExactly := by
  unfold Obligations.RealSamplesConvertExactly
  refine ⟨exists_stands, fun a x hstands => ⟨fun c hnonneg hneg => ?normF, rfl, fun c hnonneg hneg => ?quant16,
    ?threshold, (cellMates_of_stands hstands).abs_sub_le⟩⟩
  case normF =>
    simp only [numQ15, roundHalfAway_of_stands hstands hnonneg hneg, ofCode]
    rw [clampInt_eq_max_min (by norm_num)]
  case quant16 =>
    simp only [numRef, truncToZero_of_stands hstands hnonneg hneg]
    exact clampInt_eq_max_min (by norm_num) c
  case threshold =>
    rw [isLoud_iff numRef_exact, (cellMates_of_stands hstands).abs_threshold_iff]

end

