-- ==== Sys2Proof/Proofs/RoundTrip.lean ====
section
/-! PROOF. `ENCODE` and then `DECODE` (45_facade.md R218): which blocks the demodulator cuts a waveform into, and the
five-block check of 70_reset_and_hazards.md R277 that decides what it makes of them. -/

namespace Sys2Proof.Machine

/-! ## The blocks of a synthesized waveform -/

/-- The first sample of a tone block is 0, so the first loud sample is the second of the first block, if that one is
loud (42_synth.md R164, 44_demod.md R196). -/
theorem firstLoud_waveform {num : Num} (hlaws : LawfulNum num) {c : ConfigRegs} {b : Bool} {bits : List Bool}
    (hsr : 1 ≤ c.sr.toNat) (hspb : 2 ≤ c.spb.toNat)
    (hloud : isLoud num (num.tone (c.toneFreq b * 1 % c.sr.toNat) c.sr.toNat) = true) :
    firstLoud num (waveform num c (b :: bits)) = some (guardLen c.sr.toNat + 1) := by
  obtain ⟨val, hval⟩ := hlaws
  have hzero : isLoud num (.rat 0) = false := quiet_zeros hval.toExactNum 1 _ (by simp)
  have htone : isLoud num (num.tone 0 c.sr.toNat) = false := by
    rw [isLoud_eq_false_iff hval.toExactNum, hval.tone_zero _ hsr, abs_zero]
    norm_num
  have hsecond := waveform_getElem?_tone num c (bits := b :: bits) (i := 0) (n := 1) rfl hspb
  have hstart := waveform_getElem?_blockStart num c (bits := b :: bits) (i := 0) (by simp) (by omega)
  rw [Nat.zero_mul, Nat.add_zero] at hsecond hstart
  refine firstLoud_eq_some hsecond hloud fun m hm y hy => ?_
  rcases Nat.lt_or_ge m (guardLen c.sr.toNat) with hguard | hguard
  · rw [waveform_getElem?_leadingGuard num c _ hguard] at hy
    cases hy
    exact hzero
  · obtain rfl : m = guardLen c.sr.toNat := by omega
    rw [hstart] at hy
    cases hy
    exact htone

/-- From `m` samples before the tone blocks on, a waveform is `m` zeros, the tone blocks and a guard band. -/
theorem waveform_drop (num : Num) (c : ConfigRegs) (bits : List Bool) {m : Nat} (hm : m ≤ guardLen c.sr.toNat) :
    (waveform num c bits).drop (guardLen c.sr.toNat - m) =
      List.replicate m (.rat 0) ++ (bits.flatMap (toneBlock num c) ++ guardBand c) := by
  have hdrop : (guardBand c).drop (guardLen c.sr.toNat - m) = List.replicate m (.rat 0) := by
    rw [guardBand, List.drop_replicate, Nat.sub_sub_self hm]
  have hlen : guardLen c.sr.toNat - m ≤ (guardBand c).length := by rw [guardBand_length]; omega
  rw [waveform, List.append_assoc, List.drop_append_of_le_length hlen, hdrop]

/-- How many blocks there are from `m` samples before the tone blocks on. -/
theorem waveLen_blocks (c : ConfigRegs) (n : Nat) {m : Nat} (hm : m ≤ guardLen c.sr.toNat) (hspb : 1 ≤ c.spb.toNat) :
    (waveLen c n - (guardLen c.sr.toNat - m)) / c.spb.toNat = n + (guardLen c.sr.toNat + m) / c.spb.toNat := by
  have hsplit : waveLen c n - (guardLen c.sr.toNat - m) = (guardLen c.sr.toNat + m) + n * c.spb.toNat := by
    unfold waveLen; omega
  rw [hsplit, Nat.add_mul_div_right _ _ hspb, Nat.add_comm]

/-- The demodulator finds a synthesized waveform a quarter of a bit period, less one sample, before its tone blocks. -/
theorem demodBits_waveform {par : Params} {c : ConfigRegs} {b : Bool} {bits : List Bool} {m : Nat}
    (hcfg : c.Inv par.roundTie) (hcap : par.bitCap = none) (hm : c.spb.toNat / 4 = m + 1)
    (hguard : m ≤ guardLen c.sr.toNat)
    (hloud : isLoud (numOf par.numerics)
      ((numOf par.numerics).tone (c.toneFreq b * 1 % c.sr.toNat) c.sr.toNat) = true) :
    demodBits par c c.sr (waveform (numOf par.numerics) c (b :: bits)) =
      .ok (blockWalk (decideBit (numOf par.numerics) c.fspace.toNat c.fmark.toNat c.sr.toNat) c.spb.toNat
        ((b :: bits).length + (guardLen c.sr.toNat + m) / c.spb.toNat)
        (List.replicate m (.rat 0) ++
          ((b :: bits).flatMap (toneBlock (numOf par.numerics) c) ++ guardBand c))) := by
  have hfirst := firstLoud_waveform (numOf_lawful par.numerics) (bits := bits) hcfg.sr_pos (by omega) hloud
  have hstart : startIndex (numOf par.numerics) c.spb.toNat (waveform (numOf par.numerics) c (b :: bits)) =
      guardLen c.sr.toNat - m := by
    rw [startIndex_of_firstLoud_some _ hfirst]; omega
  have hcount := waveLen_blocks c (b :: bits).length hguard hcfg.spb_pos
  rw [← waveform_length (numOf par.numerics), ← hstart] at hcount
  have hrate : c.sr ≠ 0 := (toNat_ne_zero_iff c.sr).mp (Nat.ne_of_gt hcfg.sr_pos)
  refine demodBits_ok.mpr ⟨⟨hrate, ?_⟩, by rw [hcap, fits_none], ?_⟩
  · rw [← hcfg.spb_eq]; exact Nat.ne_of_gt hcfg.spb_pos
  · rw [← hcfg.spb_eq, blockCount, hcount, hstart, waveform_drop _ c _ hguard]

/-- A walk over blocks that are aligned with the tone blocks decides each of these by itself. -/
theorem blockWalk_flatMap {d : List Amp → Bool} {spb : Nat} {tb : Bool → List Amp} (hlen : ∀ b, (tb b).length = spb)
    (bits : List Bool) : blockWalk d spb bits.length (bits.flatMap tb) = bits.map (fun b => d (tb b)) := by
  induction bits with
  | nil => rfl
  | cons b bits ih =>
    rw [List.flatMap_cons, List.length_cons, blockWalk, List.take_left' (hlen b), List.drop_left' (hlen b), ih,
      List.map_cons]

/-- The first bit of a frame is the first bit of the marker, a 1. -/
theorem exists_bitsOf_frame_eq_cons (b : List Byte) : ∃ bits, bitsOf (frame b) = true :: bits := ⟨_, rfl⟩

theorem exec_encode_of_unbounded {s : State} {b : List Byte} (hbitCap : s.par.bitCap = none)
    (hwavCap : s.par.wavCap = none) (henc : utf8Enc s.txt = .ok b) (hlen : b.length ≤ 65535) :
    exec .encode s = .next { s with
      bit := bitsOf (frame b), wav := waveform (numOf s.par.numerics) s.cfg (bitsOf (frame b)), wavRate := s.cfg.sr
      status := ⟨false, false, false, 0⟩, res0 := 0 } :=
  exec_encode_of_fits (frameBits_ok.mpr ⟨b, henc, hlen, by rw [hbitCap, fits_none], rfl⟩) (by rw [hwavCap, fits_none])

/-! ## The default configuration -/

/-- The decision at the default tones and 8000 Hz. -/
def decideDefault (num : Num) : List Amp → Bool := decideBit num 1070 1270 8000

/-- The second sample of a mark block at 8000 Hz. -/
theorem mark_loud {n : Numerics} (h : n = .q15 ∨ n = .ref) :
    isLoud (numOf n) ((numOf n).tone (1270 * 1 % 8000) 8000) = true := by
  rcases h with rfl | rfl <;> decide +kernel

/-- The five-block check (70_reset_and_hazards.md R277): a block of the walk, 22 samples of one tone after the last 5 of
another, is decided as the bit of its longer part. -/
theorem decideDefault_next {n : Numerics} (h : n = .q15 ∨ n = .ref) : ∀ p b, decideDefault (numOf n)
    ((toneBlock (numOf n) ConfigRegs.default p).drop 22 ++ (toneBlock (numOf n) ConfigRegs.default b).take 22) = b := by
  rcases h with rfl | rfl <;> decide +kernel

/-- The first block of the walk, 22 samples of a tone after 5 zeros of the guard band, likewise. -/
theorem decideDefault_first {n : Numerics} (h : n = .q15 ∨ n = .ref) : ∀ b, decideDefault (numOf n)
    (List.replicate 5 (.rat 0) ++ (toneBlock (numOf n) ConfigRegs.default b).take 22) = b := by
  rcases h with rfl | rfl <;> decide +kernel

/-- At the default configuration the demodulator gives the bits back, and more bits for the last guard band. -/
theorem demodBits_waveform_default {par : Params} (bits : List Bool) (hcap : par.bitCap = none)
    (hnum : par.numerics = .q15 ∨ par.numerics = .ref) :
    ∃ rest, demodBits par ConfigRegs.default 8000
      (waveform (numOf par.numerics) ConfigRegs.default (true :: bits)) = .ok (true :: bits ++ rest) := by
  obtain ⟨rest, hwalk⟩ := blockWalk_blocks (d := decideDefault (numOf par.numerics)) (spb := 27) (k := 22) (m := 29)
    (tb := toneBlock (numOf par.numerics) ConfigRegs.default) (by decide) (fun b => toneBlock_length _ _ b)
    (decideDefault_next hnum) (true :: bits) (List.replicate 5 (.rat 0)) (guardBand ConfigRegs.default) rfl
    (fun b _ => decideDefault_first hnum b)
  refine ⟨rest, ?_⟩
  rw [← hwalk]
  exact demodBits_waveform (b := true) (m := 5) (default_config_inv _) hcap rfl (by decide) (mark_loud hnum)

/-! ## 8000 Hz and 1200 baud -/

/-- The default configuration after `SET.BAUD 1200`. -/
def fastConfig : ConfigRegs := ⟨8000, 1200, 1270, 1070, 7⟩

theorem fastConfig_inv (tie : RoundTie) : fastConfig.Inv tie := by
  cases tie <;> exact ⟨by decide, by decide, by decide, by decide⟩

/-- The five-block check at 1200 baud (70_reset_and_hazards.md R277): the walk is aligned with the tone blocks, and each
of them is decided as 0. -/
theorem decideDefault_fast {n : Numerics} (h : n = .q15 ∨ n = .ref) :
    ∀ b, decideDefault (numOf n) (toneBlock (numOf n) fastConfig b) = false := by
  rcases h with rfl | rfl <;> decide +kernel

/-- At 1200 baud the demodulator gives zeros only. -/
theorem demodBits_waveform_fast {par : Params} (bits : List Bool) (hcap : par.bitCap = none)
    (hnum : par.numerics = .q15 ∨ par.numerics = .ref) :
    ∃ n, demodBits par fastConfig 8000 (waveform (numOf par.numerics) fastConfig (true :: bits)) =
      .ok (List.replicate n false) := by
  obtain ⟨val, hval⟩ := numOf_exact par.numerics
  have htones : blockWalk (decideDefault (numOf par.numerics)) fastConfig.spb.toNat (true :: bits).length
      ((true :: bits).flatMap (toneBlock (numOf par.numerics) fastConfig)) =
      List.replicate (true :: bits).length false := by
    rw [blockWalk_flatMap (tb := toneBlock (numOf par.numerics) fastConfig) (fun b => toneBlock_length _ _ b),
      funext (decideDefault_fast hnum), List.map_const']
  have hguard : blockWalk (decideDefault (numOf par.numerics)) fastConfig.spb.toNat 114 (guardBand fastConfig) =
      List.replicate 114 false := blockWalk_silence hval _ _ _ _ _ _
  refine ⟨(true :: bits).length + 114, ?_⟩
  rw [← List.replicate_append_replicate, ← htones, ← hguard, ← blockWalk_append _ _ (toneBlocks_length _ fastConfig _)]
  exact demodBits_waveform (b := true) (m := 0) (fastConfig_inv _) hcap rfl (by decide) (mark_loud hnum)

end Sys2Proof.Machine

open Sys2Proof Sys2Proof.Machine

/-- Settles O50: by the five-block check the demodulated bits begin with those of the frame, and the parse takes the
frame and ignores what follows. -/
theorem defaultConfigurationRoundTrips : Obligations.DefaultConfigurationRoundTrips := by
  unfold Obligations.DefaultConfigurationRoundTrips
  intro s b hcfg hnum hbitCap hwavCap htxtCap henc hlen
  refine ⟨_, exec_encode_of_unbounded hbitCap hwavCap henc hlen, rfl, fun other => ?_⟩
  obtain ⟨bits, hframe⟩ := exists_bitsOf_frame_eq_cons b
  obtain ⟨rest, hdemod⟩ := demodBits_waveform_default bits hbitCap hnum
  have hparse := parseFrame_frame s.par.utf8Err hlen rest
  rw [← hframe] at hdemod
  refine ⟨_, exec_decode_of_fits (bits := bitsOf (frame b) ++ rest) ?_ (by rw [htxtCap, fits_none]), ?_, ?_, rfl⟩
  · rw [hcfg]; exact hdemod
  · rw [hparse]; exact utf8Dec_enc _ henc
  · rw [hparse]

/-- Settles O51: every block is decided as 0, and zeros hold no marker. -/
theorem twelveHundredBaudLosesEveryText : Obligations.TwelveHundredBaudLosesEveryText := by
  unfold Obligations.TwelveHundredBaudLosesEveryText
  intro s b hcfg hnum hbitCap hwavCap htxtCap henc hlen
  refine ⟨by rw [hcfg]; exact fastConfig_inv _, ?_⟩
  obtain ⟨bits, hframe⟩ := exists_bitsOf_frame_eq_cons b
  obtain ⟨n, hdemod⟩ := demodBits_waveform_fast bits hbitCap hnum
  have hparse := parseFrame_zeros s.par.utf8Err n
  rw [← hframe] at hdemod
  refine ⟨_, _, exec_encode_of_unbounded hbitCap hwavCap henc hlen, rfl,
    exec_decode_of_fits (bits := List.replicate n false) ?_ (by rw [htxtCap, fits_none]), ?_, ?_⟩
  · rw [hcfg]; exact hdemod
  · rw [hparse]; rfl
  · rw [hparse]; rfl

end
